-- ==== Sys2Proof/Word.lean ====
section
/-! DEFINITION. The two machine value types of the block (spec/00_scope.md R8 WORD_BITS, R10): a byte `u8` and a
32-bit word `u32`. There are no signed machine values (R10); coordinates are unbounded integers (D27) and offsets
unbounded naturals (D17), so those are `Int` and `Nat`. -/

namespace Sys2Proof

/-- `u8` (R10). -/
abbrev Byte := BitVec 8

/-- `u32`, the MailboxWord (R10, R73): "a 32-bit unsigned value; the unit of the wire protocol". -/
abbrev Word := BitVec 32

/-- The number of byte addresses of the CPU physical address space, 0..2^32-1 (R50). -/
abbrev addressSpace : Nat := 2 ^ 32

end Sys2Proof
end

