-- ==== Sys2Proof/Config.lean ====
section
/-! DEFINITION. Configuration: what spec/00_scope.md R8 calls the implementation parameters, the tag table of
spec/30_encoding.md R82, and the free values the spec leaves to a draw.

Three kinds stand here.
* Constants the spec fixes (R8 "source") and the tag table of R82, identifiers, sizes and payload layouts (PRESUMED by
  the spec itself, notes/assumptions/9.md).
* `Params`, the parameters with a default or OPEN ones. The machine carries a `Params` in its state, never writes
  it, and every claim holds for every value of it (notes/assumptions/3.md).
* Free values: `opaque`, with no body, so no proof can see a value (notes/assumptions/5.md, 6.md). -/

namespace Sys2Proof

/-- A glyph: 8 bytes, one per row, row 0 the top row (R90, D31). -/
abbrev Glyph := Vector Byte 8

namespace Config

/-- CHAN_MAX: "valid range 0–8 inclusive" (R8, R77). -/
def chanMax : Nat := 8
/-- PROPERTY_CHANNEL (R8, R77). -/
def propertyChannel : Word := 8#32
/-- STATUS_FULL_BIT (R8, R25). -/
def statusFullBit : Nat := 31
/-- STATUS_EMPTY_BIT (R8, R25). -/
def statusEmptyBit : Nat := 30
/-- STATUS bits 29:0, the bits a read draws (R25, R100). -/
def statusDrawMask : Word := 0x3FFFFFFF#32
/-- RESP_SUCCESS_MASK (R8, R83). -/
def respSuccessMask : Word := 0x80000000#32
/-- BUS_ALIAS_MASK (R8, R52). -/
def busAliasMask : Word := 0x3FFFFFFF#32
/-- ALLOC_ALIGN: "(16-byte alignment requested)" (R8, R141). -/
def allocAlign : Word := 16#32
/-- MSG_ALIGN in bytes (R8). -/
def msgAlign : Nat := 16
/-- GLYPH_W (R8). -/
def glyphW : Nat := 8
/-- GLYPH_H (R8). -/
def glyphH : Nat := 8
/-- LINE_SPACING in pixels (R8). -/
def lineSpacing : Nat := 2
/-- GLYPH_FIRST (R8). -/
def glyphFirst : Nat := 32
/-- GLYPH_LAST (R8). -/
def glyphLast : Nat := 126
/-- FB_DEPTH_SUPPORTED (R8). -/
def fbDepth : Word := 32#32
/-- The newline character code 0x0A (R162). -/
def newline : Byte := 0x0A#8
/-- The least MSG_CAP_WORDS a parameter may have: the 31 words of the initialize message (R8, R142). -/
def minCapWords : Nat := 31

/-- What an entry of a tag's request or response payload is, by the names of R82's two columns. -/
inductive Field where
  | revision
  | model
  /-- "6 bytes of MAC address". -/
  | macAddress
  /-- "serial (64 bits, low word first)". -/
  | serial
  | base
  | size
  | clockId
  /-- "rate in Hz". -/
  | rate
  | skipTurbo
  | alignment
  | busAddress
  /-- "pitch in bytes". -/
  | pitch
  | width
  | height
  | depth
  | x
  | y
  deriving DecidableEq, Repr

/-- The bytes an entry takes in a payload: a word, but for the MAC address and the serial (R82). -/
def Field.byteCount : Field → Nat
  | .macAddress => 6
  | .serial => 8
  | .revision | .model | .base | .size | .clockId | .rate | .skipTurbo | .alignment | .busAddress | .pitch | .width
  | .height | .depth | .x | .y => 4

/-- One row of the tag table: the identifier, the value-buffer size in bytes, the request words and the response words
(R82). -/
structure TagRow where
  id       : Word
  vbuf     : Word
  request  : List Field
  response : List Field
  deriving DecidableEq, Repr

/-- TAG_END, the END sentinel (R78, R82). -/
def tagEnd : Word := 0x00000000#32
/-- The tag table of R82, one constant per row. PRESUMED by the spec (D20). -/
def tagGetFirmwareRevision : TagRow := ⟨0x00000001#32, 4#32, [], [.revision]⟩
def tagGetBoardModel : TagRow := ⟨0x00010001#32, 4#32, [], [.model]⟩
def tagGetBoardRevision : TagRow := ⟨0x00010002#32, 4#32, [], [.revision]⟩
def tagGetBoardMacAddress : TagRow := ⟨0x00010003#32, 6#32, [], [.macAddress]⟩
def tagGetBoardSerial : TagRow := ⟨0x00010004#32, 8#32, [], [.serial]⟩
def tagGetArmMemory : TagRow := ⟨0x00010005#32, 8#32, [], [.base, .size]⟩
def tagGetVcMemory : TagRow := ⟨0x00010006#32, 8#32, [], [.base, .size]⟩
def tagGetClockRate : TagRow := ⟨0x00030002#32, 8#32, [.clockId], [.clockId, .rate]⟩
def tagSetClockRate : TagRow := ⟨0x00038002#32, 12#32, [.clockId, .rate, .skipTurbo], [.clockId, .rate]⟩
def tagAllocateBuffer : TagRow := ⟨0x00040001#32, 8#32, [.alignment], [.busAddress, .size]⟩
def tagGetPitch : TagRow := ⟨0x00040008#32, 4#32, [], [.pitch]⟩
def tagSetPhysicalSize : TagRow := ⟨0x00048003#32, 8#32, [.width, .height], [.width, .height]⟩
def tagSetVirtualSize : TagRow := ⟨0x00048004#32, 8#32, [.width, .height], [.width, .height]⟩
def tagSetDepth : TagRow := ⟨0x00048005#32, 4#32, [.depth], [.depth]⟩
def tagSetVirtualOffset : TagRow := ⟨0x00048009#32, 8#32, [.x, .y], [.x, .y]⟩

/-- NL_RESET: where `\n` puts the horizontal cursor (R8, R162, D33). -/
inductive NlReset where
  | origin
  | zero
  deriving DecidableEq, Repr

/-- The parameters of R8 that an implementation fixes. -/
structure Params where
  /-- MBOX_BASE. -/
  mboxBase     : Word
  /-- OFF_READ. -/
  offRead      : Word
  /-- OFF_STATUS. -/
  offStatus    : Word
  /-- OFF_WRITE. -/
  offWrite     : Word
  /-- MBOX_FIFO_DEPTH, at least 1. -/
  fifoDepth    : Nat
  /-- MSG_BUF_ADDR (OPEN), 16-byte aligned. -/
  msgBufAddr   : Word
  /-- MSG_CAP_WORDS (OPEN), at least 31. -/
  msgCapWords  : Nat
  /-- FONT (OPEN): glyph i for character code 32 + i. -/
  font         : Vector Glyph 95
  /-- FALLBACK_GLYPH (OPEN). -/
  fallback     : Glyph
  /-- NL_RESET. -/
  nlReset      : NlReset
  deriving DecidableEq, Repr

/-- The three registers of the mailbox (R72). -/
inductive Register where
  | read
  | status
  | write
  deriving DecidableEq, Repr

/-- A register's offset (R72). -/
def Params.offset (p : Params) : Register → Word
  | .read => p.offRead
  | .status => p.offStatus
  | .write => p.offWrite

/-- The address `MBOX_BASE + off` an access is made at (R11, R72). -/
def Params.accessAddr (p : Params) (off : Word) : Nat := p.mboxBase.toNat + off.toNat

/-- A register's address (R59, R72). -/
def Params.registerAddr (p : Params) (r : Register) : Nat := p.accessAddr (p.offset r)

/-- The register at an address; there is no other (R57, R72). -/
def Params.registerAt (p : Params) (addr : Nat) : Option Register :=
  if addr = p.registerAddr .read then some .read
  else if addr = p.registerAddr .status then some .status
  else if addr = p.registerAddr .write then some .write
  else none

/-- The four bytes of the register and the `n` bytes from `a` up have none in common (R59). -/
abbrev Params.ApartFrom (p : Params) (r : Register) (a n : Nat) : Prop :=
  a + n ≤ p.registerAddr r ∨ p.registerAddr r + 4 ≤ a

/-- The bytes of the message buffer (R34). -/
abbrev Params.bufferBytes (p : Params) : Nat := 4 * p.msgCapWords

/-- The constraints on the parameters: the queues hold a word (R8); the buffer holds the initialize message (R8), is
16-byte aligned (R34, R56), lies in the address space (R50) and has no byte in common with a register (R59); each
register is at a 4-aligned address (R56) in the address space (R50), and no two share one (R72). -/
structure Params.Wf (p : Params) : Prop where
  fifo       : 1 ≤ p.fifoDepth
  capacity   : minCapWords ≤ p.msgCapWords
  aligned    : p.msgBufAddr &&& 0xF#32 = 0#32
  inSpace    : p.msgBufAddr.toNat + p.bufferBytes ≤ addressSpace
  apart      : ∀ r : Register, p.ApartFrom r p.msgBufAddr.toNat p.bufferBytes
  regAligned : ∀ r : Register, p.registerAddr r % 4 = 0
  regInSpace : ∀ r : Register, p.registerAddr r + 4 ≤ addressSpace
  regApart   : p.offRead ≠ p.offStatus ∧ p.offRead ≠ p.offWrite ∧ p.offStatus ≠ p.offWrite

/-- STATUS bits 29:0 "any value on each read (a draw)" (R25, D4): the n-th STATUS read of a run draws `freeStatus n`. -/
opaque freeStatus : Nat → Word

/-- What a byte of memory that nothing has written reads as: "every byte unspecified (any value)" (R34, R39, R190). -/
opaque initByte : Nat → Byte

/-- The font of the default parameters: OPEN in the spec (R8, D32), so left without a value. -/
opaque font : Vector Glyph 95

/-- The fallback glyph of the default parameters: OPEN in the spec (R8, D32), so left without a value. -/
opaque fallback : Glyph

/-- INITIAL_IN: words already in `dev.IN` at reset, default empty (R8, R24, D35). -/
def initialIn : List Word := []

/-- The parameters `State.reset` carries. MBOX_BASE, the offsets (R72) and MBOX_FIFO_DEPTH are R8's defaults, which the
spec presumes (notes/assumptions/9.md); MSG_BUF_ADDR and MSG_CAP_WORDS are OPEN, and the values of the spec's examples
stand here (DESIGN CHOICE, notes/assumptions/3.md). -/
def defaults : Params where
  mboxBase    := 0x3F00B880#32
  offRead     := 0x00#32
  offStatus   := 0x18#32
  offWrite    := 0x20#32
  fifoDepth   := 8
  msgBufAddr  := 0x00080000#32
  msgCapWords := 36
  font        := font
  fallback    := fallback
  nlReset     := .origin

end Config
end Sys2Proof
end

