-- ==== Sys2Proof/Syntax.lean ====
section
/-! DEFINITION. The instructions: one constructor per row of spec/opcode_table.json (R71 operations, R72 registers,
R25 status bits, R74 and R77 mailbox words by channel, R82 tags, R83 response codes), with their typed operands, and
the encoded form in which the caller's sequence holds them.

The block has no instruction set (R2): "The 'instructions' of this block are its operations" (R3). The rows that are
not operations are wire formats; what executing one of them means is a DESIGN CHOICE (notes/assumptions/1.md). -/

namespace Sys2Proof

/-- A colour `(r, g, b, a)` (R86). -/
structure Color where
  r : Byte
  g : Byte
  b : Byte
  a : Byte
  deriving DecidableEq, Repr

/-- A raw access to a mailbox register: a read or a write, of any width in bits. Only 32-bit accesses are admitted (R57);
every other width is REF_MMIO_OTHER (R173). -/
inductive RawAccess where
  | read  (bits : Nat)
  | write (bits v : Nat)
  deriving DecidableEq, Repr

/-- The direction in which a mailbox word crosses the mailbox (R73: "exchanged through the WRITE and READ registers").
`toCop` is the CPU's write of the word to WRITE (R102). `toCpu` is the coprocessor's step that puts it on `dev.IN`:
R108 for a channel other than 8; for channel 8 the answer of R107, with what it writes into words 1, 2, … of the
message (`none` leaves a word as it is: "any value, possibly unchanged"). -/
inductive WordMove where
  | toCop
  | toCpu (draws : List (Option Word))
  deriving DecidableEq, Repr

/-- The instructions, one constructor per row of spec/opcode_table.json. -/
inductive Instr where
  -- operations (R71)
  | mmioRdStatus
  | mmioRdRead
  | mmioWrWrite (v : Word)
  | mbSend (channel address : Word)
  | mbReceive (channel : Word)
  | mbCall (channel buffer : Word)
  | pmBegin
  | pmAddTag (tagId vbuf : Word) (req : List Word)
  | pmFinish
  | pmCall (channel : Word)
  | pmRead (index : Nat)
  | fbBusToCpu (bus : Word)
  | fbInit (width height depth : Word)
  | fbPutPixel (x y : Int) (color : Color)
  | fbFillRect (x y w h : Int) (color : Color)
  | fbClear (color : Color)
  | fbDrawChar (x y : Int) (ch : Byte) (fg bg : Color)
  | fbDrawString (x y : Int) (text : List Byte) (fg bg : Color)
  -- mailbox registers by offset (R72)
  | regRead (access : RawAccess)
  | regStatus (access : RawAccess)
  | regWrite (access : RawAccess)
  -- status bits (R25)
  | statusFull
  | statusEmpty
  -- mailbox words by channel (R74, R77): the address field is bits 31:4
  | mboxWordCh0 (move : WordMove) (addr : BitVec 28)
  | mboxWordCh1 (move : WordMove) (addr : BitVec 28)
  | mboxWordCh2 (move : WordMove) (addr : BitVec 28)
  | mboxWordCh3 (move : WordMove) (addr : BitVec 28)
  | mboxWordCh4 (move : WordMove) (addr : BitVec 28)
  | mboxWordCh5 (move : WordMove) (addr : BitVec 28)
  | mboxWordCh6 (move : WordMove) (addr : BitVec 28)
  | mboxWordCh7 (move : WordMove) (addr : BitVec 28)
  | mboxWordCh8 (move : WordMove) (addr : BitVec 28)
  | mboxWordCh9 (move : WordMove) (addr : BitVec 28)
  | mboxWordCh10 (move : WordMove) (addr : BitVec 28)
  | mboxWordCh11 (move : WordMove) (addr : BitVec 28)
  | mboxWordCh12 (move : WordMove) (addr : BitVec 28)
  | mboxWordCh13 (move : WordMove) (addr : BitVec 28)
  | mboxWordCh14 (move : WordMove) (addr : BitVec 28)
  | mboxWordCh15 (move : WordMove) (addr : BitVec 28)
  -- tags (R82), with the request words the table gives them
  | tagEnd
  | tagGetFirmwareRevision
  | tagGetBoardModel
  | tagGetBoardRevision
  | tagGetBoardMacAddress
  | tagGetBoardSerial
  | tagGetArmMemory
  | tagGetVcMemory
  | tagGetClockRate (clockId : Word)
  | tagSetClockRate (clockId rate skipTurbo : Word)
  | tagAllocateBuffer (alignment : Word)
  | tagGetPitch
  | tagSetPhysicalSize (width height : Word)
  | tagSetVirtualSize (width height : Word)
  | tagSetDepth (depth : Word)
  | tagSetVirtualOffset (x y : Word)
  -- response codes (R83)
  | respSuccess
  | respFailure
  deriving DecidableEq, Repr

/-- Which encoding an issued item is written in: the three levels of R70, with the register offsets (R72), the status
bits (R25) and the response codes (R83), which opcode_table.json lists beside them. The numbers of different levels
overlap (selector 0x20 is PM_BEGIN and offset 0x20 is WRITE), so an encoded item names its level. -/
inductive Level where
  | operation
  | register
  | statusBit
  | mailboxWord
  | tagBlock
  | responseCode
  deriving DecidableEq, Repr

/-- One encoded item of the caller's sequence (R22): its level and its bytes. -/
structure Issue where
  level : Level
  bytes : List Byte
  deriving DecidableEq, Repr

end Sys2Proof
end

