-- ==== Sys2Proof/WellFormed.lean ====
section
/-! DEFINITION. Well-formedness of an instruction: what the operand types of Sys2Proof/Syntax.lean do not say already.

* A raw write's value fits the width it is written with (R57, R58).
* A string operand holds no 0 byte (R71: "text : list u8 containing no 0 byte").
* Only a channel-8 word that comes from the coprocessor rewrites a message (R107, R108). -/

namespace Sys2Proof

/-- A write's value fits its width. -/
abbrev RawAccess.WellFormed : RawAccess → Bool
  | .read _ => true
  | .write bits v => decide (v < 2 ^ bits)

/-- A word on a channel other than 8 carries no rewriting of a message (R108). -/
abbrev WordMove.plain : WordMove → Bool
  | .toCop => true
  | .toCpu draws => draws.isEmpty

/-- The checks on an instruction's operands. -/
abbrev Instr.WellFormed : Instr → Bool
  | .regRead a => a.WellFormed
  | .regStatus a => a.WellFormed
  | .regWrite a => a.WellFormed
  | .fbDrawString _ _ text _ _ => !text.contains 0#8
  | .mboxWordCh0 m _ => m.plain
  | .mboxWordCh1 m _ => m.plain
  | .mboxWordCh2 m _ => m.plain
  | .mboxWordCh3 m _ => m.plain
  | .mboxWordCh4 m _ => m.plain
  | .mboxWordCh5 m _ => m.plain
  | .mboxWordCh6 m _ => m.plain
  | .mboxWordCh7 m _ => m.plain
  | .mboxWordCh9 m _ => m.plain
  | .mboxWordCh10 m _ => m.plain
  | .mboxWordCh11 m _ => m.plain
  | .mboxWordCh12 m _ => m.plain
  | .mboxWordCh13 m _ => m.plain
  | .mboxWordCh14 m _ => m.plain
  | .mboxWordCh15 m _ => m.plain
  | .mmioRdStatus | .mmioRdRead | .mmioWrWrite _ | .mbSend _ _ | .mbReceive _ | .mbCall _ _
  | .pmBegin | .pmAddTag _ _ _ | .pmFinish | .pmCall _ | .pmRead _
  | .fbBusToCpu _ | .fbInit _ _ _ | .fbPutPixel _ _ _ | .fbFillRect _ _ _ _ _ | .fbClear _ | .fbDrawChar _ _ _ _ _
  | .statusFull | .statusEmpty | .mboxWordCh8 _ _
  | .tagEnd | .tagGetFirmwareRevision | .tagGetBoardModel | .tagGetBoardRevision | .tagGetBoardMacAddress
  | .tagGetBoardSerial | .tagGetArmMemory | .tagGetVcMemory | .tagGetClockRate _ | .tagSetClockRate _ _ _
  | .tagAllocateBuffer _ | .tagGetPitch | .tagSetPhysicalSize _ _ | .tagSetVirtualSize _ _ | .tagSetDepth _
  | .tagSetVirtualOffset _ _ | .respSuccess | .respFailure => true

end Sys2Proof
end

