-- ==== Sys2Proof/Decode.lean ====
section
/-! DEFINITION. Decoding, total on any bytes and rejecting by name, and the encoder written from the same tables.

R70 gives three levels: an operation selected by its selector (R71), a 32-bit mailbox word split into address and
channel (R74 to R76), and a property message of tag blocks (R78 to R81). opcode_table.json also lists the register
offsets (R72), the status bits (R25) and the response codes (R83); each is a level of its own here.

The selector numbers, the tag identifiers and the bit positions are the spec's; the register offsets are parameters (R8,
R72), so decoding takes the parameters. The bytes an operand takes after them are NOT in the spec (D1, D43: operands are
fields of an operation term): the layout below is a DESIGN CHOICE (notes/assumptions/2.md). Words are little-endian
(R54). An unbounded natural is written in groups of seven bits, the least significant first, bit 7 of a byte saying that
a further group follows; an integer is written as the natural 2n (n not negative) or -2n-1. -/

namespace Sys2Proof

/-- Why bytes decode to no instruction. -/
inductive DecodeError where
  /-- A selector not in R71's table: R85 "operation selector not in rule R71 | none | refused". -/
  | unknownSelector (sel : Byte)
  /-- An offset at which none of the three registers of R72 stands: "any access to them is refused". -/
  | unknownOffset (off : Word)
  /-- A tag identifier that is not in R82's table, given as a tag row. PM_ADD_TAG carries such a tag (R85). -/
  | unknownTag (id : Word)
  /-- A word that names neither FULL nor EMPTY (R25). -/
  | noStatusBit
  /-- The bytes end inside an operand. -/
  | truncated
  /-- An operand's bytes are none of its values. -/
  | badOperand
  /-- Something other than zeros follows the instruction. -/
  | trailing
  deriving DecidableEq, Repr

/-! ## Byte order and words -/

/-- Byte `i` of a word, byte 0 the least significant (R54). -/
def byteOf (v : Word) (i : Nat) : Byte := v.extractLsb' (8 * i) 8

/-- The little-endian word of four bytes: `m[a] | m[a+1]<<8 | m[a+2]<<16 | m[a+3]<<24` (R54). -/
def wordOfBytes (b0 b1 b2 b3 : Byte) : Word := b3 ++ b2 ++ b1 ++ b0

/-- The four bytes of a word in memory order (R54). -/
def bytesOfWord (v : Word) : List Byte := [byteOf v 0, byteOf v 1, byteOf v 2, byteOf v 3]

/-- The least natural q with q*4 ≥ a: `ceil_div(a, 4)` (R10, R79). -/
def ceilDiv4 (a : Nat) : Nat := (a + 3) / 4

/-! ## The mailbox word (R74 to R76) -/

/-- CHAN, bits 3:0: `word & 0xF` (R76). -/
def chanOf (w : Word) : Word := w &&& 0xF#32

/-- The address portion in place: `word & ~0xF` (R76, D8). -/
def addrOf (w : Word) : Word := w &&& 0xFFFFFFF0#32

/-- Assembly: `(address & ~0xF) | channel` (R75). -/
def assemble (address channel : Word) : Word := (address &&& ~~~0xF#32) ||| channel

/-- The word whose fields are ADDR (bits 31:4) and CHAN (bits 3:0) (R74). -/
def wordOfFields (addr : BitVec 28) (chan : BitVec 4) : Word := addr ++ chan

/-- ADDR, bits 31:4, as a field (R74). -/
def addrField (w : Word) : BitVec 28 := w.extractLsb' 4 28

/-- CHAN, bits 3:0, as a field (R74). -/
def chanField (w : Word) : BitVec 4 := w.extractLsb' 0 4

/-! ## The property message (R78 to R81) -/

/-- A tag block as a decoder finds it (R79). -/
structure TagBlock where
  id     : Word
  vbuf   : Word
  code   : Word
  values : List Word
  deriving DecidableEq, Repr

/-- The words a block takes: `3 + n` with `n = ceil(vbuf / 4)` (R79). -/
def TagBlock.size (b : TagBlock) : Nat := 3 + ceilDiv4 b.vbuf.toNat

/-- The words of a block in the buffer (R79). -/
def TagBlock.words (b : TagBlock) : List Word := b.id :: b.vbuf :: b.code :: b.values

/-- R81's walk from a block's first word to END: `none` where the words end before END. `fuel` bounds the blocks. -/
def walkTags : (fuel : Nat) → List Word → Option (List TagBlock)
  | 0, _ => none
  | _ + 1, [] => none
  | fuel + 1, id :: rest =>
    if id = Config.tagEnd then some []
    else
      match rest with
      | vbuf :: code :: more =>
        let n := ceilDiv4 vbuf.toNat
        if more.length < n then none
        else (walkTags fuel (more.drop n)).map (fun bs => ⟨id, vbuf, code, more.take n⟩ :: bs)
      | _ => none

/-- A message decoded from the buffer alone: the size in bytes, the code word and the tag blocks (R78, R81). -/
structure Message where
  size : Word
  code : Word
  tags : List TagBlock
  deriving DecidableEq, Repr

/-- R78, R81: words 0 and 1, then the walk. -/
def decodeMessage : List Word → Option Message
  | size :: code :: rest => (walkTags (rest.length + 1) rest).map (fun ts => ⟨size, code, ts⟩)
  | _ => none

/-! ## The response payload of a tag (R82) -/

/-- The value of an entry of a response payload: a word, the 64-bit serial, or the bytes of the MAC address. -/
inductive FieldValue where
  | word (w : Word)
  | wide (v : BitVec 64)
  | bytes (bs : List Byte)
  deriving DecidableEq, Repr

/-- An entry read off the head of the payload's bytes, and the bytes after it: the serial's "low word first", every word
little-endian (R54), the MAC address's bytes in memory order (DEDUCED, notes/assumptions/16.md). -/
def readField (f : Config.Field) (bs : List Byte) : Option (FieldValue × List Byte) :=
  match f, bs with
  | .macAddress, b0 :: b1 :: b2 :: b3 :: b4 :: b5 :: rest => some (.bytes [b0, b1, b2, b3, b4, b5], rest)
  | .serial, b0 :: b1 :: b2 :: b3 :: b4 :: b5 :: b6 :: b7 :: rest =>
    some (.wide (wordOfBytes b4 b5 b6 b7 ++ wordOfBytes b0 b1 b2 b3), rest)
  | .macAddress, _ | .serial, _ => none
  | _, b0 :: b1 :: b2 :: b3 :: rest => some (.word (wordOfBytes b0 b1 b2 b3), rest)
  | _, _ => none

/-- The entries of a payload, in the table's order. -/
def readFields : List Config.Field → List Byte → Option (List (Config.Field × FieldValue))
  | [], _ => some []
  | f :: fs, bs =>
    match readField f bs with
    | none => none
    | some (v, rest) => (readFields fs rest).map ((f, v) :: ·)

/-- What the value words of a row's block say on reply (R79, R82): the row's response entries. -/
def readResponse (row : Config.TagRow) (values : List Word) : Option (List (Config.Field × FieldValue)) :=
  readFields row.response (values.flatMap bytesOfWord)

/-! ## Reading operands -/

/-- What a reader gives: a value and the bytes after it, or the name of what is wrong. -/
abbrev Parsed (α : Type) := Except DecodeError (α × List Byte)

/-- Read one thing, then the next from the bytes after it. -/
def Parsed.andThen {α β : Type} (p : Parsed α) (f : α → List Byte → Parsed β) : Parsed β :=
  match p with
  | .error e => .error e
  | .ok (a, rest) => f a rest

def getByte : List Byte → Parsed Byte
  | b :: rest => .ok (b, rest)
  | [] => .error .truncated

def getWord : List Byte → Parsed Word
  | b0 :: b1 :: b2 :: b3 :: rest => .ok (wordOfBytes b0 b1 b2 b3, rest)
  | _ => .error .truncated

/-- An unbounded natural (offsets and indexes are `Nat`, D17). -/
def getNat : List Byte → Parsed Nat
  | [] => .error .truncated
  | b :: rest =>
    if b.toNat < 128 then .ok (b.toNat, rest)
    else
      match getNat rest with
      | .error e => .error e
      | .ok (m, rest') => .ok (b.toNat - 128 + 128 * m, rest')

/-- The integer a natural stands for: 2n is n, 2n+1 is -n-1. -/
def intOfNat (z : Nat) : Int := if z % 2 = 0 then ((z / 2 : Nat) : Int) else -((z / 2 : Nat) : Int) - 1

/-- An unbounded integer (coordinates are `Int`, D27). -/
def getInt (bs : List Byte) : Parsed Int := (getNat bs).andThen fun z rest => .ok (intOfNat z, rest)

def getColor (bs : List Byte) : Parsed Color :=
  (getByte bs).andThen fun r bs => (getByte bs).andThen fun g bs =>
  (getByte bs).andThen fun b bs => (getByte bs).andThen fun a bs => .ok (⟨r, g, b, a⟩, bs)

/-- `k` things one after another. -/
def getMany {α : Type} (get : List Byte → Parsed α) : (k : Nat) → List Byte → Parsed (List α)
  | 0, bs => .ok ([], bs)
  | k + 1, bs => (get bs).andThen fun a bs => (getMany get k bs).andThen fun as bs => .ok (a :: as, bs)

/-- A list: its length, then its members. -/
def getList {α : Type} (get : List Byte → Parsed α) (bs : List Byte) : Parsed (List α) :=
  (getNat bs).andThen fun k bs => getMany get k bs

/-- A word or none: a byte 1 and the word, or a byte 0. -/
def getDraw (bs : List Byte) : Parsed (Option Word) :=
  (getByte bs).andThen fun t bs =>
    if t = 0#8 then .ok (none, bs)
    else if t = 1#8 then (getWord bs).andThen fun w bs => .ok (some w, bs)
    else .error .badOperand

/-- A direction: a byte 0, or a byte 1 and the drawn words. -/
def getMove (bs : List Byte) : Parsed WordMove :=
  (getByte bs).andThen fun t bs =>
    if t = 0#8 then .ok (.toCop, bs)
    else if t = 1#8 then (getList getDraw bs).andThen fun ds bs => .ok (.toCpu ds, bs)
    else .error .badOperand

/-- A raw access: 0 the 32-bit read, 1 the 32-bit write and its word, 2 a read and its width in bits, 3 a write, its width
in bits and its value. -/
def getAccess (bs : List Byte) : Parsed RawAccess :=
  (getByte bs).andThen fun t bs =>
    if t = 0#8 then .ok (.read 32, bs)
    else if t = 1#8 then (getWord bs).andThen fun v bs => .ok (.write 32 v.toNat, bs)
    else if t = 2#8 then (getNat bs).andThen fun bits bs => .ok (.read bits, bs)
    else if t = 3#8 then
      (getNat bs).andThen fun bits bs => (getNat bs).andThen fun v bs =>
        if v < 2 ^ bits then .ok (.write bits v, bs) else .error .badOperand
    else .error .badOperand

/-! ## The decoder, level by level -/

/-- An operation: its selector and its operands (R71). -/
def decodeOperation (bs : List Byte) : Parsed Instr :=
  (getByte bs).andThen fun sel bs =>
    match sel.toNat with
    | 0x01 => .ok (.mmioRdStatus, bs)
    | 0x02 => .ok (.mmioRdRead, bs)
    | 0x03 => (getWord bs).andThen fun v bs => .ok (.mmioWrWrite v, bs)
    | 0x10 => (getWord bs).andThen fun c bs => (getWord bs).andThen fun a bs => .ok (.mbSend c a, bs)
    | 0x11 => (getWord bs).andThen fun c bs => .ok (.mbReceive c, bs)
    | 0x12 => (getWord bs).andThen fun c bs => (getWord bs).andThen fun a bs => .ok (.mbCall c a, bs)
    | 0x20 => .ok (.pmBegin, bs)
    | 0x21 => (getWord bs).andThen fun t bs => (getWord bs).andThen fun v bs =>
        (getList getWord bs).andThen fun r bs => .ok (.pmAddTag t v r, bs)
    | 0x22 => .ok (.pmFinish, bs)
    | 0x23 => (getWord bs).andThen fun c bs => .ok (.pmCall c, bs)
    | 0x24 => (getNat bs).andThen fun i bs => .ok (.pmRead i, bs)
    | 0x30 => (getWord bs).andThen fun b bs => .ok (.fbBusToCpu b, bs)
    | 0x31 => (getWord bs).andThen fun w bs => (getWord bs).andThen fun h bs =>
        (getWord bs).andThen fun d bs => .ok (.fbInit w h d, bs)
    | 0x32 => (getInt bs).andThen fun x bs => (getInt bs).andThen fun y bs =>
        (getColor bs).andThen fun c bs => .ok (.fbPutPixel x y c, bs)
    | 0x33 => (getInt bs).andThen fun x bs => (getInt bs).andThen fun y bs =>
        (getInt bs).andThen fun w bs => (getInt bs).andThen fun h bs =>
        (getColor bs).andThen fun c bs => .ok (.fbFillRect x y w h c, bs)
    | 0x34 => (getColor bs).andThen fun c bs => .ok (.fbClear c, bs)
    | 0x40 => (getInt bs).andThen fun x bs => (getInt bs).andThen fun y bs =>
        (getByte bs).andThen fun ch bs => (getColor bs).andThen fun fg bs =>
        (getColor bs).andThen fun bg bs => .ok (.fbDrawChar x y ch fg bg, bs)
    | 0x41 => (getInt bs).andThen fun x bs => (getInt bs).andThen fun y bs =>
        (getList getByte bs).andThen fun t bs => (getColor bs).andThen fun fg bs =>
        (getColor bs).andThen fun bg bs => .ok (.fbDrawString x y t fg bg, bs)
    | _ => .error (.unknownSelector sel)

/-- A raw register access: the offset of the access, made at `MBOX_BASE + off` (R11), and the access. -/
def decodeRegister (p : Config.Params) (bs : List Byte) : Parsed Instr :=
  (getWord bs).andThen fun off bs =>
    match p.registerAt (p.accessAddr off) with
    | some .read => (getAccess bs).andThen fun a bs => .ok (.regRead a, bs)
    | some .status => (getAccess bs).andThen fun a bs => .ok (.regStatus a, bs)
    | some .write => (getAccess bs).andThen fun a bs => .ok (.regWrite a, bs)
    | none => .error (.unknownOffset off)

/-- A status bit: bit 31 is FULL, bit 30 EMPTY, the other bits are ignored (R25, R85). The spec has no item with both bits
set; it names FULL here, the first row of the table (DESIGN CHOICE, notes/assumptions/2.md). -/
def decodeStatusBit (bs : List Byte) : Parsed Instr :=
  (getWord bs).andThen fun w bs =>
    if w.getLsbD Config.statusFullBit then .ok (.statusFull, bs)
    else if w.getLsbD Config.statusEmptyBit then .ok (.statusEmpty, bs)
    else .error .noStatusBit

/-- The row of a mailbox word by its channel (R77, R85). -/
def mailboxInstr (chan : BitVec 4) (move : WordMove) (addr : BitVec 28) : Instr :=
  match chan.toNat with
  | 0 => .mboxWordCh0 move addr
  | 1 => .mboxWordCh1 move addr
  | 2 => .mboxWordCh2 move addr
  | 3 => .mboxWordCh3 move addr
  | 4 => .mboxWordCh4 move addr
  | 5 => .mboxWordCh5 move addr
  | 6 => .mboxWordCh6 move addr
  | 7 => .mboxWordCh7 move addr
  | 8 => .mboxWordCh8 move addr
  | 9 => .mboxWordCh9 move addr
  | 10 => .mboxWordCh10 move addr
  | 11 => .mboxWordCh11 move addr
  | 12 => .mboxWordCh12 move addr
  | 13 => .mboxWordCh13 move addr
  | 14 => .mboxWordCh14 move addr
  | _ => .mboxWordCh15 move addr

/-- A mailbox word and its direction: "Every u32 decodes" (R76). -/
def decodeMailboxWord (bs : List Byte) : Parsed Instr :=
  (getWord bs).andThen fun w bs => (getMove bs).andThen fun m bs =>
    .ok (mailboxInstr (chanField w) m (addrField w), bs)

/-- A tag by its identifier, and the request words the table gives it (R82). -/
def decodeTag (bs : List Byte) : Parsed Instr :=
  (getWord bs).andThen fun id bs =>
    if id = Config.tagEnd then .ok (.tagEnd, bs)
    else if id = Config.tagGetFirmwareRevision.id then .ok (.tagGetFirmwareRevision, bs)
    else if id = Config.tagGetBoardModel.id then .ok (.tagGetBoardModel, bs)
    else if id = Config.tagGetBoardRevision.id then .ok (.tagGetBoardRevision, bs)
    else if id = Config.tagGetBoardMacAddress.id then .ok (.tagGetBoardMacAddress, bs)
    else if id = Config.tagGetBoardSerial.id then .ok (.tagGetBoardSerial, bs)
    else if id = Config.tagGetArmMemory.id then .ok (.tagGetArmMemory, bs)
    else if id = Config.tagGetVcMemory.id then .ok (.tagGetVcMemory, bs)
    else if id = Config.tagGetClockRate.id then
      (getWord bs).andThen fun c bs => .ok (.tagGetClockRate c, bs)
    else if id = Config.tagSetClockRate.id then
      (getWord bs).andThen fun c bs => (getWord bs).andThen fun r bs =>
      (getWord bs).andThen fun t bs => .ok (.tagSetClockRate c r t, bs)
    else if id = Config.tagAllocateBuffer.id then
      (getWord bs).andThen fun a bs => .ok (.tagAllocateBuffer a, bs)
    else if id = Config.tagGetPitch.id then .ok (.tagGetPitch, bs)
    else if id = Config.tagSetPhysicalSize.id then
      (getWord bs).andThen fun w bs => (getWord bs).andThen fun h bs => .ok (.tagSetPhysicalSize w h, bs)
    else if id = Config.tagSetVirtualSize.id then
      (getWord bs).andThen fun w bs => (getWord bs).andThen fun h bs => .ok (.tagSetVirtualSize w h, bs)
    else if id = Config.tagSetDepth.id then
      (getWord bs).andThen fun d bs => .ok (.tagSetDepth d, bs)
    else if id = Config.tagSetVirtualOffset.id then
      (getWord bs).andThen fun x bs => (getWord bs).andThen fun y bs => .ok (.tagSetVirtualOffset x y, bs)
    else .error (.unknownTag id)

/-- A response code: "The block's verdict is `success = (Word(1) & 0x80000000) ≠ 0`" (R83), bits 30:0 unread. -/
def decodeResponse (bs : List Byte) : Parsed Instr :=
  (getWord bs).andThen fun w bs =>
    if w &&& Config.respSuccessMask = 0#32 then .ok (.respFailure, bs) else .ok (.respSuccess, bs)

/-- Decode bytes at a level. -/
def decodeAt (p : Config.Params) : Level → List Byte → Parsed Instr
  | .operation => decodeOperation
  | .register => decodeRegister p
  | .statusBit => decodeStatusBit
  | .mailboxWord => decodeMailboxWord
  | .tagBlock => decodeTag
  | .responseCode => decodeResponse

/-- Decode an issued item. Only zeros may follow the instruction. -/
def decode (p : Config.Params) (iss : Issue) : Except DecodeError Instr :=
  match decodeAt p iss.level iss.bytes with
  | .error e => .error e
  | .ok (i, rest) => if rest.all (· == 0#8) then .ok i else .error .trailing

/-! ## The encoder -/

/-- `fuel` groups at most; `putNat` gives enough. -/
def putNatFuel : (fuel : Nat) → Nat → List Byte
  | 0, n => [BitVec.ofNat 8 (n % 128)]
  | fuel + 1, n =>
    if n < 128 then [BitVec.ofNat 8 n]
    else BitVec.ofNat 8 (n % 128 + 128) :: putNatFuel fuel (n / 128)

def putNat (n : Nat) : List Byte := putNatFuel n n

/-- The natural an integer is written as. -/
def natOfInt (x : Int) : Nat := if 0 ≤ x then 2 * x.toNat else 2 * (-x - 1).toNat + 1

def putInt (x : Int) : List Byte := putNat (natOfInt x)

def putColor (c : Color) : List Byte := [c.r, c.g, c.b, c.a]

def putWords (ws : List Word) : List Byte := ws.flatMap bytesOfWord

def putDraw : Option Word → List Byte
  | none => [0#8]
  | some w => 1#8 :: bytesOfWord w

def putMove : WordMove → List Byte
  | .toCop => [0#8]
  | .toCpu ds => 1#8 :: (putNat ds.length ++ ds.flatMap putDraw)

def putAccess : RawAccess → List Byte
  | .read bits => if bits = 32 then [0#8] else 2#8 :: putNat bits
  | .write bits v => if bits = 32 then 1#8 :: bytesOfWord (BitVec.ofNat 32 v) else 3#8 :: (putNat bits ++ putNat v)

/-- An operation's issue. -/
def opIssue (sel : Byte) (operands : List Byte) : Issue := ⟨.operation, sel :: operands⟩

/-- A tag row's issue. -/
def tagIssue (id : Word) (req : List Word) : Issue := ⟨.tagBlock, bytesOfWord id ++ putWords req⟩

/-- A mailbox word's issue. -/
def wordIssue (chan : BitVec 4) (move : WordMove) (addr : BitVec 28) : Issue :=
  ⟨.mailboxWord, bytesOfWord (wordOfFields addr chan) ++ putMove move⟩

/-- A raw register access's issue. -/
def registerIssue (off : Word) (a : RawAccess) : Issue := ⟨.register, bytesOfWord off ++ putAccess a⟩

/-- The encoding of an instruction. -/
def encode (p : Config.Params) : Instr → Issue
  | .mmioRdStatus => opIssue 0x01#8 []
  | .mmioRdRead => opIssue 0x02#8 []
  | .mmioWrWrite v => opIssue 0x03#8 (bytesOfWord v)
  | .mbSend c a => opIssue 0x10#8 (bytesOfWord c ++ bytesOfWord a)
  | .mbReceive c => opIssue 0x11#8 (bytesOfWord c)
  | .mbCall c a => opIssue 0x12#8 (bytesOfWord c ++ bytesOfWord a)
  | .pmBegin => opIssue 0x20#8 []
  | .pmAddTag t v r => opIssue 0x21#8 (bytesOfWord t ++ (bytesOfWord v ++ (putNat r.length ++ putWords r)))
  | .pmFinish => opIssue 0x22#8 []
  | .pmCall c => opIssue 0x23#8 (bytesOfWord c)
  | .pmRead i => opIssue 0x24#8 (putNat i)
  | .fbBusToCpu b => opIssue 0x30#8 (bytesOfWord b)
  | .fbInit w h d => opIssue 0x31#8 (bytesOfWord w ++ (bytesOfWord h ++ bytesOfWord d))
  | .fbPutPixel x y c => opIssue 0x32#8 (putInt x ++ (putInt y ++ putColor c))
  | .fbFillRect x y w h c => opIssue 0x33#8 (putInt x ++ (putInt y ++ (putInt w ++ (putInt h ++ putColor c))))
  | .fbClear c => opIssue 0x34#8 (putColor c)
  | .fbDrawChar x y ch fg bg => opIssue 0x40#8 (putInt x ++ (putInt y ++ (ch :: (putColor fg ++ putColor bg))))
  | .fbDrawString x y t fg bg =>
      opIssue 0x41#8 (putInt x ++ (putInt y ++ (putNat t.length ++ (t ++ (putColor fg ++ putColor bg)))))
  | .regRead a => registerIssue p.offRead a
  | .regStatus a => registerIssue p.offStatus a
  | .regWrite a => registerIssue p.offWrite a
  | .statusFull => ⟨.statusBit, bytesOfWord 0x80000000#32⟩
  | .statusEmpty => ⟨.statusBit, bytesOfWord 0x40000000#32⟩
  | .mboxWordCh0 m a => wordIssue 0#4 m a
  | .mboxWordCh1 m a => wordIssue 1#4 m a
  | .mboxWordCh2 m a => wordIssue 2#4 m a
  | .mboxWordCh3 m a => wordIssue 3#4 m a
  | .mboxWordCh4 m a => wordIssue 4#4 m a
  | .mboxWordCh5 m a => wordIssue 5#4 m a
  | .mboxWordCh6 m a => wordIssue 6#4 m a
  | .mboxWordCh7 m a => wordIssue 7#4 m a
  | .mboxWordCh8 m a => wordIssue 8#4 m a
  | .mboxWordCh9 m a => wordIssue 9#4 m a
  | .mboxWordCh10 m a => wordIssue 10#4 m a
  | .mboxWordCh11 m a => wordIssue 11#4 m a
  | .mboxWordCh12 m a => wordIssue 12#4 m a
  | .mboxWordCh13 m a => wordIssue 13#4 m a
  | .mboxWordCh14 m a => wordIssue 14#4 m a
  | .mboxWordCh15 m a => wordIssue 15#4 m a
  | .tagEnd => tagIssue Config.tagEnd []
  | .tagGetFirmwareRevision => tagIssue Config.tagGetFirmwareRevision.id []
  | .tagGetBoardModel => tagIssue Config.tagGetBoardModel.id []
  | .tagGetBoardRevision => tagIssue Config.tagGetBoardRevision.id []
  | .tagGetBoardMacAddress => tagIssue Config.tagGetBoardMacAddress.id []
  | .tagGetBoardSerial => tagIssue Config.tagGetBoardSerial.id []
  | .tagGetArmMemory => tagIssue Config.tagGetArmMemory.id []
  | .tagGetVcMemory => tagIssue Config.tagGetVcMemory.id []
  | .tagGetClockRate c => tagIssue Config.tagGetClockRate.id [c]
  | .tagSetClockRate c r t => tagIssue Config.tagSetClockRate.id [c, r, t]
  | .tagAllocateBuffer a => tagIssue Config.tagAllocateBuffer.id [a]
  | .tagGetPitch => tagIssue Config.tagGetPitch.id []
  | .tagSetPhysicalSize w h => tagIssue Config.tagSetPhysicalSize.id [w, h]
  | .tagSetVirtualSize w h => tagIssue Config.tagSetVirtualSize.id [w, h]
  | .tagSetDepth d => tagIssue Config.tagSetDepth.id [d]
  | .tagSetVirtualOffset x y => tagIssue Config.tagSetVirtualOffset.id [x, y]
  | .respSuccess => ⟨.responseCode, bytesOfWord Config.respSuccessMask⟩
  | .respFailure => ⟨.responseCode, bytesOfWord 0#32⟩

/-! ## opcode_table.json's numbering -/

/-- The selectors of R71. -/
def selectors : List Byte :=
  [0x01, 0x02, 0x03, 0x10, 0x11, 0x12, 0x20, 0x21, 0x22, 0x23, 0x24, 0x30, 0x31, 0x32, 0x33, 0x34, 0x40, 0x41]

/-- The tag identifiers of R82. -/
def tagIds : List Word :=
  [Config.tagEnd, Config.tagGetFirmwareRevision.id, Config.tagGetBoardModel.id, Config.tagGetBoardRevision.id,
   Config.tagGetBoardMacAddress.id, Config.tagGetBoardSerial.id, Config.tagGetArmMemory.id, Config.tagGetVcMemory.id,
   Config.tagGetClockRate.id, Config.tagSetClockRate.id, Config.tagAllocateBuffer.id, Config.tagGetPitch.id,
   Config.tagSetPhysicalSize.id, Config.tagSetVirtualSize.id, Config.tagSetDepth.id, Config.tagSetVirtualOffset.id]

/-- The level at which a word of opcode_table.json is read when nothing else says it: the table numbers its rows in
several encodings that overlap (DESIGN CHOICE, notes/assumptions/4.md). -/
def levelOfTableWord (nbits w : Nat) : Level :=
  if nbits ≤ 4 then .mailboxWord
  else if nbits ≤ 8 then
    if selectors.contains (BitVec.ofNat 8 w) then .operation
    else if (Config.defaults.registerAt (Config.defaults.accessAddr (BitVec.ofNat 32 (w % 256)))).isSome then .register
    else if w % 256 < 16 then .mailboxWord
    else .operation
  else if tagIds.contains (BitVec.ofNat 32 w) then .tagBlock
  else if w % 2 ^ 32 = 0x80000000 ∨ w % 2 ^ 32 = 0x40000000 then .statusBit
  else .responseCode

/-- The first `n` bytes of a number, the least significant first. -/
def bytesOfNat : (n : Nat) → Nat → List Byte
  | 0, _ => []
  | n + 1, w => BitVec.ofNat 8 w :: bytesOfNat n (w / 256)

/-- The longest instruction whose operands are all zeros has at most this many bytes (a tag with three words). -/
def longestZeroTail : Nat := 16

/-- The issued item whose low `nbits` bits are `w` and whose other bits are 0. -/
def issueOfTableWord (nbits w : Nat) : Issue :=
  ⟨levelOfTableWord nbits w, bytesOfNat ((nbits + 7) / 8) (w % 2 ^ nbits) ++ List.replicate longestZeroTail 0#8⟩

/-- The instruction the decoder reads from a word of opcode_table.json, with the default parameters. -/
def decodeTableWord (nbits w : Nat) : Option Instr :=
  match decode Config.defaults (issueOfTableWord nbits w) with
  | .ok i => some i
  | .error _ => none

end Sys2Proof
end

