-- ==== Sys2Proof/Machine/State.lean ====
section
/-! DEFINITION. The state (spec/10_state.md R20 to R41), the faults and refusals (spec/60_exceptions.md R172, R173)
and the state after reset (spec/70_reset_and_hazards.md R190). Plain data throughout.

R20's record is `dev`, `cop`, `mem`, `pm`, `fb`, `fault`, `refused`. Beside it stand: the CPU agent's position
(`pos` and, inside an operation, `cpu`: R22, D44), the caller's sequence and the results it reads (`ops`, `results`:
R13, R22, R181), and the model's own fields: the parameters (`cfg`, R8), the coprocessor's schedule (`sched`: R106 to
R108, "Whether and when it takes each step is open") and the count of STATUS draws taken (`drawn`: R25, R100). -/

namespace Sys2Proof.Machine

/-- Fault codes with the information R172 records. A fault is a mark in the state (R176): the operation that raises it
answers a next state with `State.fault` set, and `step` answers `fault` with it once the CPU is to go on. Each is safe:
"The model stops there" (R172), D7, D15, D28 "Toward unprovable". -/
inductive Fault where
  /-- Raised by MB_SEND, and MB_CALL, PM_CALL and FB_INIT through it: `address & 0xF ≠ 0`; the address. Safe. -/
  | misalignedMboxAddr (address : Word)
  /-- Raised by PM_ADD_TAG and PM_FINISH (and the tag rows and FB_INIT through them): the block or the END word would
  pass the buffer's last word; the cursor and the words needed. Safe. -/
  | msgOverflow (cursor needed : Nat)
  /-- Raised by FB_PUT_PIXEL and everything through it: an in-bounds pixel's 4 bytes are not inside the region, or
  pass 2^32; x, y and the offset. Safe. -/
  | fbOutOfRegion (x y : Int) (off : Nat)
  deriving DecidableEq, Repr

/-- Refusal codes (R173). A refusal is a mark in the state (R176), like a fault. Each is safe: "it errs toward
unprovable" (R173). -/
inductive Refusal where
  /-- Raised by an arm of exec that has no meaning yet. No arm is of that kind now. Safe. -/
  | notModelled (mnemonic : String)
  /-- Raised by step: the selector is not in R71. Safe. -/
  | unknownOp (selector : Byte)
  /-- Raised by MB_SEND, MB_RECEIVE, MB_CALL, PM_CALL, MMIO_WR_WRITE and the WRITE-register rows: channel > 8. Safe. -/
  | channel
  /-- Raised by MB_SEND, MB_CALL, PM_CALL, MMIO_WR_WRITE and the WRITE-register rows: channel 0..7, send side. Safe. -/
  | channelUnmodelled
  /-- Raised by MMIO_RD_READ and REG_READ: `dev.IN` is empty. Safe. -/
  | readEmpty
  /-- Raised by MMIO_WR_WRITE and the WRITE-register rows: `dev.OUT` is full. Safe. -/
  | writeFull
  /-- Raised by REG_READ, REG_STATUS, REG_WRITE on a direction or width that is not theirs, and by step on another
  offset. Safe. -/
  | mmioOther
  /-- Raised by PM_ADD_TAG, PM_FINISH, PM_CALL, FB_INIT and the tag rows: the builder phase is not theirs. Safe. -/
  | pmPhase
  /-- Raised by PM_ADD_TAG: `tag_id = 0`. Safe. -/
  | tagZero
  /-- Raised by PM_ADD_TAG: more request words than `ceil_div(vbuf, 4)`. Safe. -/
  | reqTooLong
  /-- Raised by PM_READ: `index ≥ MSG_CAP_WORDS`. Safe. -/
  | pmIndex
  /-- Raised by FB_INIT: `fb.state = READY`. Safe. -/
  | fbReinit
  /-- Raised by every drawing operation: `fb.state = UNINIT`. Safe. -/
  | fbNotReady
  /-- Raised by every drawing operation: `fb.desc.depth ≠ 32`. Safe. -/
  | depthUnsupported
  /-- Raised by FB_DRAW_STRING: the text holds a 0 byte. Safe. -/
  | textNul
  /-- Raised by step: the bytes of the item are no operation's for a reason of the model's own operand layout (they
  end early, an operand byte has no meaning, something follows, a tag row's identifier or a status bit is unknown).
  The spec has no such bytes (D1). Safe. -/
  | badEncoding (why : DecodeError)
  deriving DecidableEq, Repr

/-- The mailbox device (R23, R24). `out` is `dev.OUT`, `inq` is `dev.IN`; the head of a list is the queue's head.
STATUS, READ and WRITE have no storage of their own (R25 to R27). -/
structure Device where
  out : List Word
  inq : List Word
  deriving DecidableEq, Repr

/-- An entry of `cop.PENDING`: `(channel : 0..15, addr : u32)` (R31). -/
structure Request where
  channel : Word
  addr    : Word
  deriving DecidableEq, Repr

/-- The coprocessor (R31, R32: "no other state the CPU can observe"). -/
structure Coprocessor where
  pending : List Request
  deriving DecidableEq, Repr

/-- The bytes of the CPU physical address space (R50) that something has written, at strictly rising addresses. An
address that is not listed has not been written, and reads as `Config.initByte` of it (notes/assumptions/5.md). -/
structure Memory where
  cells : List Host.Cell
  deriving DecidableEq, Repr

/-- The canonical form: strictly rising addresses, all of them in the address space (R50). -/
abbrev Memory.wf (m : Memory) : Prop :=
  m.cells.Pairwise (fun c d => c.1 < d.1) ∧ ∀ c ∈ m.cells, c.1 < addressSpace

/-- `pm.phase` (R33). -/
inductive Phase where
  | idle
  | building
  | finished
  deriving DecidableEq, Repr

/-- The builder (R33): the phase and the write cursor, a word index into the message buffer. -/
structure Builder where
  phase  : Phase
  cursor : Nat
  deriving DecidableEq, Repr

/-- `fb.state` (R36): "exactly two states". -/
inductive FbState where
  | uninit
  | ready
  deriving DecidableEq, Repr

/-- The FramebufferDescriptor (R37). -/
structure Descriptor where
  width  : Word
  height : Word
  pitch  : Word
  depth  : Word
  buffer : Word
  size   : Word
  deriving DecidableEq, Repr

/-- The framebuffer driver (R36, R37). -/
structure Driver where
  state : FbState
  desc  : Descriptor
  deriving DecidableEq, Repr

/-- The result of an operation (R71's result column). `none` is the table's "-". -/
inductive Result where
  | none
  | word (w : Word)
  | flag (b : Bool)
  | offset (n : Nat)
  deriving DecidableEq, Repr

/-- One pixel to write: `FB_PUT_PIXEL(x, y, color)` (R143). -/
structure Pixel where
  x     : Int
  y     : Int
  color : Color
  deriving DecidableEq, Repr

/-- What a `receive` does with the matching word: the address part is the operation's result (R104), or "result unused"
(R105). -/
inductive ReplyUse where
  | result
  | drop
  deriving DecidableEq, Repr

/-- Whose success test it is (R105): `call`'s, the property `call`'s (R123), or that of `initialize` (R141), with what
`initialize` needs after it. -/
inductive Task where
  | call
  | pmCall
  | fbInit (width height depth : Word) (oA oP : Nat)
  deriving DecidableEq, Repr

/-- A piece of an operation that the CPU has still to do. The CPU's position inside an operation (R22: "the poll loop of
rule R103, the discard loop of rule R104, the pixel loops") is the list of them, the next one first. Each makes at most
one access to memory or a register, or stands for pieces that do. -/
inductive Micro where
  /-- `Word(i) <- v` (R11, R120 to R122). -/
  | word (i : Nat) (v : Word)
  /-- The builder's phase and cursor become these (R120 to R122). -/
  | builder (p : Builder)
  /-- `PM_ADD_TAG(id, vbuf, req)` with its checks, its offset unused (R121, R141). -/
  | addTag (id vbuf : Word) (req : List Word)
  /-- The allocate tag of `initialize`, whose offset is oA (R141). -/
  | allocTag (width height depth : Word)
  /-- The get-pitch tag of `initialize`, whose offset is oP (R141). -/
  | pitchTag (width height depth : Word) (oA : Nat)
  /-- `PM_FINISH()` with its checks (R122, R141). -/
  | finish
  /-- `PM_CALL(channel)` with its checks (R123, R141). -/
  | propertyCall (channel : Word) (task : Task)
  /-- The poll loop of `send`, then its write (R103). -/
  | pollFull (channel address : Word)
  /-- The discard loop of `receive`, with its poll loop (R104). -/
  | pollEmpty (channel : Word) (use : ReplyUse)
  /-- The read of the code word at `buffer + 4` and the success test (R105). -/
  | verify (buffer : Word) (task : Task)
  /-- `bus <- Word(oA)` (R141). -/
  | readBus (width height depth : Word) (oA oP : Nat)
  /-- `size <- Word(oA + 1)` (R141). -/
  | readSize (width height depth bus : Word) (oA oP : Nat)
  /-- `pitch <- Word(oP)`, and the end of `initialize` (R141). -/
  | readPitch (width height depth bus size : Word) (oP : Nat)
  /-- The pixel loop: `FB_PUT_PIXEL` of one after another (R143, R144, R161). -/
  | pixels (ps : List Pixel)
  /-- `MemWrite(a, 1, b)`, one byte of a pixel (R143, R58). -/
  | byte (a : Nat) (b : Byte)
  /-- The character loop of `draw_string` with origin `x` and cursor (cx, cy) (R162). -/
  | text (x : Int) (fg bg : Color) (text : List Byte) (cx cy : Int)
  /-- `return r` (R11). -/
  | ret (r : Result)
  deriving DecidableEq, Repr

/-- A step the coprocessor may take: R106, R107, R108. `answer` names the message address A of the entry `(8, A)` and
what it writes into words 1, 2, … (`none` leaves a word unchanged, and so does the end of the list: "any value,
possibly unchanged"). -/
inductive CopStep where
  | consume
  | answer (addr : Word) (draws : List (Option Word))
  | unsolicited (w : Word)
  deriving DecidableEq, Repr

/-- One entry of the schedule: whose step comes next. After the last entry every step is the CPU's. `pause` is the
model's own: it is no agent's step, and ends the step of the machine that is running an operation where it stands, so
that the operation goes on in the next step of the machine (notes/assumptions/8.md). -/
inductive Turn where
  | cpu
  | cop (e : CopStep)
  | pause
  deriving DecidableEq, Repr

/-- The state of the machine. -/
structure State where
  /-- The mailbox device (R23, R24). -/
  dev     : Device
  /-- The coprocessor (R31). -/
  cop     : Coprocessor
  /-- Memory: the message buffer (R34), the framebuffer (R39) and the rest (R50). -/
  mem     : Memory
  /-- The property-message builder (R33). -/
  pm      : Builder
  /-- The framebuffer driver (R36, R37). -/
  fb      : Driver
  /-- `S.fault` (R41). -/
  fault   : Option Fault
  /-- `S.refused` (R41). -/
  refused : Option Refusal
  /-- The CPU agent's position inside an operation (R22): what is still to do of it. Empty between operations. -/
  cpu     : List Micro
  /-- The index of the next operation of the caller's sequence (R22). -/
  pos     : Nat
  /-- The caller's sequence of operations (R13, R22); never written. -/
  ops     : List Issue
  /-- The results returned so far, in order (R181). -/
  results : List Result
  /-- The parameters (R8); never written. Model's own field. -/
  cfg     : Config.Params
  /-- The coprocessor's schedule. Model's own field. -/
  sched   : List Turn
  /-- How many STATUS reads have drawn bits 29:0. Model's own field. -/
  drawn   : Nat
  deriving DecidableEq, Repr

/-- The state after reset (R190) with parameters, INITIAL_IN and a caller's sequence and schedule.
`pm.cursor` and the descriptor are unspecified there; they are 0 here (DESIGN CHOICE, notes/assumptions/7.md). -/
def State.launch (cfg : Config.Params) (initialIn : List Word) (ops : List Issue) (sched : List Turn) : State where
  dev     := ⟨[], initialIn⟩
  cop     := ⟨[]⟩
  mem     := ⟨[]⟩
  pm      := ⟨.idle, 0⟩
  fb      := ⟨.uninit, ⟨0, 0, 0, 0, 0, 0⟩⟩
  fault   := none
  refused := none
  cpu     := []
  pos     := 0
  ops     := ops
  results := []
  cfg     := cfg
  sched   := sched
  drawn   := 0

/-- The machine right after reset: R190 with the default parameters, no caller's sequence yet and a coprocessor that
has no step scheduled (notes/assumptions/8.md). -/
def State.reset : State := State.launch Config.defaults Config.initialIn [] []

end Sys2Proof.Machine
end

