-- ==== Sys2Proof/Machine/Ops.lean ====
section
/-! DEFINITION. The named operations every meaning is written over: bytes and words of memory (spec/20_memory.md R50,
R54), updates of one field of the state, the way an operation ends (spec/00_scope.md R12), raising a fault and
refusing (spec/60_exceptions.md R172 to R176), and the words of the message buffer (R11).

TAKING AN EXCEPTION: the block takes none. "There is no trap entry: nothing is saved, no vector is taken, no mode
changes. There is no trap return, no handler and so no nesting" (R177). What ends an operation early is a sticky mark
(R176), set by `raise` and `refuse`, the one shared operation for it. -/

namespace Sys2Proof.Machine

/-! ## Bytes of memory -/

/-- The byte listed at an address. -/
def lookupCell : List Host.Cell → Nat → Option Byte
  | [], _ => none
  | (k, v) :: rest, a => if k = a then some v else lookupCell rest a

/-- Put a byte at an address, in order. -/
def insertCell : List Host.Cell → Nat → Byte → List Host.Cell
  | [], a, b => [(a, b)]
  | (k, v) :: rest, a, b =>
    if a < k then (a, b) :: (k, v) :: rest
    else if a = k then (a, b) :: rest
    else (k, v) :: insertCell rest a b

/-- `MemRead(a, 1)`. A byte nothing has written is any value (R190): the free value `Config.initByte`. -/
def Memory.readByte (m : Memory) (a : Nat) : Byte := (lookupCell m.cells a).getD (Config.initByte a)

/-- `MemWrite(a, 1, b)`. There is no byte at or past 2^32 (R50), so nothing is written there; no CPU access of the block
goes there (R143's check, notes/assumptions/10.md). -/
def Memory.writeByte (m : Memory) (a : Nat) (b : Byte) : Memory :=
  if a < addressSpace then ⟨insertCell m.cells a b⟩ else m

/-- `MemRead(a, 4)`, little-endian (R54). -/
def Memory.readWord (m : Memory) (a : Nat) : Word :=
  wordOfBytes (m.readByte a) (m.readByte (a + 1)) (m.readByte (a + 2)) (m.readByte (a + 3))

/-- `MemWrite(a, 4, v)`, little-endian (R54). -/
def Memory.writeWord (m : Memory) (a : Nat) (v : Word) : Memory :=
  (((m.writeByte a (byteOf v 0)).writeByte (a + 1) (byteOf v 1)).writeByte (a + 2) (byteOf v 2)).writeByte (a + 3)
    (byteOf v 3)

/-! ## One field of the state -/

def State.withOut (s : State) (q : List Word) : State := { s with dev := { s.dev with out := q } }
def State.withIn (s : State) (q : List Word) : State := { s with dev := { s.dev with inq := q } }
def State.withPending (s : State) (p : List Request) : State := { s with cop := ⟨p⟩ }
def State.withMem (s : State) (m : Memory) : State := { s with mem := m }
def State.withPm (s : State) (p : Builder) : State := { s with pm := p }
def State.withFb (s : State) (d : Driver) : State := { s with fb := d }
def State.withCpu (s : State) (c : List Micro) : State := { s with cpu := c }
def State.withSched (s : State) (t : List Turn) : State := { s with sched := t }
def State.withDrawn (s : State) (n : Nat) : State := { s with drawn := n }

/-- Record a fault: "The first fault or refusal of a run sets one of them; no later step clears or overwrites either"
(R41, R176). -/
def State.markFault (s : State) (f : Fault) : State :=
  if s.fault.isSome || s.refused.isSome then s else { s with fault := some f }

/-- Record a refusal (R41, R176). -/
def State.markRefused (s : State) (r : Refusal) : State :=
  if s.fault.isSome || s.refused.isSome then s else { s with refused := some r }

/-- The operation returned `r`: the position moves to the next operation (R22) and the caller reads the result. -/
def State.returned (s : State) (r : Result) : State :=
  { s with cpu := [], pos := s.pos + 1, results := s.results ++ [r] }

/-- The operation was ended by a fault or a refusal: the position moves on (R22), no result is returned. -/
def State.ended (s : State) : State := { s with cpu := [], pos := s.pos + 1 }

/-! ## How an operation, or a part of one, ends (R12) -/

/-- `ok`: it returned a value. `stop`: a fault or a refusal was recorded, with every earlier write done (R175). -/
inductive Res (α : Type) where
  | ok (a : α) (s : State)
  | stop (s : State)
  deriving Repr

/-- One part, then the next: "a composite operation reports the first fault or refusal of its first sub-operation that
has one, in expansion order" (R174). -/
def Res.andThen {α β : Type} (r : Res α) (f : α → State → Res β) : Res β :=
  match r with
  | .ok a s => f a s
  | .stop s => .stop s

/-- `raise Fault(f)` (R11). -/
def raise {α : Type} (f : Fault) (s : State) : Res α := .stop (s.markFault f)

/-- `refuse(r)` (R11). -/
def refuse {α : Type} (r : Refusal) (s : State) : Res α := .stop (s.markRefused r)

/-- What a step answers. -/
abbrev Answer := Host.Outcome State Fault Refusal

/-- The end of an operation that makes one access or none. A fault or a refusal is a mark in the next state (R176). -/
def conclude : Res Result → Answer
  | .ok r s => .next (s.returned r)
  | .stop s => .next s.ended

/-! ## Words of the message buffer -/

/-- The address of `Word(i)`: `MSG_BUF_ADDR + 4*i` (R11). -/
def State.wordAddr (s : State) (i : Nat) : Nat := s.cfg.msgBufAddr.toNat + 4 * i

/-- `Word(i)` (R11). -/
def State.word (s : State) (i : Nat) : Word := s.mem.readWord (s.wordAddr i)

/-- `Word(i) <- v` (R11). -/
def State.setWord (s : State) (i : Nat) (v : Word) : State := s.withMem (s.mem.writeWord (s.wordAddr i) v)

end Sys2Proof.Machine
end

