-- ==== Sys2Proof/Machine/Flags.lean ====
section
/-! DEFINITION. Every flag of the block: FULL and EMPTY, "the block's only condition flags" (spec/10_state.md R25, R28),
and the success flag of a message's response code (R29, spec/30_encoding.md R83). -/

namespace Sys2Proof.Machine

/-- FULL: "1 iff `len(dev.OUT) = MBOX_FIFO_DEPTH`" (R25). -/
def State.full (s : State) : Bool := decide (s.dev.out.length = s.cfg.fifoDepth)

/-- EMPTY: "1 iff `len(dev.IN) = 0`" (R25). -/
def State.empty (s : State) : Bool := s.dev.inq.isEmpty

/-- The coprocessor may append to `dev.IN`: `len(dev.IN) < MBOX_FIFO_DEPTH` (R107, R108). -/
def State.inRoom (s : State) : Bool := decide (s.dev.inq.length < s.cfg.fifoDepth)

/-- A bit of a word as R100 writes it: `(b ? 1 : 0) << k`. -/
def flagBit (b : Bool) (k : Nat) : Word := if b then 1#32 <<< k else 0#32

/-- The value a STATUS read gives (R100). Bits 29:0 are drawn (R25). -/
def State.statusWord (s : State) : Word :=
  flagBit s.full Config.statusFullBit ||| flagBit s.empty Config.statusEmptyBit |||
    (Config.freeStatus s.drawn &&& Config.statusDrawMask)

/-- The verdict on a response code: `success = (Word(1) & 0x80000000) ≠ 0` (R83). -/
def success (code : Word) : Bool := decide (code &&& Config.respSuccessMask ≠ 0#32)

end Sys2Proof.Machine
end

