-- ==== Sys2Proof/Machine/Operands.lean ====
section
/-! DEFINITION. The operand forms: the channel and address of a send and a receive (spec/40_mailbox_transport.md R102 to
R104), the value area of a tag (spec/41_property_codec.md R121), the bus address (spec/42_framebuffer.md R140), pixels
and clipped rectangles (R143, R144), glyphs and their pixels (spec/43_text_raster.md R160, R161). -/

namespace Sys2Proof.Machine

/-- The send side's verdict on a channel: > 8 is REF_CHANNEL, 0..7 REF_CHANNEL_UNMODELLED (R102, R103, D6). -/
def sendChannelRefusal (channel : Word) : Option Refusal :=
  if Config.chanMax < channel.toNat then some .channel
  else if channel ≠ Config.propertyChannel then some .channelUnmodelled
  else none

/-- The receive side's verdict on a channel: > 8 is REF_CHANNEL; 0..7 are admitted (R104, D6). -/
def receiveChannelRefusal (channel : Word) : Option Refusal :=
  if Config.chanMax < channel.toNat then some .channel else none

/-- `address & 0xF = 0` (R56, R103). -/
def aligned16 (address : Word) : Bool := decide (address &&& 0xF#32 = 0#32)

/-- The value words of a tag on send: the request words, then zero fill to `n` words (R79, R121). -/
def valueWords (n : Nat) (req : List Word) : List Word := req ++ List.replicate (n - req.length) 0#32

/-- Bus-to-CPU translation: `bus & 0x3FFFFFFF` (R52, R140). -/
def busToCpu (bus : Word) : Word := bus &&& Config.busAliasMask

/-- `0 ≤ x < W and 0 ≤ y < H` (R143). -/
def Descriptor.contains (d : Descriptor) (x y : Int) : Bool :=
  decide (0 ≤ x ∧ x < (d.width.toNat : Int) ∧ 0 ≤ y ∧ y < (d.height.toNat : Int))

/-- The byte offset of an in-bounds pixel: `y*P + x*(D/8)`, exact, with no 32-bit wrap (R143, D46). -/
def Descriptor.offset (d : Descriptor) (x y : Int) : Nat :=
  y.toNat * d.pitch.toNat + x.toNat * (d.depth.toNat / 8)

/-- The four bytes at an offset are not in the allocated region, or pass 2^32 (R143, D28). -/
def Descriptor.outside (d : Descriptor) (off : Nat) : Bool :=
  decide (off + 4 > d.size.toNat ∨ d.buffer.toNat + off + 4 > addressSpace)

/-- The pixels of `for j in y0..y1: for i in x0..x1`, in that order (R11, R144, D30). -/
def rectPixels (x0 x1 y0 y1 : Int) (color : Color) : List Pixel :=
  (List.range (y1 - y0).toNat).flatMap fun (j : Nat) =>
    (List.range (x1 - x0).toNat).map fun (i : Nat) => ⟨x0 + (i : Int), y0 + (j : Int), color⟩

/-- `Glyph(ch)`: `FONT[ch - 32]` for 32..126, FALLBACK_GLYPH otherwise (R89, R160). -/
def glyphOf (p : Config.Params) (ch : Byte) : Glyph :=
  if Config.glyphFirst ≤ ch.toNat ∧ ch.toNat ≤ Config.glyphLast then
    (p.font[ch.toNat - Config.glyphFirst]?).getD p.fallback
  else p.fallback

/-- Column `c` of a glyph row is bit `7 - c`, the MSB the leftmost column (R90). -/
def glyphBit (row : Byte) (c : Nat) : Bool := row.getLsbD (7 - c)

/-- The 64 pixels of a character, rows top first, columns left first; every cell is painted (R161). -/
def charPixels (g : Glyph) (x y : Int) (fg bg : Color) : List Pixel :=
  (List.range Config.glyphH).flatMap fun (r : Nat) =>
    (List.range Config.glyphW).map fun (c : Nat) =>
      ⟨x + (c : Int), y + (r : Int), if glyphBit (g.toList.getD r 0#8) c then fg else bg⟩

/-- Where `\n` puts the horizontal cursor (R162, D33). -/
def newlineX (p : Config.Params) (x : Int) : Int :=
  match p.nlReset with
  | .origin => x
  | .zero => 0

end Sys2Proof.Machine
end

