-- ==== Sys2Proof/Machine/Coprocessor.lean ====
section
/-! DEFINITION. The coprocessor's steps (spec/40_mailbox_transport.md R106 to R108). Each is a liberty ("may"): when its
condition does not hold the coprocessor does nothing. -/

namespace Sys2Proof.Machine

/-- R106: take the head word of `dev.OUT` into `cop.PENDING`. -/
def copConsume (s : State) : State :=
  match s.dev.out with
  | [] => s
  | w :: rest => (s.withOut rest).withPending (s.cop.pending ++ [⟨chanOf w, addrOf w⟩])

/-- R107's loop: word `i` of the message at `a` is drawn for i from `i` up while it is below `n`; a `none` leaves the word. -/
def rewriteMessage (a n : Nat) : (i : Nat) → List (Option Word) → Memory → Memory
  | _, [], m => m
  | i, d :: ds, m =>
    let m' := if i < n then (match d with | some v => m.writeWord (a + 4 * i) v | none => m) else m
    rewriteMessage a n (i + 1) ds m'

/-- R107: answer the entry `(8, A)`: rewrite words 1 .. ceil_div(size, 4) - 1, drop the entry, put `A | 8` on `dev.IN`.
Word 0 gives the size. `A` is whatever address was sent: where the message's bytes are those of a mailbox register, they
are plain memory here, and no register is accessed (DESIGN CHOICE, notes/assumptions/18.md). -/
def copAnswer (addr : Word) (draws : List (Option Word)) (s : State) : State :=
  if ⟨Config.propertyChannel, addr⟩ ∈ s.cop.pending ∧ s.inRoom then
    let size := s.mem.readWord addr.toNat
    let m := rewriteMessage addr.toNat (ceilDiv4 size.toNat) 1 draws s.mem
    ((s.withMem m).withPending (s.cop.pending.erase ⟨Config.propertyChannel, addr⟩)).withIn
      (s.dev.inq ++ [addr ||| Config.propertyChannel])
  else s

/-- R108: put an unsolicited word on `dev.IN`; never one of channel 8. -/
def copUnsolicited (w : Word) (s : State) : State :=
  if chanOf w ≠ Config.propertyChannel ∧ s.inRoom then s.withIn (s.dev.inq ++ [w]) else s

/-- One step of the coprocessor. -/
def copStep (e : CopStep) (s : State) : State :=
  match e with
  | .consume => copConsume s
  | .answer addr draws => copAnswer addr draws s
  | .unsolicited w => copUnsolicited w s

end Sys2Proof.Machine
end

