-- ==== Sys2Proof/Machine/Registers.lean ====
section
/-! DEFINITION. The three register accesses (spec/40_mailbox_transport.md R100 to R102), the raw accesses at a register's
offset (spec/30_encoding.md R72, spec/20_memory.md R57) and the tests of the status bits (spec/10_state.md R25, R28). -/

namespace Sys2Proof.Machine

/-! ## The accesses -/

/-- `MmioRead32(OFF_STATUS)` (R100): the value is computed from the queues, and bits 29:0 are the next draw. -/
def readStatus (s : State) : Res Word := .ok s.statusWord (s.withDrawn (s.drawn + 1))

/-- `MmioRead32(OFF_READ)` (R101): removes the head of `dev.IN`. -/
def readRead (s : State) : Res Word :=
  match s.dev.inq with
  | [] => refuse .readEmpty s
  | w :: rest => .ok w (s.withIn rest)

/-- `MmioWrite32(OFF_WRITE, v)` (R102): the channel checks, then FULL, then the append. -/
def writeWrite (v : Word) (s : State) : Res Unit :=
  match sendChannelRefusal (chanOf v) with
  | some r => refuse r s
  | none => if s.full then refuse .writeFull s else .ok () (s.withOut (s.dev.out ++ [v]))

/-- A value read is the operation's result. -/
def wordResult (r : Res Word) : Res Result := r.andThen fun w s => .ok (.word w) s

/-- A register write has no result. -/
def noResult (r : Res Unit) : Res Result := r.andThen fun _ s => .ok .none s

/-! ## Meanings -/

/-- MMIO_RD_STATUS (R100). -/
def execMmioRdStatus (s : State) : Answer := conclude (wordResult (readStatus s))

/-- MMIO_RD_READ (R101). -/
def execMmioRdRead (s : State) : Answer := conclude (wordResult (readRead s))

/-- MMIO_WR_WRITE (R102). -/
def execMmioWrWrite (v : Word) (s : State) : Answer := conclude (noResult (writeWrite v s))

/-- REG_READ: a raw access at OFF_READ. Only the 32-bit read is one of R100 to R102 (R26, R57, R173 REF_MMIO_OTHER). -/
def execRegRead (access : RawAccess) (s : State) : Answer :=
  match access with
  | .read bits => if bits = 32 then conclude (wordResult (readRead s)) else conclude (refuse .mmioOther s)
  | .write _ _ => conclude (refuse .mmioOther s)

/-- REG_STATUS: a raw access at OFF_STATUS. Only the 32-bit read is admitted (R25: "Writes to STATUS are refused"). -/
def execRegStatus (access : RawAccess) (s : State) : Answer :=
  match access with
  | .read bits => if bits = 32 then conclude (wordResult (readStatus s)) else conclude (refuse .mmioOther s)
  | .write _ _ => conclude (refuse .mmioOther s)

/-- REG_WRITE: a raw access at OFF_WRITE. Only the 32-bit write is admitted (R27: "A read of WRITE is refused"). -/
def execRegWrite (access : RawAccess) (s : State) : Answer :=
  match access with
  | .write bits v =>
    if bits = 32 then conclude (noResult (writeWrite (BitVec.ofNat 32 v) s)) else conclude (refuse .mmioOther s)
  | .read _ => conclude (refuse .mmioOther s)

/-- STATUS_FULL: read STATUS and test bit 31 (R25; the poll of R103). The result says whether FULL is set. -/
def execStatusFull (s : State) : Answer :=
  conclude ((readStatus s).andThen fun w s => .ok (.flag (w.getLsbD Config.statusFullBit)) s)

/-- STATUS_EMPTY: read STATUS and test bit 30 (R25; the poll of R104). The result says whether EMPTY is set. -/
def execStatusEmpty (s : State) : Answer :=
  conclude ((readStatus s).andThen fun w s => .ok (.flag (w.getLsbD Config.statusEmptyBit)) s)

end Sys2Proof.Machine
end

