-- ==== Sys2Proof/Machine/MailboxWords.lean ====
section
/-! DEFINITION. The mailbox words by channel (spec/30_encoding.md R73 to R77, R85): a word of the transport crosses the
mailbox. Towards the coprocessor it is the CPU's write of the word to WRITE (R102), with R102's verdict on its channel.
Towards the CPU it is the coprocessor's step that puts the word on `dev.IN`: R108 for a channel other than 8, the answer
of the pending entry (8, ADDR) (R107) for channel 8. That a table row of a wire format is executed so is a DESIGN CHOICE
(notes/assumptions/1.md). -/

namespace Sys2Proof.Machine

/-- The word with fields ADDR and CHAN crosses the mailbox. -/
def mailboxWord (chan : BitVec 4) (move : WordMove) (addr : BitVec 28) (s : State) : Res Result :=
  match move with
  | .toCop => noResult (writeWrite (wordOfFields addr chan) s)
  | .toCpu draws =>
    if chan = 8#4 then .ok .none (copStep (.answer (wordOfFields addr 0#4) draws) s)
    else .ok .none (copStep (.unsolicited (wordOfFields addr chan)) s)

/-- MBOX_WORD_CH0: a word of channel 0, in the valid range 0–8, refused on the send side (D6) (R77). -/
def execMboxWordCh0 (move : WordMove) (addr : BitVec 28) (s : State) : Answer :=
  conclude (mailboxWord 0#4 move addr s)

/-- MBOX_WORD_CH1: a word of channel 1, in the valid range 0–8, refused on the send side (D6) (R77). -/
def execMboxWordCh1 (move : WordMove) (addr : BitVec 28) (s : State) : Answer :=
  conclude (mailboxWord 1#4 move addr s)

/-- MBOX_WORD_CH2: a word of channel 2, in the valid range 0–8, refused on the send side (D6) (R77). -/
def execMboxWordCh2 (move : WordMove) (addr : BitVec 28) (s : State) : Answer :=
  conclude (mailboxWord 2#4 move addr s)

/-- MBOX_WORD_CH3: a word of channel 3, in the valid range 0–8, refused on the send side (D6) (R77). -/
def execMboxWordCh3 (move : WordMove) (addr : BitVec 28) (s : State) : Answer :=
  conclude (mailboxWord 3#4 move addr s)

/-- MBOX_WORD_CH4: a word of channel 4, in the valid range 0–8, refused on the send side (D6) (R77). -/
def execMboxWordCh4 (move : WordMove) (addr : BitVec 28) (s : State) : Answer :=
  conclude (mailboxWord 4#4 move addr s)

/-- MBOX_WORD_CH5: a word of channel 5, in the valid range 0–8, refused on the send side (D6) (R77). -/
def execMboxWordCh5 (move : WordMove) (addr : BitVec 28) (s : State) : Answer :=
  conclude (mailboxWord 5#4 move addr s)

/-- MBOX_WORD_CH6: a word of channel 6, in the valid range 0–8, refused on the send side (D6) (R77). -/
def execMboxWordCh6 (move : WordMove) (addr : BitVec 28) (s : State) : Answer :=
  conclude (mailboxWord 6#4 move addr s)

/-- MBOX_WORD_CH7: a word of channel 7, in the valid range 0–8, refused on the send side (D6) (R77). -/
def execMboxWordCh7 (move : WordMove) (addr : BitVec 28) (s : State) : Answer :=
  conclude (mailboxWord 7#4 move addr s)

/-- MBOX_WORD_CH8: a word of channel 8, the property channel, "the only channel the block sends on" (R77). -/
def execMboxWordCh8 (move : WordMove) (addr : BitVec 28) (s : State) : Answer :=
  conclude (mailboxWord 8#4 move addr s)

/-- MBOX_WORD_CH9: a word of channel 9, outside the valid range, refused on the send side (D6, R85) (R77). -/
def execMboxWordCh9 (move : WordMove) (addr : BitVec 28) (s : State) : Answer :=
  conclude (mailboxWord 9#4 move addr s)

/-- MBOX_WORD_CH10: a word of channel 10, outside the valid range, refused on the send side (D6, R85) (R77). -/
def execMboxWordCh10 (move : WordMove) (addr : BitVec 28) (s : State) : Answer :=
  conclude (mailboxWord 10#4 move addr s)

/-- MBOX_WORD_CH11: a word of channel 11, outside the valid range, refused on the send side (D6, R85) (R77). -/
def execMboxWordCh11 (move : WordMove) (addr : BitVec 28) (s : State) : Answer :=
  conclude (mailboxWord 11#4 move addr s)

/-- MBOX_WORD_CH12: a word of channel 12, outside the valid range, refused on the send side (D6, R85) (R77). -/
def execMboxWordCh12 (move : WordMove) (addr : BitVec 28) (s : State) : Answer :=
  conclude (mailboxWord 12#4 move addr s)

/-- MBOX_WORD_CH13: a word of channel 13, outside the valid range, refused on the send side (D6, R85) (R77). -/
def execMboxWordCh13 (move : WordMove) (addr : BitVec 28) (s : State) : Answer :=
  conclude (mailboxWord 13#4 move addr s)

/-- MBOX_WORD_CH14: a word of channel 14, outside the valid range, refused on the send side (D6, R85) (R77). -/
def execMboxWordCh14 (move : WordMove) (addr : BitVec 28) (s : State) : Answer :=
  conclude (mailboxWord 14#4 move addr s)

/-- MBOX_WORD_CH15: a word of channel 15, outside the valid range, refused on the send side (D6, R85) (R77). -/
def execMboxWordCh15 (move : WordMove) (addr : BitVec 28) (s : State) : Answer :=
  conclude (mailboxWord 15#4 move addr s)

end Sys2Proof.Machine
end

