-- ==== Sys2Proof/Machine/Work.lean ====
section
/-! DEFINITION. What the CPU does inside an operation (spec/10_state.md R22), one piece of work at a time: the checks an
operation makes when its piece comes (spec/60_exceptions.md R174), the pieces it then has still to do, and `cpuTick`,
one step of the CPU: at most one access to memory or a register (spec/20_memory.md R58, R60), so that a step of the
coprocessor can come between any two (spec/40_mailbox_transport.md section 3). -/

namespace Sys2Proof.Machine

/-! ## Checks and the work that follows them -/

/-- `send` (R103): the checks of the channel, then of the alignment; then the poll loop and the write. -/
def sendWork (channel address : Word) (s : State) : Res (List Micro) :=
  match sendChannelRefusal channel with
  | some r => refuse r s
  | none => if aligned16 address then .ok [.pollFull channel address] s else raise (.misalignedMboxAddr address) s

/-- `call` (R105): `send`, `receive` with its result unused, the success test. -/
def callWork (channel buffer : Word) (task : Task) (s : State) : Res (List Micro) :=
  (sendWork channel buffer s).andThen fun ms s => .ok (ms ++ [.pollEmpty channel .drop, .verify buffer task]) s

/-- The property `call` (R123): "delegates to MailboxTransport.call using the buffer's own address". -/
def pmCallWork (channel : Word) (task : Task) (s : State) : Res (List Micro) :=
  if s.pm.phase ≠ .finished then refuse .pmPhase s else callWork channel s.cfg.msgBufAddr task s

/-- `Word(i) <- v0`, `Word(i+1) <- v1`, …, one after another. -/
def wordWrites : (i : Nat) → List Word → List Micro
  | _, [] => []
  | i, v :: vs => .word i v :: wordWrites (i + 1) vs

/-- `begin()` (R120): admitted in every phase. -/
def beginWork : List Micro := [.word 1 0#32, .builder ⟨.building, 2⟩]

/-- `add_tag(tag_id, vbuf, req)` (R121), its checks in R121's order, then the words of the block and the cursor. -/
def addTagWork (tagId vbuf : Word) (req : List Word) (s : State) : Res (List Micro) :=
  let n := ceilDiv4 vbuf.toNat
  let t := s.pm.cursor
  if s.pm.phase ≠ .building then refuse .pmPhase s
  else if tagId = Config.tagEnd then refuse .tagZero s
  else if n < req.length then refuse .reqTooLong s
  else if s.cfg.msgCapWords < t + 3 + n then raise (.msgOverflow t (3 + n)) s
  else .ok (wordWrites t (tagId :: vbuf :: 0#32 :: valueWords n req) ++ [.builder ⟨.building, t + 3 + n⟩]) s

/-- The word index of the value area that `add_tag` returns (R121). -/
def State.valueOffset (s : State) : Nat := s.pm.cursor + 3

/-- A row of the tag table with its request words. -/
def addRowWork (row : Config.TagRow) (req : List Word) (s : State) : Res (List Micro) := addTagWork row.id row.vbuf req s

/-- `finish()` (R122): its checks, then the END word and the cursor, then the size in bytes into word 0 and the phase. -/
def finishWork (s : State) : Res (List Micro) :=
  let t := s.pm.cursor
  if s.pm.phase ≠ .building then refuse .pmPhase s
  else if s.cfg.msgCapWords < t + 1 then raise (.msgOverflow t 1) s
  else
    .ok [.word t Config.tagEnd, .builder ⟨.building, t + 1⟩, .word 0 (BitVec.ofNat 32 (4 * (t + 1))),
         .builder ⟨.finished, t + 1⟩] s

/-- `put_pixel` after the checks of the driver (R143): out of bounds nothing; out of the region a fault before any byte;
else the four byte writes b, g, r, a at offsets 0, 1, 2, 3 (R87, D29). -/
def pixelWork (p : Pixel) (s : State) : Res (List Micro) :=
  let d := s.fb.desc
  if d.contains p.x p.y then
    let off := d.offset p.x p.y
    let a := d.buffer.toNat + off
    if d.outside off then raise (.fbOutOfRegion p.x p.y off) s
    else .ok [.byte a p.color.b, .byte (a + 1) p.color.g, .byte (a + 2) p.color.r, .byte (a + 3) p.color.a] s
  else .ok [] s

/-! ## The CPU's step inside an operation -/

/-- What has still to be done of the operation the CPU is in. What makes no access is done at once: the builder's record,
the return, an empty loop. -/
def settle : List Micro → State → State
  | [], s => s.returned .none
  | .builder p :: ms, s => settle ms (s.withPm p)
  | .pixels [] :: ms, s => settle ms s
  | .text _ _ _ [] _ _ :: ms, s => settle ms s
  | .ret r :: _, s => s.returned r
  | m :: ms, s => s.withCpu (m :: ms)

/-- Enter work whose checks have been made, ahead of the rest; a check that failed ends the operation (R174, R175). -/
def enter (r : Res (List Micro)) (rest : List Micro) : State :=
  match r with
  | .stop s => s.ended
  | .ok ms s => settle (ms ++ rest) s

/-- The success test, `(MemRead(buffer + 4, 4) & 0x80000000) ≠ 0` (R105), and what it decides: the result of `call`; for
the property `call` the message is consumed too (R123: the phase is IDLE); `initialize` returns false on failure and
goes on to its read-backs on success (R141). The code word is plain memory wherever `buffer` is, at a mailbox register's
address too (DESIGN CHOICE, notes/assumptions/18.md). -/
def afterVerify (buffer : Word) (task : Task) (s : State) : State :=
  let ok : Bool := success (s.mem.readWord (buffer.toNat + 4))
  match task with
  | .call => s.returned (.flag ok)
  | .pmCall => (s.withPm ⟨.idle, s.pm.cursor⟩).returned (.flag ok)
  | .fbInit width height depth oA oP =>
    let s' := s.withPm ⟨.idle, s.pm.cursor⟩
    if ok then s'.withCpu [.readBus width height depth oA oP] else s'.returned (.flag false)

/-- The end of `initialize` (R141): a zero bus address (before the mask, D22) is a failure; otherwise the descriptor is
filled with the requested width, height and depth (D23), the pitch, the translated address and the size. -/
def endInit (width height depth bus size pitch : Word) (s : State) : State :=
  if bus = 0#32 then s.returned (.flag false)
  else (s.withFb ⟨.ready, ⟨width, height, pitch, depth, busToCpu bus, size⟩⟩).returned (.flag true)

/-- The next character of a text (R162): a newline moves the cursor down and to the line's start, any other character is
drawn (R161) and moves the cursor right. -/
def textWork (x : Int) (fg bg : Color) (ch : Byte) (rest : List Byte) (cx cy : Int) (s : State) : List Micro :=
  if ch = Config.newline then
    [.text x fg bg rest (newlineX s.cfg x) (cy + ((Config.glyphH + Config.lineSpacing : Nat) : Int))]
  else
    [.pixels (charPixels (glyphOf s.cfg ch) cx cy fg bg), .text x fg bg rest (cx + (Config.glyphW : Int)) cy]

/-- One CPU step of a piece of work, with the pieces after it. -/
def doMicro (m : Micro) (ms : List Micro) (s : State) : State :=
  match m with
  | .word i v => settle ms (s.setWord i v)
  | .builder p => settle ms (s.withPm p)
  | .addTag id vbuf req => enter (addTagWork id vbuf req s) ms
  | .allocTag width height depth =>
    enter (addRowWork Config.tagAllocateBuffer [Config.allocAlign] s) (.pitchTag width height depth s.valueOffset :: ms)
  | .pitchTag width height depth oA =>
    enter (addRowWork Config.tagGetPitch [] s)
      (.finish :: .propertyCall Config.propertyChannel (.fbInit width height depth oA s.valueOffset) :: ms)
  | .finish => enter (finishWork s) ms
  | .propertyCall channel task => enter (pmCallWork channel task s) ms
  | .pollFull channel address =>
    if s.full then s else settle ms (s.withOut (s.dev.out ++ [assemble address channel]))
  | .pollEmpty channel use =>
    match s.dev.inq with
    | [] => s
    | w :: rest =>
      if chanOf w = channel then
        match use with
        | .result => (s.withIn rest).returned (.word (addrOf w))
        | .drop => settle ms (s.withIn rest)
      else s.withIn rest
  | .verify buffer task => afterVerify buffer task s
  | .readBus width height depth oA oP => s.withCpu [.readSize width height depth (s.word oA) oA oP]
  | .readSize width height depth bus oA oP => s.withCpu [.readPitch width height depth bus (s.word (oA + 1)) oP]
  | .readPitch width height depth bus size oP => endInit width height depth bus size (s.word oP) s
  | .pixels [] => settle ms s
  | .pixels (p :: ps) => enter (pixelWork p s) (.pixels ps :: ms)
  | .byte a b => settle ms (s.withMem (s.mem.writeByte a b))
  | .text _ _ _ [] _ _ => settle ms s
  | .text x fg bg (ch :: text) cx cy => settle (textWork x fg bg ch text cx cy s ++ ms) s
  | .ret r => s.returned r

/-- One CPU step inside an operation. Between operations there is nothing to do. A poll whose flag is set changes nothing:
the CPU spins (R110, R111). -/
def cpuTick (s : State) : State :=
  match s.cpu with
  | [] => s
  | m :: ms => doMicro m ms s

end Sys2Proof.Machine
end

