-- ==== Sys2Proof/Machine/Run.lean ====
section
/-! DEFINITION. Running an operation under the schedule (spec/00_scope.md R13): the coprocessor's steps "may be scheduled
between any two CPU steps, including between two polls of a busy-wait" (spec/40_mailbox_transport.md section 3).

`launch` begins an operation and goes on with it as long as the schedule says whose step is next. It stops when the
operation has returned, faulted or been refused, and leaves the rest of the schedule for later; or when the schedule
says `pause`; or when the schedule has ended and the CPU, going on alone, waits for a coprocessor that takes no further
step: its position is then not advanced (R22). There is no timeout (R111). -/

namespace Sys2Proof.Machine

/-- A bound on the CPU steps a piece of work takes without the coprocessor, the discarding of words apart. -/
def Micro.cost : Micro → Nat
  | .word _ _ | .builder _ | .byte _ _ | .ret _ | .pollFull _ _ | .pollEmpty _ _ => 1
  | .readPitch _ _ _ _ _ _ => 1
  | .readSize _ _ _ _ _ _ => 2
  | .readBus _ _ _ _ _ => 3
  | .verify _ _ => 4
  | .propertyCall _ _ => 7
  | .finish => 5
  | .pitchTag _ _ _ _ => 18
  | .allocTag _ _ _ => 25
  | .addTag _ vbuf _ => ceilDiv4 vbuf.toNat + 5
  | .pixels ps => 5 * ps.length + 1
  | .text _ _ _ t _ _ => 323 * t.length + 1

/-- A bound on the CPU steps that change anything when the coprocessor takes none: the work, and one step for each word
that `receive` takes from `dev.IN`. -/
def State.fuel (s : State) : Nat := (s.cpu.map Micro.cost).sum + s.dev.inq.length

/-- `n` CPU steps inside an operation. -/
def cpuTicks : (n : Nat) → State → State
  | 0, s => s
  | n + 1, s => cpuTicks n (cpuTick s)

/-- The CPU goes on by itself as far as it can. -/
def alone (s : State) : State := cpuTicks s.fuel s

/-- Run the operation the CPU is in under the schedule `ts`. -/
def drive : List Turn → State → State
  | [], s => alone (s.withSched [])
  | t :: ts, s =>
    if s.cpu.isEmpty then s.withSched (t :: ts)
    else
      match t with
      | .cpu => drive ts (cpuTick s)
      | .cop e => drive ts (copStep e s)
      | .pause => s.withSched ts

/-- Begin an operation: its checks have been made (or one of them has failed); what is to do is done under the schedule. -/
def launch (r : Res (List Micro)) : Answer :=
  let s := enter r []
  .next (drive s.sched s)

/-- Work that ends with a result. -/
def Res.returning (r : Res (List Micro)) (result : Result) : Res (List Micro) :=
  r.andThen fun ms s => .ok (ms ++ [.ret result]) s

end Sys2Proof.Machine
end

