-- ==== Sys2Proof/Machine/Transport.lean ====
section
/-! DEFINITION. The transport operations `send`, `receive` and `call` (spec/40_mailbox_transport.md R103 to R105). The
checks are made when the operation begins; the busy-waits are R110's form, "replace each poll loop by `hold until FULL =
0` (resp. `hold until EMPTY = 0`) followed by the access in one atomic CPU step" (`doMicro`, `pollFull` and
`pollEmpty`). -/

namespace Sys2Proof.Machine

/-- MB_SEND (R103). -/
def execMbSend (channel address : Word) (s : State) : Answer := launch ((sendWork channel address s).returning .none)

/-- `receive` (R104): the check of the channel, then the discard loop. -/
def receiveWork (channel : Word) (s : State) : Res (List Micro) :=
  match receiveChannelRefusal channel with
  | some r => refuse r s
  | none => .ok [.pollEmpty channel .result] s

/-- MB_RECEIVE (R104). -/
def execMbReceive (channel : Word) (s : State) : Answer := launch (receiveWork channel s)

/-- MB_CALL (R105). -/
def execMbCall (channel buffer : Word) (s : State) : Answer := launch (callWork channel buffer .call s)

end Sys2Proof.Machine
end

