-- ==== Sys2Proof/Machine/Codec.lean ====
section
/-! DEFINITION. The property-message codec (spec/41_property_codec.md R120 to R124), the tags of spec/30_encoding.md R82
and the response codes of R83. The work of `begin`, `add_tag`, `finish` and the property `call` is in
Sys2Proof/Machine/Work.lean, where `initialize` takes it from too.

A tag row of opcode_table.json is the block of that tag, with the table's identifier and value-buffer size, appended to
the message being built (R121); TAG_END is the END word, which only `finish` writes (R122). A response-code row is the
test of the message's code word by the row's mask and match. That the rows are executed so is a DESIGN CHOICE
(notes/assumptions/1.md). -/

namespace Sys2Proof.Machine

/-! ## Shared forms -/

/-- `add_tag`, returning the word index of the value area (R121). -/
def addTag (tagId vbuf : Word) (req : List Word) (s : State) : Answer :=
  launch ((addTagWork tagId vbuf req s).returning (.offset s.valueOffset))

/-- A row of the tag table with its request words (R82). -/
def addRow (row : Config.TagRow) (req : List Word) (s : State) : Answer := addTag row.id row.vbuf req s

/-- `Word(index)` of the buffer (R124). -/
def readIndex (index : Nat) (s : State) : Res Word :=
  if s.cfg.msgCapWords ≤ index then refuse .pmIndex s else .ok (s.word index) s

/-- The response of a tag of this row whose value area begins at word `offset` (R82, R124): the decoder a caller applies
to the words it reads back. -/
def State.response (s : State) (row : Config.TagRow) (offset : Nat) : Option (List (Config.Field × FieldValue)) :=
  readResponse row ((List.range (ceilDiv4 row.vbuf.toNat)).map fun (k : Nat) => s.word (offset + k))

/-! ## Meanings: operations -/

/-- PM_BEGIN (R120). -/
def execPmBegin (s : State) : Answer := launch (.ok (beginWork ++ [.ret .none]) s)

/-- PM_ADD_TAG (R121). -/
def execPmAddTag (tagId vbuf : Word) (req : List Word) (s : State) : Answer := addTag tagId vbuf req s

/-- PM_FINISH (R122). -/
def execPmFinish (s : State) : Answer := launch ((finishWork s).returning .none)

/-- PM_CALL (R123). -/
def execPmCall (channel : Word) (s : State) : Answer := launch (pmCallWork channel .pmCall s)

/-- PM_READ (R124). -/
def execPmRead (index : Nat) (s : State) : Answer := conclude (wordResult (readIndex index s))

/-! ## Meanings: tags (R82) -/

/-- TAG_END (R78, R82): the END word that closes the message, written by `finish` (R122). -/
def execTagEnd (s : State) : Answer := launch ((finishWork s).returning .none)

/-- TAG_GET_FIRMWARE_REVISION (R82): its block, request words none. -/
def execTagGetFirmwareRevision (s : State) : Answer := addRow Config.tagGetFirmwareRevision [] s

/-- TAG_GET_BOARD_MODEL (R82): its block, request words none. -/
def execTagGetBoardModel (s : State) : Answer := addRow Config.tagGetBoardModel [] s

/-- TAG_GET_BOARD_REVISION (R82): its block, request words none. -/
def execTagGetBoardRevision (s : State) : Answer := addRow Config.tagGetBoardRevision [] s

/-- TAG_GET_BOARD_MAC_ADDRESS (R82): its block, request words none. -/
def execTagGetBoardMacAddress (s : State) : Answer := addRow Config.tagGetBoardMacAddress [] s

/-- TAG_GET_BOARD_SERIAL (R82): its block, request words none. -/
def execTagGetBoardSerial (s : State) : Answer := addRow Config.tagGetBoardSerial [] s

/-- TAG_GET_ARM_MEMORY (R82): its block, request words none. -/
def execTagGetArmMemory (s : State) : Answer := addRow Config.tagGetArmMemory [] s

/-- TAG_GET_VC_MEMORY (R82): its block, request words none. -/
def execTagGetVcMemory (s : State) : Answer := addRow Config.tagGetVcMemory [] s

/-- TAG_GET_CLOCK_RATE (R82): its block, request words clockId. -/
def execTagGetClockRate (clockId : Word) (s : State) : Answer := addRow Config.tagGetClockRate [clockId] s

/-- TAG_SET_CLOCK_RATE (R82): its block, request words clockId, rate, skipTurbo. -/
def execTagSetClockRate (clockId rate skipTurbo : Word) (s : State) : Answer :=
  addRow Config.tagSetClockRate [clockId, rate, skipTurbo] s

/-- TAG_ALLOCATE_BUFFER (R82): its block, request words alignment. -/
def execTagAllocateBuffer (alignment : Word) (s : State) : Answer := addRow Config.tagAllocateBuffer [alignment] s

/-- TAG_GET_PITCH (R82): its block, request words none. -/
def execTagGetPitch (s : State) : Answer := addRow Config.tagGetPitch [] s

/-- TAG_SET_PHYSICAL_SIZE (R82): its block, request words width, height. -/
def execTagSetPhysicalSize (width height : Word) (s : State) : Answer := addRow Config.tagSetPhysicalSize [width, height] s

/-- TAG_SET_VIRTUAL_SIZE (R82): its block, request words width, height. -/
def execTagSetVirtualSize (width height : Word) (s : State) : Answer := addRow Config.tagSetVirtualSize [width, height] s

/-- TAG_SET_DEPTH (R82): its block, request words depth. -/
def execTagSetDepth (depth : Word) (s : State) : Answer := addRow Config.tagSetDepth [depth] s

/-- TAG_SET_VIRTUAL_OFFSET (R82): its block, request words x, y. -/
def execTagSetVirtualOffset (x y : Word) (s : State) : Answer := addRow Config.tagSetVirtualOffset [x, y] s

/-! ## Meanings: response codes (R83) -/

/-- RESP_SUCCESS: the message's code word (word 1, R29) under mask 0x80000000 is 0x80000000. The result says whether. -/
def execRespSuccess (s : State) : Answer := conclude (.ok (.flag (success (s.word 1))) s)

/-- RESP_FAILURE: the message's code word under mask 0x80000000 is 0. The result says whether. -/
def execRespFailure (s : State) : Answer := conclude (.ok (.flag (!success (s.word 1))) s)

end Sys2Proof.Machine
end

