-- ==== Sys2Proof/Machine/Framebuffer.lean ====
section
/-! DEFINITION. The framebuffer driver: address translation (spec/42_framebuffer.md R140), `initialize` (R141, R142) and
the pixel writer `put_pixel`, `fill_rect`, `clear` (R143 to R145). -/

namespace Sys2Proof.Machine

/-! ## The pixel writer -/

/-- The checks every drawing operation begins with: READY, then depth 32 (R143, R144, R161, R162). -/
def checkDrawable (s : State) : Res Unit :=
  if s.fb.state ≠ .ready then refuse .fbNotReady s
  else if s.fb.desc.depth ≠ Config.fbDepth then refuse .depthUnsupported s
  else .ok () s

/-- The pixel loop over these pixels, after those checks (R144, R161). -/
def paintWork (ps : List Pixel) (s : State) : Res (List Micro) := (checkDrawable s).andThen fun _ s => .ok [.pixels ps] s

/-- A drawing operation has no result. -/
def paint (ps : List Pixel) (s : State) : Answer := launch ((paintWork ps s).returning .none)

/-- `fill_rect` (R144): clipped to the buffer's bounds from both sides. -/
def fillRect (x y w h : Int) (color : Color) (s : State) : Answer :=
  paint
    (rectPixels (max x 0) (min (x + w) (s.fb.desc.width.toNat : Int)) (max y 0)
      (min (y + h) (s.fb.desc.height.toNat : Int)) color) s

/-! ## `initialize` -/

/-- `initialize` (R141): its own checks, then `begin`, six tags, `finish`, the property `call` on channel 8 and the
read-backs (R142, C1). The last two tags, whose offsets the read-backs need, carry the rest with them. -/
def initWork (width height depth : Word) (s : State) : Res (List Micro) :=
  if s.fb.state = .ready then refuse .fbReinit s
  else if s.pm.phase = .building then refuse .pmPhase s
  else
    .ok (beginWork ++
      [.addTag Config.tagSetPhysicalSize.id Config.tagSetPhysicalSize.vbuf [width, height],
       .addTag Config.tagSetVirtualSize.id Config.tagSetVirtualSize.vbuf [width, height],
       .addTag Config.tagSetVirtualOffset.id Config.tagSetVirtualOffset.vbuf [0#32, 0#32],
       .addTag Config.tagSetDepth.id Config.tagSetDepth.vbuf [depth],
       .allocTag width height depth]) s

/-! ## Meanings -/

/-- FB_BUS_TO_CPU (R140). -/
def execFbBusToCpu (bus : Word) (s : State) : Answer := conclude (.ok (.word (busToCpu bus)) s)

/-- FB_INIT (R141). -/
def execFbInit (width height depth : Word) (s : State) : Answer := launch (initWork width height depth s)

/-- FB_PUT_PIXEL (R143). -/
def execFbPutPixel (x y : Int) (color : Color) (s : State) : Answer := paint [⟨x, y, color⟩] s

/-- FB_FILL_RECT (R144). -/
def execFbFillRect (x y w h : Int) (color : Color) (s : State) : Answer := fillRect x y w h color s

/-- FB_CLEAR (R145): `fill_rect` over the full extent. -/
def execFbClear (color : Color) (s : State) : Answer :=
  fillRect 0 0 (s.fb.desc.width.toNat : Int) (s.fb.desc.height.toNat : Int) color s

end Sys2Proof.Machine
end

