-- ==== Sys2Proof/Machine/Text.lean ====
section
/-! DEFINITION. The bitmap-font rasterizer: `draw_char` and `draw_string` (spec/43_text_raster.md R160 to R162). -/

namespace Sys2Proof.Machine

/-- `draw_string` (R162): the 0 byte is refused after the two checks of every drawing operation; then the loop over the
characters, with the cursor at the origin. -/
def drawStringWork (x y : Int) (text : List Byte) (fg bg : Color) (s : State) : Res (List Micro) :=
  (checkDrawable s).andThen fun _ s =>
    if text.contains 0#8 then refuse .textNul s else .ok [.text x fg bg text x y] s

/-- FB_DRAW_CHAR (R161). -/
def execFbDrawChar (x y : Int) (ch : Byte) (fg bg : Color) (s : State) : Answer :=
  paint (charPixels (glyphOf s.cfg ch) x y fg bg) s

/-- FB_DRAW_STRING (R162). -/
def execFbDrawString (x y : Int) (text : List Byte) (fg bg : Color) (s : State) : Answer :=
  launch ((drawStringWork x y text fg bg s).returning .none)

end Sys2Proof.Machine
end

