-- ==== Sys2Proof/Machine/Dispatch.lean ====
section
/-! DEFINITION. The dispatch: one arm per constructor of Instr, each one direct call of the meaning. -/

namespace Sys2Proof.Machine

def exec (i : Instr) (s : State) : Host.Outcome State Fault Refusal :=
  match i with
  | .mmioRdStatus => Sys2Proof.Machine.execMmioRdStatus s
  | .mmioRdRead => Sys2Proof.Machine.execMmioRdRead s
  | .mmioWrWrite v => Sys2Proof.Machine.execMmioWrWrite v s
  | .mbSend channel address => Sys2Proof.Machine.execMbSend channel address s
  | .mbReceive channel => Sys2Proof.Machine.execMbReceive channel s
  | .mbCall channel buffer => Sys2Proof.Machine.execMbCall channel buffer s
  | .pmBegin => Sys2Proof.Machine.execPmBegin s
  | .pmAddTag tagId vbuf req => Sys2Proof.Machine.execPmAddTag tagId vbuf req s
  | .pmFinish => Sys2Proof.Machine.execPmFinish s
  | .pmCall channel => Sys2Proof.Machine.execPmCall channel s
  | .pmRead index => Sys2Proof.Machine.execPmRead index s
  | .fbBusToCpu bus => Sys2Proof.Machine.execFbBusToCpu bus s
  | .fbInit width height depth => Sys2Proof.Machine.execFbInit width height depth s
  | .fbPutPixel x y color => Sys2Proof.Machine.execFbPutPixel x y color s
  | .fbFillRect x y w h color => Sys2Proof.Machine.execFbFillRect x y w h color s
  | .fbClear color => Sys2Proof.Machine.execFbClear color s
  | .fbDrawChar x y ch fg bg => Sys2Proof.Machine.execFbDrawChar x y ch fg bg s
  | .fbDrawString x y text fg bg => Sys2Proof.Machine.execFbDrawString x y text fg bg s
  | .regRead access => Sys2Proof.Machine.execRegRead access s
  | .regStatus access => Sys2Proof.Machine.execRegStatus access s
  | .regWrite access => Sys2Proof.Machine.execRegWrite access s
  | .statusFull => Sys2Proof.Machine.execStatusFull s
  | .statusEmpty => Sys2Proof.Machine.execStatusEmpty s
  | .mboxWordCh0 move addr => Sys2Proof.Machine.execMboxWordCh0 move addr s
  | .mboxWordCh1 move addr => Sys2Proof.Machine.execMboxWordCh1 move addr s
  | .mboxWordCh2 move addr => Sys2Proof.Machine.execMboxWordCh2 move addr s
  | .mboxWordCh3 move addr => Sys2Proof.Machine.execMboxWordCh3 move addr s
  | .mboxWordCh4 move addr => Sys2Proof.Machine.execMboxWordCh4 move addr s
  | .mboxWordCh5 move addr => Sys2Proof.Machine.execMboxWordCh5 move addr s
  | .mboxWordCh6 move addr => Sys2Proof.Machine.execMboxWordCh6 move addr s
  | .mboxWordCh7 move addr => Sys2Proof.Machine.execMboxWordCh7 move addr s
  | .mboxWordCh8 move addr => Sys2Proof.Machine.execMboxWordCh8 move addr s
  | .mboxWordCh9 move addr => Sys2Proof.Machine.execMboxWordCh9 move addr s
  | .mboxWordCh10 move addr => Sys2Proof.Machine.execMboxWordCh10 move addr s
  | .mboxWordCh11 move addr => Sys2Proof.Machine.execMboxWordCh11 move addr s
  | .mboxWordCh12 move addr => Sys2Proof.Machine.execMboxWordCh12 move addr s
  | .mboxWordCh13 move addr => Sys2Proof.Machine.execMboxWordCh13 move addr s
  | .mboxWordCh14 move addr => Sys2Proof.Machine.execMboxWordCh14 move addr s
  | .mboxWordCh15 move addr => Sys2Proof.Machine.execMboxWordCh15 move addr s
  | .tagEnd => Sys2Proof.Machine.execTagEnd s
  | .tagGetFirmwareRevision => Sys2Proof.Machine.execTagGetFirmwareRevision s
  | .tagGetBoardModel => Sys2Proof.Machine.execTagGetBoardModel s
  | .tagGetBoardRevision => Sys2Proof.Machine.execTagGetBoardRevision s
  | .tagGetBoardMacAddress => Sys2Proof.Machine.execTagGetBoardMacAddress s
  | .tagGetBoardSerial => Sys2Proof.Machine.execTagGetBoardSerial s
  | .tagGetArmMemory => Sys2Proof.Machine.execTagGetArmMemory s
  | .tagGetVcMemory => Sys2Proof.Machine.execTagGetVcMemory s
  | .tagGetClockRate clockId => Sys2Proof.Machine.execTagGetClockRate clockId s
  | .tagSetClockRate clockId rate skipTurbo => Sys2Proof.Machine.execTagSetClockRate clockId rate skipTurbo s
  | .tagAllocateBuffer alignment => Sys2Proof.Machine.execTagAllocateBuffer alignment s
  | .tagGetPitch => Sys2Proof.Machine.execTagGetPitch s
  | .tagSetPhysicalSize width height => Sys2Proof.Machine.execTagSetPhysicalSize width height s
  | .tagSetVirtualSize width height => Sys2Proof.Machine.execTagSetVirtualSize width height s
  | .tagSetDepth depth => Sys2Proof.Machine.execTagSetDepth depth s
  | .tagSetVirtualOffset x y => Sys2Proof.Machine.execTagSetVirtualOffset x y s
  | .respSuccess => Sys2Proof.Machine.execRespSuccess s
  | .respFailure => Sys2Proof.Machine.execRespFailure s

end Sys2Proof.Machine
end

