-- ==== Sys2Proof/Machine/Fetch.lean ====
section
/-! DEFINITION. Fetching the next operation of the caller's sequence (spec/10_state.md R22), the CPU agent's step
(spec/60_exceptions.md R176) and placing an item where it is fetched. -/

namespace Sys2Proof.Machine

/-- The refusal of an item that decodes to no instruction: REF_UNKNOWN_OP for a selector (R71), REF_MMIO_OTHER for a
register offset (R72, R173), and the model's own for bytes that are no operands (notes/assumptions/2.md). -/
def decodeRefusal : DecodeError → Refusal
  | .unknownSelector sel => .unknownOp sel
  | .unknownOffset _ => .mmioOther
  | .unknownTag id => .badEncoding (.unknownTag id)
  | .noStatusBit => .badEncoding .noStatusBit
  | .truncated => .badEncoding .truncated
  | .badOperand => .badEncoding .badOperand
  | .trailing => .badEncoding .trailing

/-- The next operation: the item at the position, or none at the end of the caller's sequence. -/
def State.fetch (s : State) : Option Issue := s.ops[s.pos]?

/-- Issue the next operation. At the end of the sequence the CPU has nothing to do (R181). -/
def issue (s : State) : Answer :=
  match s.fetch with
  | none => .next s
  | some item =>
    match decode s.cfg item with
    | .error e => conclude (refuse (decodeRefusal e) s)
    | .ok i => exec i s

/-- The CPU agent's step: none once a fault or a refusal is recorded (R176); inside an operation, its next piece of work;
between operations, the next one. -/
def cpuStep (s : State) : Answer :=
  match s.fault, s.refused with
  | some f, _ => .fault f
  | none, some r => .refused r
  | none, none => if s.cpu.isEmpty then issue s else .next (cpuTick s)

/-- A list with `x` at index `n`; places before it that do not exist are filled with `x`. -/
def placeAt {α : Type} : (n : Nat) → List α → α → List α
  | 0, [], x => [x]
  | 0, _ :: rest, x => x :: rest
  | n + 1, [], x => x :: placeAt n [] x
  | n + 1, y :: rest, x => y :: placeAt n rest x

/-- The schedule with the CPU's step first. -/
def cpuFirst : List Turn → List Turn
  | [] => []
  | .cpu :: rest => .cpu :: rest
  | .cop e :: rest => .cpu :: .cop e :: rest
  | .pause :: rest => .cpu :: .pause :: rest

/-- The state with an item at the position, ready to be issued by the very next step. -/
def State.withIssue (s : State) (item : Issue) : State :=
  { s with ops := placeAt s.pos s.ops item, cpu := [], fault := none, refused := none, sched := cpuFirst s.sched }

end Sys2Proof.Machine
end

