-- ==== Sys2Proof/Machine/Step.lean ====
section
/-! DEFINITION. One step of the machine. The schedule says whose it is (R13, R106 to R108): the coprocessor's, which no
fault or refusal of the CPU's stops (R176), or the CPU's; at a `pause` nobody steps. -/

namespace Sys2Proof.Machine

/-- One step. -/
def step (s : State) : Host.Outcome State Fault Refusal :=
  match s.sched with
  | .cop e :: rest => .next (copStep e (s.withSched rest))
  | .cpu :: rest => cpuStep (s.withSched rest)
  | .pause :: rest => .next (s.withSched rest)
  | [] => cpuStep s

/-- `s` with the item whose low `nbits` bits are `w` where `step` fetches its next operation, and with all that the very
next step needs to run it: the item at the position, a CPU between operations and not stopped, and no coprocessor step
scheduled before it (notes/assumptions/4.md, 8.md). -/
def State.withFetchWord (s : State) (nbits w : Nat) : State :=
  s.withIssue (issueOfTableWord nbits w)

end Sys2Proof.Machine
end

