-- ==== Sys2Proof/Safety.lean ====
section
/-! DEFINITION. What claims about the machine are stated in: a run's normal end, turns one by one, infinite executions
with their fairness, the named premises of the spec (LAUNCH_CLEAN, COPROC_REPLIES, COPROC_FINITE_NOISE, the disjointness
of the regions), the hang, the invariant of the machine, and sequences of several operations. -/

namespace Sys2Proof.Machine

/-! ## Runs -/

/-- No fault and no refusal is recorded (R41, R181). -/
abbrev State.Unmarked (s : State) : Prop := s.fault = none ∧ s.refused = none

/-- R181: "A run *ends* when the CPU has returned from the last operation of the caller's sequence with no fault and no
refusal". -/
abbrev State.NormalEnd (s : State) : Prop := s.Unmarked ∧ s.cpu = [] ∧ s.ops.length ≤ s.pos

/-- The CPU is in a poll loop of R103 or R104. -/
abbrev State.InPoll (s : State) : Prop :=
  (∃ c a ms, s.cpu = .pollFull c a :: ms) ∨ ∃ c use ms, s.cpu = .pollEmpty c use :: ms

/-! ## Turns one by one, and infinite executions (R111, R203) -/

/-- One turn: what `step` does when the schedule holds this turn and then pauses. A stopped CPU has no step (R176). -/
def turnStep (t : Turn) (s : State) : State :=
  match step (s.withSched [t, .pause]) with
  | .next u => u.withSched []
  | .fault _ | .refused _ => s.withSched []

/-- One turn after another. -/
def turns : List Turn → State → State
  | [], s => s
  | t :: ts, s => turns ts (turnStep t s)

/-- An infinite execution from `s`: `σ n` says whose the n-th step is, and with what the coprocessor draws. -/
def execution (σ : Nat → Turn) (s : State) : Nat → State
  | 0 => s
  | n + 1 => turnStep (σ n) (execution σ s n)

/-- "the CPU agent is weakly fair (an enabled CPU step is eventually taken)" (R203). -/
abbrev FairCpu (σ : Nat → Turn) : Prop := ∀ n, ∃ m, n ≤ m ∧ σ m = .cpu

/-- The coprocessor answers the entry `r` by R107 at step `m` of the execution. Only a coprocessor's turn counts: a row
MBOX_WORD_CH8 towards the CPU that the caller's sequence executes takes the entry away as R107 does, and is no answer
here (DESIGN CHOICE, notes/assumptions/17.md). -/
abbrev AnsweredAt (σ : Nat → Turn) (s : State) (m : Nat) (r : Request) : Prop :=
  (∃ draws, σ m = .cop (.answer r.addr draws)) ∧ r ∈ (execution σ s m).cop.pending ∧ (execution σ s m).inRoom = true

/-- COPROC_REPLIES (R109): "every entry `(8, A)` in `cop.PENDING` is eventually answered by rule R107, and the coprocessor
consumes `dev.OUT` whenever it is non-empty". -/
abbrev CoprocReplies (σ : Nat → Turn) (s : State) : Prop :=
  ∀ n,
    (∀ r ∈ (execution σ s n).cop.pending, r.channel = Config.propertyChannel → ∃ m, n ≤ m ∧ AnsweredAt σ s m r) ∧
    ((execution σ s n).dev.out ≠ [] → ∃ m, n ≤ m ∧ σ m = .cop .consume)

/-- COPROC_FINITE_NOISE (R109): "only finitely many rule-R108 steps occur". A step whose condition does not hold does not
occur. As for answers, only a coprocessor's turn counts (DESIGN CHOICE, notes/assumptions/17.md). -/
abbrev CoprocFiniteNoise (σ : Nat → Turn) (s : State) : Prop :=
  ∃ n, ∀ m, n ≤ m → ∀ w, σ m = .cop (.unsolicited w) →
    chanOf w = Config.propertyChannel ∨ (execution σ s m).inRoom = false

/-- A transport hang (R111): "an infinite execution in which the CPU stays in a poll loop of rule R103 or R104 for ever",
although it is not starved of steps (R203). -/
abbrev TransportHang (σ : Nat → Turn) (s : State) : Prop :=
  FairCpu σ ∧ ∃ n, ∀ m, n ≤ m → (execution σ s m).Unmarked ∧ (execution σ s m).InPoll

/-- The coprocessor's steps of a schedule by themselves. -/
def copRun : List Turn → State → State
  | [], s => s
  | .cop e :: ts, s => copRun ts (copStep e s)
  | .cpu :: ts, s => copRun ts s
  | .pause :: ts, s => copRun ts s

/-- No answer of the coprocessor can land in memory under the schedule: none is scheduled, or no request is outstanding. -/
abbrev State.Undisturbed (s : State) : Prop :=
  (∀ a draws, .cop (.answer a draws) ∉ s.sched) ∨ s.dev.out = [] ∧ s.cop.pending = []

/-! ## Several operations -/

/-- Several operations, one after another, while each answers a next state with nothing recorded. -/
def execAll : List Instr → State → Option State
  | [], s => some s
  | i :: is, s =>
    match exec i s with
    | .next t => if t.fault.isSome || t.refused.isSome then none else execAll is t
    | .fault _ | .refused _ => none

/-- `put_pixel` of one pixel after another, up to the first that faults or is refused (R92, R174). -/
def putEach : List Pixel → State → State
  | [], s => s
  | p :: ps, s =>
    match exec (.fbPutPixel p.x p.y p.color) s with
    | .next t => if t.fault.isSome || t.refused.isSome then t else putEach ps t
    | .fault _ | .refused _ => s

/-- The operations that write a buffer or the framebuffer and take nothing from the mailbox: the codec's builder with the
tag rows (R120 to R122, R82) and drawing (R143 to R145, R161, R162). -/
def localOperation : Instr → Bool
  | .pmBegin | .pmAddTag _ _ _ | .pmFinish => true
  | .tagEnd | .tagGetFirmwareRevision | .tagGetBoardModel | .tagGetBoardRevision | .tagGetBoardMacAddress
  | .tagGetBoardSerial | .tagGetArmMemory | .tagGetVcMemory | .tagGetClockRate _ | .tagSetClockRate _ _ _
  | .tagAllocateBuffer _ | .tagGetPitch | .tagSetPhysicalSize _ _ | .tagSetVirtualSize _ _ | .tagSetDepth _
  | .tagSetVirtualOffset _ _ => true
  | .fbPutPixel _ _ _ | .fbFillRect _ _ _ _ _ | .fbClear _ | .fbDrawChar _ _ _ _ _ | .fbDrawString _ _ _ _ _ => true
  | .mmioRdStatus | .mmioRdRead | .mmioWrWrite _ | .mbSend _ _ | .mbReceive _ | .mbCall _ _ | .pmCall _ | .pmRead _
  | .fbBusToCpu _ | .fbInit _ _ _ | .regRead _ | .regStatus _ | .regWrite _ | .statusFull | .statusEmpty
  | .mboxWordCh0 _ _ | .mboxWordCh1 _ _ | .mboxWordCh2 _ _ | .mboxWordCh3 _ _ | .mboxWordCh4 _ _ | .mboxWordCh5 _ _
  | .mboxWordCh6 _ _ | .mboxWordCh7 _ _ | .mboxWordCh8 _ _ | .mboxWordCh9 _ _ | .mboxWordCh10 _ _
  | .mboxWordCh11 _ _ | .mboxWordCh12 _ _ | .mboxWordCh13 _ _ | .mboxWordCh14 _ _ | .mboxWordCh15 _ _
  | .respSuccess | .respFailure => false

/-! ## What claims read -/

/-- The colour in the four bytes of pixel (i, j), storage order B, G, R, A (R87), at byte offset `j*P + 4*i` of the buffer
(R143 at depth 32). -/
def State.pixel (s : State) (i j : Nat) : Color :=
  let a := s.fb.desc.buffer.toNat + (j * s.fb.desc.pitch.toNat + 4 * i)
  ⟨s.mem.readByte (a + 2), s.mem.readByte (a + 1), s.mem.readByte a, s.mem.readByte (a + 3)⟩

/-- Byte address `a` is none of the four bytes of pixel (i, j). -/
abbrev State.offPixel (s : State) (i j a : Nat) : Prop :=
  a < s.fb.desc.buffer.toNat + (j * s.fb.desc.pitch.toNat + 4 * i) ∨
  s.fb.desc.buffer.toNat + (j * s.fb.desc.pitch.toNat + 4 * i) + 4 ≤ a

/-- A tag as the caller gives it to `add_tag`. -/
structure TagRequest where
  id   : Word
  vbuf : Word
  req  : List Word
  deriving DecidableEq, Repr

/-- The value words of a tag: `n = ceil(vbuf / 4)`, the least n with 4 n ≥ vbuf (R79). -/
def TagRequest.valueCount (g : TagRequest) : Nat := (g.vbuf.toNat + 3) / 4

/-- `add_tag` admits the tag in a build (R121): its id is not 0 and its request words fit the value area. -/
abbrev TagRequest.Admitted (g : TagRequest) : Prop := g.id ≠ 0#32 ∧ g.req.length ≤ g.valueCount

/-- The words from the header to the END word of a message with these tags (R126). -/
def messageWords (gs : List TagRequest) : Nat := 2 + (gs.map fun g => 3 + g.valueCount).sum + 1

/-- Where `draw_string` puts each character (R162): the cursor moves 8 right after a character; a newline moves it 10
down and back to `left`. -/
def textLayout (left : Int) : List Byte → (cx cy : Int) → List (Int × Int × Byte)
  | [], _, _ => []
  | ch :: text, cx, cy =>
    if ch = 0x0A#8 then textLayout left text left (cy + 10) else (cx, cy, ch) :: textLayout left text (cx + 8) cy

/-! ## Premises -/

/-- LAUNCH_CLEAN: "the conjunction of the reset values of rule R190 with `INITIAL_IN = []`" (R191). What R190 leaves
unspecified (memory, the cursor, the descriptor) is not constrained. -/
abbrev State.LaunchClean (s : State) : Prop :=
  s.dev.out = [] ∧ s.dev.inq = [] ∧ s.cop.pending = [] ∧ s.pm.phase = .idle ∧ s.fb.state = .uninit ∧
  s.fault = none ∧ s.refused = none

/-- The launch premise of R59 and R192 (D19) once the coprocessor has placed the framebuffer: it has no byte in common with
the message buffer or a register. (That those two are disjoint is in `Config.Params.Wf`.) -/
abbrev State.RegionsDisjoint (s : State) : Prop :=
  (s.fb.desc.buffer.toNat + s.fb.desc.size.toNat ≤ s.cfg.msgBufAddr.toNat ∨
    s.cfg.msgBufAddr.toNat + s.cfg.bufferBytes ≤ s.fb.desc.buffer.toNat) ∧
  ∀ r : Config.Register, s.cfg.ApartFrom r s.fb.desc.buffer.toNat s.fb.desc.size.toNat

/-- The framebuffer region the coprocessor gave holds every in-bounds pixel and lies in the address space: the
condition under which FB_OUT_OF_REGION cannot arise, `(H-1)*P + 4*W ≤ Z` (R143, R201). -/
abbrev Descriptor.Fits (d : Descriptor) : Prop :=
  (d.height.toNat - 1) * d.pitch.toNat + 4 * d.width.toNat ≤ d.size.toNat ∧
  d.buffer.toNat + d.size.toNat ≤ addressSpace

/-- The driver may draw: READY at depth 32 (R143). -/
abbrev State.Drawable (s : State) : Prop := s.fb.state = .ready ∧ s.fb.desc.depth = 32#32

/-! ## The invariant -/

/-- A task of `initialize` runs only while the driver is UNINIT (R141, R146). -/
def Task.Legal (s : State) : Task → Prop
  | .fbInit _ _ _ _ _ => s.fb.state = .uninit
  | .call | .pmCall => True

/-- A piece of work the rules can reach: a send waits only on channel 8 with an aligned address (R103), a receive only on a
channel up to 8 (R104), the builder's cursor stays past the header and in the buffer (R120 to R122), and `initialize`
is under way only while the driver is UNINIT (R141). -/
def Micro.Legal (s : State) : Micro → Prop
  | .pollFull channel address => channel = Config.propertyChannel ∧ address &&& 0xF#32 = 0#32
  | .pollEmpty channel _ => channel.toNat ≤ Config.chanMax
  | .builder p => 2 ≤ p.cursor ∧ p.cursor ≤ s.cfg.msgCapWords
  | .verify _ task | .propertyCall _ task => task.Legal s
  | .allocTag _ _ _ | .pitchTag _ _ _ _ | .readBus _ _ _ _ _ | .readSize _ _ _ _ _ _ | .readPitch _ _ _ _ _ _ =>
    s.fb.state = .uninit
  | .word _ _ | .addTag _ _ _ | .finish | .pixels _ | .byte _ _ | .text _ _ _ _ _ _ | .ret _ => True

/-- The invariant of the machine. -/
structure State.Inv (s : State) : Prop where
  /-- The parameters meet R8's constraints. -/
  params   : s.cfg.Wf
  /-- Memory is in its canonical form. -/
  memory   : s.mem.wf
  /-- "of length at most `MBOX_FIFO_DEPTH`" (R23). -/
  outBound : s.dev.out.length ≤ s.cfg.fifoDepth
  /-- "of length at most `MBOX_FIFO_DEPTH`" (R24). -/
  inBound  : s.dev.inq.length ≤ s.cfg.fifoDepth
  /-- Only channel-8 words are sent (R102, R103, D6). -/
  outWords : ∀ w ∈ s.dev.out, chanOf w = Config.propertyChannel
  /-- So every request is a property request at a 16-byte-aligned address (R106). -/
  requests : ∀ r ∈ s.cop.pending, r.channel = Config.propertyChannel ∧ r.addr &&& 0xF#32 = 0#32
  /-- In a build the cursor is past the two header words and in the buffer (R33, R120 to R122). -/
  cursor   : s.pm.phase ≠ .idle → 2 ≤ s.pm.cursor ∧ s.pm.cursor ≤ s.cfg.msgCapWords
  /-- A ready driver's buffer has its alias bits cleared (R52, R141). -/
  buffer   : s.fb.state = .ready → s.fb.desc.buffer.toNat < 2 ^ 30
  /-- "The first fault or refusal of a run sets one of them" (R41). -/
  oneMark  : s.fault = none ∨ s.refused = none
  /-- The CPU's position is one the rules reach. -/
  position : ∀ m ∈ s.cpu, m.Legal s

end Sys2Proof.Machine
end

