-- ==== Sys2Proof/Certificates/Slice0/Obligations.lean ====
section
/-! DEFINITION. The statements for the provers. Each cites the rule of spec/ it formalises. Where a statement fixes the
schedule, it says what the coprocessor does while the operation runs; where it does not, it holds for every schedule.
With `s.sched = []` the coprocessor takes no step meanwhile; BuffersAreWrittenBesideTheCoprocessor carries such a
statement about the builder or about drawing over to every schedule. The frame of a statement stands in it as a record
update: a field that the update does not name is unchanged. Where a statement about a request speaks of a message that
lies over a mailbox register, its bytes are plain memory by the model's choice (notes/assumptions/18.md). -/

open Sys2Proof Sys2Proof.Machine

/-! ## Register accesses (R100 to R102) and status bits -/

/-- R100: a STATUS read gives FULL in bit 31 and EMPTY in bit 30, computed from the queues; it changes no queue. Bits
29:0 are the next draw: nothing is said of them. -/
def Obligations.StatusReadReportsQueueFlags : Prop :=
  ∀ s : State, ∃ v : Word,
    v.getLsbD 31 = decide (s.dev.out.length = s.cfg.fifoDepth) ∧
    v.getLsbD 30 = decide (s.dev.inq.length = 0) ∧
    ∀ i ∈ [Instr.mmioRdStatus, Instr.regStatus (.read 32)],
      exec i s = .next { s with
        cpu := [], pos := s.pos + 1, results := s.results ++ [.word v], drawn := s.drawn + 1 }

/-- R101: a READ read returns the head of `dev.IN` and removes it; on an empty queue it is refused. -/
def Obligations.ReadRegisterPopsInQueue : Prop :=
  ∀ s : State, ∀ i ∈ [Instr.mmioRdRead, Instr.regRead (.read 32)],
    (∀ w rest, s.dev.inq = w :: rest →
      exec i s = .next { s with
        dev := { s.dev with inq := rest }, cpu := [], pos := s.pos + 1, results := s.results ++ [.word w] }) ∧
    (s.dev.inq = [] → s.fault = none → s.refused = none →
      exec i s = .next { s with refused := some .readEmpty, cpu := [], pos := s.pos + 1 })

/-- R102: a WRITE write of a channel-8 word while FULL is 0 appends the word to `dev.OUT`; so do the raw 32-bit write at
WRITE's offset and the channel-8 mailbox word towards the coprocessor. -/
def Obligations.WriteRegisterAppendsToOut : Prop :=
  ∀ (s : State) (v : Word), v &&& 0xF#32 = 8#32 → s.dev.out.length ≠ s.cfg.fifoDepth →
    ∀ i ∈ [Instr.mmioWrWrite v, Instr.regWrite (.write 32 v.toNat), Instr.mboxWordCh8 .toCop (v.extractLsb' 4 28)],
      exec i s = .next { s with
        dev := { s.dev with out := s.dev.out ++ [v] }, cpu := [], pos := s.pos + 1,
        results := s.results ++ [.none] }

/-- R102, R174: the checks of a WRITE write, in order: a channel above 8 is REF_CHANNEL, one of 0..7
REF_CHANNEL_UNMODELLED, a full queue REF_WRITE_FULL. Nothing is written. For every channel's mailbox word too. -/
def Obligations.WriteRegisterRefusals : Prop :=
  ∀ (s : State) (v : Word) (r : Refusal), s.fault = none → s.refused = none →
    (if (v &&& 0xF#32).toNat > 8 then r = .channel
     else if v &&& 0xF#32 ≠ 8#32 then r = .channelUnmodelled
     else s.dev.out.length = s.cfg.fifoDepth ∧ r = .writeFull) →
    ∀ i ∈ [Instr.mmioWrWrite v, Instr.regWrite (.write 32 v.toNat),
           mailboxInstr (v.extractLsb' 0 4) .toCop (v.extractLsb' 4 28)],
      exec i s = .next { s with refused := some r, cpu := [], pos := s.pos + 1 }

/-- R57, R173: a raw access at a register that is none of R100 to R102 (any width but 32, narrower or wider, a write to
STATUS or READ, a read of WRITE) is REF_MMIO_OTHER. -/
def Obligations.OtherRawAccessRefused : Prop :=
  ∀ s : State, s.fault = none → s.refused = none → ∀ i : Instr,
    ((∃ a, a ≠ .read 32 ∧ (i = .regRead a ∨ i = .regStatus a)) ∨
     (∃ a, (∀ v, a ≠ .write 32 v) ∧ i = .regWrite a)) →
    exec i s = .next { s with refused := some .mmioOther, cpu := [], pos := s.pos + 1 }

/-- R25, R28, R83 with the model's reading of the status-bit and response-code rows (notes/assumptions/1.md): STATUS_FULL
answers whether `dev.OUT` is full, STATUS_EMPTY whether `dev.IN` is empty, whatever bits 29:0 are; RESP_SUCCESS answers
whether bit 31 of word 1 of the message is set, RESP_FAILURE whether it is clear. -/
def Obligations.FlagRowsTestTheirFlags : Prop :=
  ∀ s : State,
    (∀ p ∈ [(Instr.statusFull, decide (s.dev.out.length = s.cfg.fifoDepth)),
            (Instr.statusEmpty, decide (s.dev.inq.length = 0))],
      exec p.1 s = .next { s with
        cpu := [], pos := s.pos + 1, results := s.results ++ [.flag p.2], drawn := s.drawn + 1 }) ∧
    ∀ p ∈ [(Instr.respSuccess, true), (Instr.respFailure, false)],
      exec p.1 s = .next { s with
        cpu := [], pos := s.pos + 1,
        results := s.results ++
          [.flag ((s.mem.readWord (s.cfg.msgBufAddr.toNat + 4)).getLsbD 31 == p.2)] }

/-! ## The mailbox word (R74 to R77) and words that arrive (R107, R108) -/

/-- R75, R76: what `send` assembles, `receive` splits into the same address and channel; and every word is the assembly
of its two parts. -/
def Obligations.MailboxWordSplitsAsAssembled : Prop :=
  (∀ a c : Word, a &&& 0xF#32 = 0#32 → c.toNat ≤ 15 →
    chanOf (assemble a c) = c ∧ addrOf (assemble a c) = a ∧
    (assemble a c).extractLsb' 4 28 = a.extractLsb' 4 28 ∧ (assemble a c).extractLsb' 0 4 = c.extractLsb' 0 4) ∧
  ∀ w : Word, assemble (addrOf w) (chanOf w) = w ∧ addrOf w &&& 0xF#32 = 0#32 ∧ (chanOf w).toNat ≤ 15

/-- R108 with the model's reading of the mailbox-word rows (notes/assumptions/1.md): a word of a channel other than 8
that comes from the coprocessor while `dev.IN` has room is appended to it; while it has none, nothing arrives. Nothing
else changes. -/
def Obligations.UnsolicitedWordsArrive : Prop :=
  ∀ (s : State) (draws : List (Option Word)) (addr : BitVec 28),
    ∀ p ∈ [(Instr.mboxWordCh0 (.toCpu draws) addr, 0#4), (.mboxWordCh1 (.toCpu draws) addr, 1#4),
           (.mboxWordCh2 (.toCpu draws) addr, 2#4), (.mboxWordCh3 (.toCpu draws) addr, 3#4),
           (.mboxWordCh4 (.toCpu draws) addr, 4#4), (.mboxWordCh5 (.toCpu draws) addr, 5#4),
           (.mboxWordCh6 (.toCpu draws) addr, 6#4), (.mboxWordCh7 (.toCpu draws) addr, 7#4),
           (.mboxWordCh9 (.toCpu draws) addr, 9#4), (.mboxWordCh10 (.toCpu draws) addr, 10#4),
           (.mboxWordCh11 (.toCpu draws) addr, 11#4), (.mboxWordCh12 (.toCpu draws) addr, 12#4),
           (.mboxWordCh13 (.toCpu draws) addr, 13#4), (.mboxWordCh14 (.toCpu draws) addr, 14#4),
           (.mboxWordCh15 (.toCpu draws) addr, 15#4)],
      exec p.1 s = .next { s with
        dev := { s.dev with
          inq := if s.dev.inq.length < s.cfg.fifoDepth then s.dev.inq ++ [addr ++ p.2] else s.dev.inq },
        cpu := [], pos := s.pos + 1, results := s.results ++ [.none] }

/-- R107: the answer of a pending request (8, A) while `dev.IN` has room. The reply word is `A | 8`, the entry is gone,
word i of the message for `1 ≤ i < ceil(size/4)` is what the coprocessor drew or what it was, and no byte outside those
words changes (word 0 in particular). Nothing else changes. (Of the model's choice: a message
laid over a register is plain memory, notes/assumptions/18.md; a write past 2^32 has no effect, 10.md.) -/
def Obligations.AnswerRewritesOnlyTheMessage : Prop :=
  ∀ (s : State) (a : Word) (draws : List (Option Word)),
    (⟨8#32, a⟩ : Request) ∈ s.cop.pending → s.dev.inq.length < s.cfg.fifoDepth →
    let n := ((s.mem.readWord a.toNat).toNat + 3) / 4
    ∃ m : Memory,
      copStep (.answer a draws) s = { s with
        mem := m, cop := ⟨s.cop.pending.erase ⟨8#32, a⟩⟩, dev := { s.dev with inq := s.dev.inq ++ [a ||| 8#32] } } ∧
      (∀ b, b < a.toNat + 4 ∨ a.toNat + 4 * n ≤ b → m.readByte b = s.mem.readByte b) ∧
      ∀ i, 1 ≤ i → i < n → a.toNat + 4 * i + 4 ≤ 2 ^ 32 →
        m.readWord (a.toNat + 4 * i) =
          ((draws[i - 1]?).join).getD (s.mem.readWord (a.toNat + 4 * i))

/-- R107 with the model's reading of the mailbox-word rows (notes/assumptions/1.md): a channel-8 word that comes from the
coprocessor is the answer of the pending request at its address; with no such request, or with `dev.IN` full, nothing
arrives and nothing is rewritten. -/
def Obligations.ReplyWordAnswersItsRequest : Prop :=
  ∀ (s : State) (draws : List (Option Word)) (addr : BitVec 28),
    ((⟨8#32, addr ++ 0#4⟩ : Request) ∈ s.cop.pending → s.dev.inq.length < s.cfg.fifoDepth →
      ∃ m : Memory,
        exec (.mboxWordCh8 (.toCpu draws) addr) s = .next { s with
          mem := m, cop := ⟨s.cop.pending.erase ⟨8#32, addr ++ 0#4⟩⟩,
          dev := { s.dev with inq := s.dev.inq ++ [addr ++ 8#4] },
          cpu := [], pos := s.pos + 1, results := s.results ++ [.none] } ∧
        ∀ b, b < (addr ++ 0#4).toNat + 4 ∨
            (addr ++ 0#4).toNat + 4 * (((s.mem.readWord (addr ++ 0#4).toNat).toNat + 3) / 4) ≤ b →
          m.readByte b = s.mem.readByte b) ∧
    ((⟨8#32, addr ++ 0#4⟩ : Request) ∉ s.cop.pending ∨ s.cfg.fifoDepth ≤ s.dev.inq.length →
      exec (.mboxWordCh8 (.toCpu draws) addr) s = .next { s with
        cpu := [], pos := s.pos + 1, results := s.results ++ [.none] })

/-- R106: a consume step takes the head word into PENDING, split into its channel and its address, and does nothing else;
with `dev.OUT` empty it does nothing. -/
def Obligations.ConsumeMovesHeadToPending : Prop :=
  ∀ s : State,
    (∀ w rest, s.dev.out = w :: rest →
      copStep .consume s = { s with
        dev := { s.dev with out := rest }, cop := ⟨s.cop.pending ++ [⟨w &&& 0xF#32, w &&& 0xFFFFFFF0#32⟩]⟩ }) ∧
    (s.dev.out = [] → copStep .consume s = s)

/-- R107, R108, R110: whatever step the coprocessor takes, it appends nothing to `dev.OUT`, removes nothing from `dev.IN`,
puts a channel-8 word there only for a request that was pending, and touches neither builder, driver, marks, position,
program nor results. A step whose condition does not hold changes nothing: an answer with no such entry or with `dev.IN`
full, an unsolicited word on channel 8 or with `dev.IN` full. -/
def Obligations.CoprocessorKeepsToItsSide : Prop :=
  ∀ (s : State) (e : CopStep),
    let t := copStep e s
    (∃ pre, s.dev.out = pre ++ t.dev.out) ∧
    (t.dev.inq = s.dev.inq ∨
      ∃ w, t.dev.inq = s.dev.inq ++ [w] ∧ s.dev.inq.length < s.cfg.fifoDepth ∧
        (w &&& 0xF#32 = 8#32 → ∃ r ∈ s.cop.pending, r.channel = 8#32 ∧ w = r.addr ||| 8#32)) ∧
    t = { s with dev := t.dev, cop := t.cop, mem := t.mem } ∧
    (∀ a draws, e = .answer a draws →
      (⟨8#32, a⟩ : Request) ∉ s.cop.pending ∨ s.cfg.fifoDepth ≤ s.dev.inq.length → t = s) ∧
    (∀ w, e = .unsolicited w → w &&& 0xF#32 = 8#32 ∨ s.cfg.fifoDepth ≤ s.dev.inq.length → t = s)

/-! ## send, receive, call (R103 to R105, R110, R111) -/

/-- R103, R110: `send(8, address)` of an aligned address writes `(address & ~0xF) | 8` and returns: at its first poll
where FULL is 0 there (the coprocessor takes no step before it: the schedule is at its end, or gives the CPU the next
step), and after one consume step where FULL is 1, its word then going behind the words that are left. -/
def Obligations.SendWritesAssembledWord : Prop :=
  ∀ (s : State) (a : Word), a &&& 0xF#32 = 0#32 →
    (s.dev.out.length ≠ s.cfg.fifoDepth → (s.sched = [] ∨ ∃ rest, s.sched = .cpu :: rest) →
      exec (.mbSend 8#32 a) s = .next { s with
        dev := { s.dev with out := s.dev.out ++ [(a &&& ~~~0xF#32) ||| 8#32] }, cpu := [], pos := s.pos + 1,
        results := s.results ++ [.none], sched := s.sched.tail }) ∧
    ∀ w q, s.dev.out = w :: q → s.dev.out.length = s.cfg.fifoDepth → s.sched = [.cpu, .cop .consume] →
      exec (.mbSend 8#32 a) s = .next { s with
        dev := { s.dev with out := q ++ [(a &&& ~~~0xF#32) ||| 8#32] },
        cop := ⟨s.cop.pending ++ [⟨w &&& 0xF#32, w &&& 0xFFFFFFF0#32⟩]⟩,
        cpu := [], pos := s.pos + 1, results := s.results ++ [.none], sched := [] }

/-- R103, R111, the first cause of a hang: `send` on a full queue with a coprocessor that never consumes. With no
coprocessor step at all the state is its own next state; and whatever else the coprocessor does, every infinite
execution with a fair CPU is a transport hang, in which `send` returns nothing. -/
def Obligations.SendHangsWhileFull : Prop :=
  ∀ (s : State) (a : Word), a &&& 0xF#32 = 0#32 → s.dev.out.length = s.cfg.fifoDepth → s.Unmarked →
    let t : State := { s with cpu := [.pollFull 8#32 a, .ret .none], sched := [] }
    (s.sched = [] → exec (.mbSend 8#32 a) s = .next t ∧ step t = .next t) ∧
    exec (.mbSend 8#32 a) { s with sched := [.pause] } = .next t ∧
    ∀ σ : Nat → Turn, FairCpu σ → (∀ n, σ n ≠ .cop .consume) →
      TransportHang σ t ∧ ∀ n, (execution σ t n).results = s.results

/-- R103, R104, R105, R123, R174: the checks of `send`, of `call` and the property `call`, which begin with it (the property
`call` in phase FINISHED, with the buffer's own address: its phase stays FINISHED), and of `receive`, in their order. -/
def Obligations.TransportChecksInOrder : Prop :=
  ∀ (s : State) (c a : Word), s.fault = none → s.refused = none →
    (∀ i, i = Instr.mbSend c a ∨ i = .mbCall c a ∨
        i = .pmCall c ∧ s.pm.phase = .finished ∧ a = s.cfg.msgBufAddr →
      (c.toNat > 8 → exec i s = .next { s with refused := some .channel, cpu := [], pos := s.pos + 1 }) ∧
      (c.toNat < 8 →
        exec i s = .next { s with refused := some .channelUnmodelled, cpu := [], pos := s.pos + 1 }) ∧
      (c.toNat = 8 → a &&& 0xF#32 ≠ 0#32 →
        exec i s = .next { s with fault := some (.misalignedMboxAddr a), cpu := [], pos := s.pos + 1 })) ∧
    (c.toNat > 8 →
      exec (.mbReceive c) s = .next { s with refused := some .channel, cpu := [], pos := s.pos + 1 })

/-- R104: `receive` discards every word ahead of the first one of its channel and returns that one's address part; the
words after it stay. (The words are there already and the coprocessor takes no step.) -/
def Obligations.ReceiveReturnsFirstMatch : Prop :=
  ∀ (s : State) (c w : Word) (pre post : List Word), c.toNat ≤ 8 → s.sched = [] →
    s.dev.inq = pre ++ w :: post → (∀ v ∈ pre, v &&& 0xF#32 ≠ c) → w &&& 0xF#32 = c →
    exec (.mbReceive c) s = .next { s with
      dev := { s.dev with inq := post }, cpu := [], pos := s.pos + 1,
      results := s.results ++ [.word (w &&& 0xFFFFFFF0#32)] }

/-- R104, R111, the other causes of a hang: a coprocessor that never answers, or answers only with words `receive`
discards. `receive` with no matching word discards what is there; with no coprocessor step at all the state it then
waits in is its own next state; and in every infinite execution with a fair CPU in which no word of its channel
arrives, whatever other words do, it hangs and returns nothing. -/
def Obligations.ReceiveHangsWithoutMatch : Prop :=
  ∀ (s : State) (c : Word), c.toNat ≤ 8 → (∀ v ∈ s.dev.inq, v &&& 0xF#32 ≠ c) → s.Unmarked →
    let t : State := { s with dev := { s.dev with inq := [] }, cpu := [.pollEmpty c .result] }
    let l : State := { s with cpu := [.pollEmpty c .result], sched := [] }
    (s.sched = [] → exec (.mbReceive c) s = .next t ∧ step t = .next t) ∧
    exec (.mbReceive c) { s with sched := [.pause] } = .next l ∧
    ∀ σ : Nat → Turn, FairCpu σ → (∀ n w, σ n = .cop (.unsolicited w) → w &&& 0xF#32 ≠ c) →
      (c = 8#32 → ∀ n a draws, σ n ≠ .cop (.answer a draws)) →
      (∀ r ∈ s.cop.pending, r.addr &&& 0xF#32 = 0#32) →
      TransportHang σ l ∧ ∀ n, (execution σ l n).results = s.results

/-- R104 under every schedule of the coprocessor: `receive` either still waits, its position not advanced, or has
returned the address part of a word of its channel that was in `dev.IN` or that a scheduled step of the coprocessor put
there. It writes no word and changes neither builder nor driver nor marks. -/
def Obligations.ReceiveUnderEverySchedule : Prop :=
  ∀ (s : State) (c : Word), c.toNat ≤ 8 →
    ∃ t, exec (.mbReceive c) s = .next t ∧
      t.pm = s.pm ∧ t.fb = s.fb ∧ t.fault = s.fault ∧ t.refused = s.refused ∧
      (∃ pre, s.dev.out = pre ++ t.dev.out) ∧
      ((t.cpu = [.pollEmpty c .result] ∧ (t.sched = [] ∨ .pause ∈ s.sched) ∧ t.pos = s.pos ∧ t.results = s.results) ∨
       (t.cpu = [] ∧ t.pos = s.pos + 1 ∧
         ∃ w : Word, w &&& 0xF#32 = c ∧ t.results = s.results ++ [.word (w &&& 0xFFFFFFF0#32)] ∧
           (w ∈ s.dev.inq ∨ .cop (.unsolicited w) ∈ s.sched ∨
             ∃ a draws, .cop (.answer a draws) ∈ s.sched ∧ w = a ||| 8#32)))

/-- R105, R83: `call` whose request the coprocessor takes and answers with code `c` in word 1 returns bit 31 of `c`. The
queues are empty before and after; no byte outside words 1.. of the message changes. (Of the model's choice: a message
laid over a register is plain memory, notes/assumptions/18.md.) -/
def Obligations.CallReturnsBit31OfTheReply : Prop :=
  ∀ (s : State) (a c : Word) (ds : List (Option Word)), a &&& 0xF#32 = 0#32 → 1 ≤ s.cfg.fifoDepth →
    s.dev = ⟨[], []⟩ → s.cop.pending = [] → 4 < (s.mem.readWord a.toNat).toNat →
    s.sched = [.cpu, .cop .consume, .cop (.answer a (some c :: ds))] →
    ∃ m : Memory,
      exec (.mbCall 8#32 a) s = .next { s with
        mem := m, sched := [], cpu := [], pos := s.pos + 1, results := s.results ++ [.flag (c.getLsbD 31)] } ∧
      ∀ b, b < a.toNat + 4 ∨ a.toNat + 4 * (((s.mem.readWord a.toNat).toNat + 3) / 4) ≤ b →
        m.readByte b = s.mem.readByte b

/-- R105, R111 under every schedule of the coprocessor: `call` on channel 8 with an aligned buffer raises nothing and
refuses nothing, however long it waits; and if it has returned, its result is bit 31 of the word at `buffer + 4`. -/
def Obligations.CallUnderEverySchedule : Prop :=
  ∀ (s : State) (a : Word), a &&& 0xF#32 = 0#32 →
    ∃ t, exec (.mbCall 8#32 a) s = .next t ∧
      t.pm = s.pm ∧ t.fb = s.fb ∧ t.fault = s.fault ∧ t.refused = s.refused ∧
      ((t.cpu ≠ [] ∧ (t.sched = [] ∨ .pause ∈ s.sched) ∧ t.pos = s.pos ∧ t.results = s.results) ∨
       (t.cpu = [] ∧ t.pos = s.pos + 1 ∧
         t.results = s.results ++ [.flag ((t.mem.readWord (a.toNat + 4)).getLsbD 31)]))

/-- R109, R111, R203: `call` on channel 8 returns, with bit 31 of the word at `buffer + 4` and nothing raised, in every
infinite execution in which the CPU is fair, the coprocessor keeps COPROC_REPLIES and COPROC_FINITE_NOISE holds (both
count the coprocessor's turns only: notes/assumptions/17.md). -/
def Obligations.CallReturnsWhenServed : Prop :=
  ∀ (s : State) (a : Word), a &&& 0xF#32 = 0#32 → 1 ≤ s.cfg.fifoDepth → s.Unmarked →
    ∃ l, exec (.mbCall 8#32 a) { s with sched := [.pause] } = .next l ∧ l.cpu ≠ [] ∧
      ∀ σ : Nat → Turn, FairCpu σ → CoprocReplies σ l → CoprocFiniteNoise σ l →
        ∃ n, let t := execution σ l n
          t.cpu = [] ∧ t.pos = s.pos + 1 ∧ t.Unmarked ∧
          t.results = s.results ++ [.flag ((t.mem.readWord (a.toNat + 4)).getLsbD 31)]

/-! ## The codec (R120 to R126) -/

/-- R120: `begin` in every phase: word 1 becomes 0, the cursor 2, the phase BUILDING; no other byte changes. -/
def Obligations.BeginStartsMessage : Prop :=
  ∀ s : State, s.cfg.Wf → s.sched = [] → ∃ m : Memory,
    exec .pmBegin s = .next { s with
      mem := m, pm := ⟨.building, 2⟩, cpu := [], pos := s.pos + 1, results := s.results ++ [.none] } ∧
    m.readWord (s.cfg.msgBufAddr.toNat + 4) = 0#32 ∧
    ∀ b, b < s.cfg.msgBufAddr.toNat + 4 ∨ s.cfg.msgBufAddr.toNat + 8 ≤ b → m.readByte b = s.mem.readByte b

/-- R121, R79: `add_tag` in a build writes its block at the cursor, request words then zeros in the value area, advances
the cursor past it and returns the word index of the value area; no byte outside the block changes. -/
def Obligations.AddTagWritesBlock : Prop :=
  ∀ (s : State) (g : TagRequest), s.cfg.Wf → s.sched = [] → s.pm.phase = .building → g.Admitted →
    s.pm.cursor + 3 + g.valueCount ≤ s.cfg.msgCapWords →
    let addr (k : Nat) := s.cfg.msgBufAddr.toNat + 4 * (s.pm.cursor + k)
    ∃ m : Memory,
      exec (.pmAddTag g.id g.vbuf g.req) s = .next { s with
        mem := m, pm := ⟨.building, s.pm.cursor + 3 + g.valueCount⟩, cpu := [], pos := s.pos + 1,
        results := s.results ++ [.offset (s.pm.cursor + 3)] } ∧
      m.readWord (addr 0) = g.id ∧ m.readWord (addr 1) = g.vbuf ∧ m.readWord (addr 2) = 0#32 ∧
      (∀ j, j < g.valueCount → m.readWord (addr (3 + j)) = (g.req[j]?).getD 0#32) ∧
      ∀ b, b < addr 0 ∨ addr (3 + g.valueCount) ≤ b → m.readByte b = s.mem.readByte b

/-- R82, R121 with the model's reading of the tag rows (notes/assumptions/1.md): each tag row is the `add_tag` of the
table's identifier, value-buffer size and request words; and in a build with room for its block it appends that block,
zero-filled, and returns the index of its value area. -/
def Obligations.TagRowsWriteTheirBlocks : Prop :=
  ∀ (s : State) (u v w : Word),
    (∀ p ∈ ([(.tagGetFirmwareRevision, 0x00000001, 4, []), (.tagGetBoardModel, 0x00010001, 4, []),
            (.tagGetBoardRevision, 0x00010002, 4, []), (.tagGetBoardMacAddress, 0x00010003, 6, []),
            (.tagGetBoardSerial, 0x00010004, 8, []), (.tagGetArmMemory, 0x00010005, 8, []),
            (.tagGetVcMemory, 0x00010006, 8, []), (.tagGetClockRate u, 0x00030002, 8, [u]),
            (.tagSetClockRate u v w, 0x00038002, 12, [u, v, w]), (.tagAllocateBuffer u, 0x00040001, 8, [u]),
            (.tagGetPitch, 0x00040008, 4, []), (.tagSetPhysicalSize u v, 0x00048003, 8, [u, v]),
            (.tagSetVirtualSize u v, 0x00048004, 8, [u, v]), (.tagSetDepth u, 0x00048005, 4, [u]),
            (.tagSetVirtualOffset u v, 0x00048009, 8, [u, v])] : List (Instr × Word × Word × List Word)),
      exec p.1 s = exec (.pmAddTag p.2.1 p.2.2.1 p.2.2.2) s) ∧
    let addr (k : Nat) := s.cfg.msgBufAddr.toNat + 4 * (s.pm.cursor + k)
    ∀ p ∈ ([(.tagGetFirmwareRevision, 0x00000001, 4, [0]), (.tagGetBoardModel, 0x00010001, 4, [0]),
            (.tagGetBoardRevision, 0x00010002, 4, [0]), (.tagGetBoardMacAddress, 0x00010003, 6, [0, 0]),
            (.tagGetBoardSerial, 0x00010004, 8, [0, 0]), (.tagGetArmMemory, 0x00010005, 8, [0, 0]),
            (.tagGetVcMemory, 0x00010006, 8, [0, 0]), (.tagGetClockRate u, 0x00030002, 8, [u, 0]),
            (.tagSetClockRate u v w, 0x00038002, 12, [u, v, w]), (.tagAllocateBuffer u, 0x00040001, 8, [u, 0]),
            (.tagGetPitch, 0x00040008, 4, [0]), (.tagSetPhysicalSize u v, 0x00048003, 8, [u, v]),
            (.tagSetVirtualSize u v, 0x00048004, 8, [u, v]), (.tagSetDepth u, 0x00048005, 4, [u]),
            (.tagSetVirtualOffset u v, 0x00048009, 8, [u, v])] : List (Instr × Word × Word × List Word)),
      s.cfg.Wf → s.sched = [] → s.pm.phase = .building →
      s.pm.cursor + 3 + p.2.2.2.length ≤ s.cfg.msgCapWords →
      ∃ m : Memory,
        exec p.1 s = .next { s with
          mem := m, pm := ⟨.building, s.pm.cursor + 3 + p.2.2.2.length⟩, cpu := [], pos := s.pos + 1,
          results := s.results ++ [.offset (s.pm.cursor + 3)] } ∧
        (∀ k, k < 3 + p.2.2.2.length → (p.2.1 :: p.2.2.1 :: 0#32 :: p.2.2.2)[k]? = some (m.readWord (addr k))) ∧
        ∀ b, b < addr 0 ∨ addr (3 + p.2.2.2.length) ≤ b → m.readByte b = s.mem.readByte b

/-- R121, R174, R175: the checks of `add_tag` in their order; an overflow is a fault with nothing written. -/
def Obligations.AddTagChecksInOrder : Prop :=
  ∀ (s : State) (g : TagRequest), s.fault = none → s.refused = none →
    let stopped (t : State) := exec (.pmAddTag g.id g.vbuf g.req) s = .next { t with cpu := [], pos := s.pos + 1 }
    (s.pm.phase ≠ .building → stopped { s with refused := some .pmPhase }) ∧
    (s.pm.phase = .building → g.id = 0#32 → stopped { s with refused := some .tagZero }) ∧
    (s.pm.phase = .building → g.id ≠ 0#32 → g.valueCount < g.req.length → stopped { s with refused := some .reqTooLong }) ∧
    (s.pm.phase = .building → g.Admitted → s.cfg.msgCapWords < s.pm.cursor + 3 + g.valueCount →
      stopped { s with fault := some (.msgOverflow s.pm.cursor (3 + g.valueCount)) })

/-- R122: `finish` (and the END row) writes END at the cursor and the size in bytes into word 0; no other byte changes. -/
def Obligations.FinishWritesEndAndSize : Prop :=
  ∀ s : State, s.cfg.Wf → s.sched = [] → s.pm.phase = .building → 1 ≤ s.pm.cursor →
    s.pm.cursor + 1 ≤ s.cfg.msgCapWords →
    ∀ i ∈ [Instr.pmFinish, Instr.tagEnd], ∃ m : Memory,
      exec i s = .next { s with
        mem := m, pm := ⟨.finished, s.pm.cursor + 1⟩, cpu := [], pos := s.pos + 1,
        results := s.results ++ [.none] } ∧
      m.readWord (s.cfg.msgBufAddr.toNat + 4 * s.pm.cursor) = 0#32 ∧
      (m.readWord s.cfg.msgBufAddr.toNat).toNat = 4 * (s.pm.cursor + 1) ∧
      ∀ b, (b < s.cfg.msgBufAddr.toNat ∨ s.cfg.msgBufAddr.toNat + 4 ≤ b) →
        (b < s.cfg.msgBufAddr.toNat + 4 * s.pm.cursor ∨ s.cfg.msgBufAddr.toNat + 4 * s.pm.cursor + 4 ≤ b) →
        m.readByte b = s.mem.readByte b

/-- R121, R122, R123, R124, R173: out of its phase, `finish` and the property `call` are refused, and so is every tag row; a
message with no room for END, or for a tag row's block, overflows with nothing written; a read-back past the buffer is
refused. (The channel checks of the property `call` are in TransportChecksInOrder. Rows: notes/assumptions/1.md.) -/
def Obligations.CodecStopsOutOfOrder : Prop :=
  ∀ (s : State) (u v w : Word), s.fault = none → s.refused = none →
    let stopped (i : Instr) (t : State) := exec i s = .next { t with cpu := [], pos := s.pos + 1 }
    (s.pm.phase ≠ .building → ∀ i ∈ [Instr.pmFinish, Instr.tagEnd],
      stopped i { s with refused := some .pmPhase }) ∧
    (s.pm.phase = .building → s.cfg.msgCapWords < s.pm.cursor + 1 → ∀ i ∈ [Instr.pmFinish, Instr.tagEnd],
      stopped i { s with fault := some (.msgOverflow s.pm.cursor 1) }) ∧
    (∀ p ∈ ([(.tagGetFirmwareRevision, 1), (.tagGetBoardModel, 1), (.tagGetBoardRevision, 1),
             (.tagGetBoardMacAddress, 2), (.tagGetBoardSerial, 2), (.tagGetArmMemory, 2), (.tagGetVcMemory, 2),
             (.tagGetClockRate u, 2), (.tagSetClockRate u v w, 3), (.tagAllocateBuffer u, 2), (.tagGetPitch, 1),
             (.tagSetPhysicalSize u v, 2), (.tagSetVirtualSize u v, 2), (.tagSetDepth u, 1),
             (.tagSetVirtualOffset u v, 2)] : List (Instr × Nat)),
      (s.pm.phase ≠ .building → stopped p.1 { s with refused := some .pmPhase }) ∧
      (s.pm.phase = .building → s.cfg.msgCapWords < s.pm.cursor + 3 + p.2 →
        stopped p.1 { s with fault := some (.msgOverflow s.pm.cursor (3 + p.2)) })) ∧
    (s.pm.phase ≠ .finished → ∀ c, stopped (.pmCall c) { s with refused := some .pmPhase }) ∧
    (∀ i, s.cfg.msgCapWords ≤ i → stopped (.pmRead i) { s with refused := some .pmIndex })

/-- R124: `PM_READ(index)` inside the buffer returns `Word(index)`, little-endian (R54), in every phase. -/
def Obligations.ReadBackReturnsTheWord : Prop :=
  ∀ (s : State) (i : Nat), i < s.cfg.msgCapWords →
    let b (k : Nat) := (s.mem.readByte (s.cfg.msgBufAddr.toNat + 4 * i + k)).toNat
    exec (.pmRead i) s = .next { s with
      cpu := [], pos := s.pos + 1,
      results := s.results ++ [.word (BitVec.ofNat 32 (b 0 + 2 ^ 8 * b 1 + 2 ^ 16 * b 2 + 2 ^ 24 * b 3))] }

/-- R123: a finished message whose request the coprocessor takes and answers with code `c` in word 1: the property `call`
returns bit 31 of `c`, and the builder is IDLE. -/
def Obligations.PropertyCallConsumesTheMessage : Prop :=
  ∀ (s : State) (c : Word) (ds : List (Option Word)), s.cfg.Wf → s.pm.phase = .finished →
    s.dev = ⟨[], []⟩ → s.cop.pending = [] → 4 < (s.mem.readWord s.cfg.msgBufAddr.toNat).toNat →
    s.sched = [.cpu, .cop .consume, .cop (.answer s.cfg.msgBufAddr (some c :: ds))] →
    ∃ m : Memory,
      exec (.pmCall 8#32) s = .next { s with
        mem := m, pm := ⟨.idle, s.pm.cursor⟩, sched := [], cpu := [], pos := s.pos + 1,
        results := s.results ++ [.flag (c.getLsbD 31)] } ∧
      ∀ b, b < s.cfg.msgBufAddr.toNat + 4 ∨
          s.cfg.msgBufAddr.toNat + 4 * (((s.mem.readWord s.cfg.msgBufAddr.toNat).toNat + 3) / 4) ≤ b →
        m.readByte b = s.mem.readByte b

/-- R125, R126: `begin`, any tags that the codec admits and the buffer holds, `finish`. The buffer then holds a
well-formed message: its size word is the size of R126, its code word 0, and R81's walk finds exactly the tags added,
in order, with their sizes and their request words, zero-filled. -/
def Obligations.EncodedMessageDecodesToItsTags : Prop :=
  ∀ (s : State) (gs : List TagRequest), s.cfg.Wf → s.sched = [] → s.Unmarked → (∀ g ∈ gs, g.Admitted) →
    messageWords gs ≤ s.cfg.msgCapWords →
    ∃ t, execAll (.pmBegin :: gs.map (fun g => .pmAddTag g.id g.vbuf g.req) ++ [.pmFinish]) s = some t ∧
      t.pm = ⟨.finished, messageWords gs⟩ ∧
      decodeMessage ((List.range (messageWords gs)).map t.word) =
        some ⟨BitVec.ofNat 32 (4 * messageWords gs), 0#32,
          gs.map fun g => ⟨g.id, g.vbuf, 0#32, g.req ++ List.replicate (g.valueCount - g.req.length) 0#32⟩⟩

/-- R82, R124: the response of each tag of the table, read at the offset of its value area: its entries in the table's order,
each word a word of the buffer; the MAC address 6 bytes (in memory order: notes/assumptions/16.md) and the serial 64
bits, low word first. -/
def Obligations.TagResponsesFollowTheTable : Prop :=
  ∀ (s : State) (o : Nat),
    let word (k : Nat) : FieldValue := .word (s.mem.readWord (s.cfg.msgBufAddr.toNat + 4 * (o + k)))
    let byte (k : Nat) := s.mem.readByte (s.cfg.msgBufAddr.toNat + 4 * o + k)
    ∀ p ∈ ([(Config.tagGetFirmwareRevision, [(.revision, word 0)]), (Config.tagGetBoardModel, [(.model, word 0)]),
            (Config.tagGetBoardRevision, [(.revision, word 0)]),
            (Config.tagGetBoardMacAddress, [(.macAddress, .bytes [byte 0, byte 1, byte 2, byte 3, byte 4, byte 5])]),
            (Config.tagGetBoardSerial, [(.serial, .wide (s.mem.readWord (s.cfg.msgBufAddr.toNat + 4 * (o + 1)) ++
              s.mem.readWord (s.cfg.msgBufAddr.toNat + 4 * o)))]),
            (Config.tagGetArmMemory, [(.base, word 0), (.size, word 1)]),
            (Config.tagGetVcMemory, [(.base, word 0), (.size, word 1)]),
            (Config.tagGetClockRate, [(.clockId, word 0), (.rate, word 1)]),
            (Config.tagSetClockRate, [(.clockId, word 0), (.rate, word 1)]),
            (Config.tagAllocateBuffer, [(.busAddress, word 0), (.size, word 1)]),
            (Config.tagGetPitch, [(.pitch, word 0)]), (Config.tagSetPhysicalSize, [(.width, word 0), (.height, word 1)]),
            (Config.tagSetVirtualSize, [(.width, word 0), (.height, word 1)]), (Config.tagSetDepth, [(.depth, word 0)]),
            (Config.tagSetVirtualOffset, [(.x, word 0), (.y, word 1)])] :
            List (Config.TagRow × List (Config.Field × FieldValue))),
      s.response p.1 o = some p.2

/-! ## Allocation (R140 to R142, R147) -/

/-- R140: bits 31:30 of a bus address are cleared, the others kept. -/
def Obligations.BusAddressLosesAliasBits : Prop :=
  ∀ (s : State) (bus : Word), ∃ v : Word, v.toNat = bus.toNat % 2 ^ 30 ∧
    exec (.fbBusToCpu bus) s = .next { s with
      cpu := [], pos := s.pos + 1, results := s.results ++ [.word v] }

/-- R142: the 31 words `initialize` sends, word by word; then it has sent the buffer's address on channel 8 and waits for
the reply (here the coprocessor takes no step). No byte outside the message changes. -/
def Obligations.InitializeMessageWordByWord : Prop :=
  ∀ (s : State) (w h d : Word), s.cfg.Wf → s.fb.state = .uninit → s.pm.phase ≠ .building →
    s.dev.out.length ≠ s.cfg.fifoDepth → s.dev.inq = [] → s.sched = [] →
    ∃ (m : Memory) (t : State),
      exec (.fbInit w h d) s = .next t ∧
      t = { s with
        mem := m, pm := ⟨.finished, 31⟩, dev := ⟨s.dev.out ++ [s.cfg.msgBufAddr ||| 8#32], []⟩,
        cpu := [.pollEmpty 8#32 .drop, .verify s.cfg.msgBufAddr (.fbInit w h d 24 29)] } ∧
      (List.range 31).map t.word =
        [124, 0, 0x00048003, 8, 0, w, h, 0x00048004, 8, 0, w, h, 0x00048009, 8, 0, 0, 0, 0x00048005, 4, 0, d,
         0x00040001, 8, 0, 16, 0, 0x00040008, 4, 0, 0, 0] ∧
      ∀ b, b < s.cfg.msgBufAddr.toNat ∨ s.cfg.msgBufAddr.toNat + 124 ≤ b → m.readByte b = s.mem.readByte b

/-- R141, R147: `initialize` whose request the coprocessor takes once it is sent (the build and the send are 40 steps of the
CPU; further ones find `dev.IN` empty) and answers, with code `c` in word 1, bus address in word
24, size in word 25 and pitch in word 29. With bit 31 of `c` set and a bus address that is not 0 it returns true and the
driver is READY with the requested width, height and depth, the answered pitch and size and the masked address;
otherwise it returns false and the driver is unchanged. The builder ends IDLE. -/
def Obligations.InitializeFollowsTheReply : Prop :=
  ∀ (s : State) (w h d c bus size pitch : Word) (ds : List (Option Word)) (k : Nat), s.cfg.Wf → s.fb.state = .uninit →
    s.pm.phase ≠ .building → s.dev = ⟨[], []⟩ → s.cop.pending = [] → 40 ≤ k →
    s.sched = List.replicate k .cpu ++ [.cop .consume, .cop (.answer s.cfg.msgBufAddr ds)] →
    ds[0]? = some (some c) → ds[23]? = some (some bus) → ds[24]? = some (some size) → ds[28]? = some (some pitch) →
    let ok := c.getLsbD 31 && decide (bus ≠ 0#32)
    ∃ m : Memory,
      exec (.fbInit w h d) s = .next { s with
        mem := m, pm := ⟨.idle, 31⟩, sched := [], cpu := [], pos := s.pos + 1,
        fb := if ok then ⟨.ready, ⟨w, h, pitch, d, bus &&& 0x3FFFFFFF#32, size⟩⟩ else s.fb,
        results := s.results ++ [.flag ok] } ∧
      ∀ b, b < s.cfg.msgBufAddr.toNat ∨ s.cfg.msgBufAddr.toNat + 124 ≤ b → m.readByte b = s.mem.readByte b

/-- R147, the source's end-to-end case: `initialize(1280, 720, 32)` whose request is taken and answered with bit 31 of word
1 set, allocate-address 0xC2000000, size 3686400 and pitch 5120 returns true and leaves the descriptor of R147. -/
def Obligations.InitializeEndToEndCase : Prop :=
  ∀ (s : State) (c : Word) (ds : List (Option Word)) (k : Nat), s.cfg.Wf → s.fb.state = .uninit →
    s.pm.phase ≠ .building → 40 ≤ k →
    s.dev = ⟨[], []⟩ → s.cop.pending = [] → c.getLsbD 31 = true →
    s.sched = List.replicate k .cpu ++ [.cop .consume, .cop (.answer s.cfg.msgBufAddr ds)] →
    ds[0]? = some (some c) → ds[23]? = some (some 0xC2000000#32) → ds[24]? = some (some 3686400#32) →
    ds[28]? = some (some 5120#32) →
    ∃ t, exec (.fbInit 1280#32 720#32 32#32) s = .next t ∧ t.results = s.results ++ [.flag true] ∧
      t.fb = ⟨.ready, ⟨1280#32, 720#32, 5120#32, 32#32, 0x02000000#32, 3686400#32⟩⟩

/-- R141, R146, R111 under every schedule of the coprocessor: an admitted `initialize` raises nothing and refuses nothing.
It is still under way, with the driver as it was; or it has returned true, and then the driver is READY with the
requested width, height and depth and the bus address it read, which is not 0, translated; or it has returned false,
with the driver as it was. When it has returned the builder is IDLE. Where no request was outstanding and no channel-8
word was in `dev.IN` when it began, what it read is what words 24, 25 and 29 of the message hold at its return. -/
def Obligations.InitializeUnderEverySchedule : Prop :=
  ∀ (s : State) (w h d : Word), s.cfg.Wf → s.fb.state = .uninit → s.pm.phase ≠ .building →
    ∃ t, exec (.fbInit w h d) s = .next t ∧ t.fault = s.fault ∧ t.refused = s.refused ∧
      ((t.cpu ≠ [] ∧ (t.sched = [] ∨ .pause ∈ s.sched) ∧ t.pos = s.pos ∧ t.results = s.results ∧ t.fb = s.fb) ∨
       (t.cpu = [] ∧ t.pos = s.pos + 1 ∧ t.pm = ⟨.idle, 31⟩ ∧
         ((∃ bus size pitch : Word, t.results = s.results ++ [.flag true] ∧ bus ≠ 0#32 ∧
             t.fb = ⟨.ready, ⟨w, h, pitch, d, bus &&& 0x3FFFFFFF#32, size⟩⟩ ∧
             (s.dev.out = [] → s.cop.pending = [] → (∀ v ∈ s.dev.inq, v &&& 0xF#32 ≠ 8#32) →
               bus = t.word 24 ∧ size = t.word 25 ∧ pitch = t.word 29)) ∨
          (t.results = s.results ++ [.flag false] ∧ t.fb = s.fb))))

/-! ## The pixel writer and text (R143 to R145, R160 to R162) -/

/-- R143, R87: an in-bounds pixel inside the region: the bytes b, g, r, a at `y*pitch + 4*x` of the buffer; no other byte
and nothing else changes. -/
def Obligations.PutPixelWritesBGRA : Prop :=
  ∀ (s : State) (x y : Nat) (c : Color), s.Drawable → s.sched = [] → x < s.fb.desc.width.toNat →
    y < s.fb.desc.height.toNat →
    let off := y * s.fb.desc.pitch.toNat + 4 * x
    off + 4 ≤ s.fb.desc.size.toNat → s.fb.desc.buffer.toNat + off + 4 ≤ 2 ^ 32 →
    ∃ m : Memory,
      exec (.fbPutPixel x y c) s = .next { s with
        mem := m, cpu := [], pos := s.pos + 1, results := s.results ++ [.none] } ∧
      m.readByte (s.fb.desc.buffer.toNat + off) = c.b ∧ m.readByte (s.fb.desc.buffer.toNat + off + 1) = c.g ∧
      m.readByte (s.fb.desc.buffer.toNat + off + 2) = c.r ∧ m.readByte (s.fb.desc.buffer.toNat + off + 3) = c.a ∧
      ∀ a, s.offPixel x y a → m.readByte a = s.mem.readByte a

/-- R143: outside `0 ≤ x < width`, `0 ≤ y < height` a pixel is a no-op; an in-bounds pixel whose bytes leave the region or
pass 2^32 is FB_OUT_OF_REGION with none of its bytes written. -/
def Obligations.PutPixelOutOfBoundsOrRegion : Prop :=
  ∀ (s : State) (x y : Int) (c : Color), s.Drawable → s.sched = [] →
    ((x < 0 ∨ (s.fb.desc.width.toNat : Int) ≤ x ∨ y < 0 ∨ (s.fb.desc.height.toNat : Int) ≤ y) →
      exec (.fbPutPixel x y c) s = .next { s with
        cpu := [], pos := s.pos + 1, results := s.results ++ [.none] }) ∧
    (s.fault = none → s.refused = none →
      0 ≤ x → x < (s.fb.desc.width.toNat : Int) → 0 ≤ y → y < (s.fb.desc.height.toNat : Int) →
      ∀ off : Nat, off = y.toNat * s.fb.desc.pitch.toNat + 4 * x.toNat →
      (s.fb.desc.size.toNat < off + 4 ∨ 2 ^ 32 < s.fb.desc.buffer.toNat + off + 4) →
      exec (.fbPutPixel x y c) s = .next { s with
        fault := some (.fbOutOfRegion x y off), cpu := [], pos := s.pos + 1 })

/-- R141, R143 to R146, R161, R162: every drawing operation is refused before a successful `initialize`, then at a depth other
than 32; `draw_string` then refuses a text with a 0 byte. `initialize` in READY is REF_FB_REINIT; in a caller's build it
is REF_PM_PHASE. Nothing is written. -/
def Obligations.DriverRefusals : Prop :=
  ∀ (s : State) (x y w h : Int) (ch : Byte) (text : List Byte) (c d : Color) (width height depth : Word),
    s.fault = none → s.refused = none →
    (∀ i ∈ [Instr.fbPutPixel x y c, Instr.fbFillRect x y w h c, Instr.fbClear c, Instr.fbDrawChar x y ch c d,
            Instr.fbDrawString x y text c d],
      (s.fb.state = .uninit →
        exec i s = .next { s with refused := some .fbNotReady, cpu := [], pos := s.pos + 1 }) ∧
      (s.fb.state = .ready → s.fb.desc.depth ≠ 32#32 →
        exec i s = .next { s with refused := some .depthUnsupported, cpu := [], pos := s.pos + 1 })) ∧
    (s.Drawable → 0#8 ∈ text →
      exec (.fbDrawString x y text c d) s =
        .next { s with refused := some .textNul, cpu := [], pos := s.pos + 1 }) ∧
    (s.fb.state = .ready →
      exec (.fbInit width height depth) s =
        .next { s with refused := some .fbReinit, cpu := [], pos := s.pos + 1 }) ∧
    (s.fb.state = .uninit → s.pm.phase = .building →
      exec (.fbInit width height depth) s =
        .next { s with refused := some .pmPhase, cpu := [], pos := s.pos + 1 })

/-- R144: `fill_rect` on a region that holds every pixel paints exactly the intersection of the rectangle with the buffer:
each of its pixels has the colour (where the pitch keeps rows apart), and no byte outside its pixels changes. -/
def Obligations.FillRectPaintsIntersection : Prop :=
  ∀ (s : State) (x y w h : Int) (c : Color), s.Drawable → s.fb.desc.Fits → s.sched = [] →
    let hit (i j : Nat) : Prop := i < s.fb.desc.width.toNat ∧ j < s.fb.desc.height.toNat ∧
      x ≤ (i : Int) ∧ (i : Int) < x + w ∧ y ≤ (j : Int) ∧ (j : Int) < y + h
    ∃ t, exec (.fbFillRect x y w h c) s = .next t ∧
      t = { s with mem := t.mem, cpu := [], pos := s.pos + 1, results := s.results ++ [.none] } ∧
      (4 * s.fb.desc.width.toNat ≤ s.fb.desc.pitch.toNat → ∀ i j, hit i j → t.pixel i j = c) ∧
      ∀ a, (∀ i j, hit i j → s.offPixel i j a) → t.mem.readByte a = s.mem.readByte a

/-- R145: `clear` paints every pixel and no other byte: row padding and bytes past the last row keep their values. -/
def Obligations.ClearPaintsEveryPixel : Prop :=
  ∀ (s : State) (c : Color), s.Drawable → s.fb.desc.Fits → s.sched = [] →
    ∃ t, exec (.fbClear c) s = .next t ∧
      t = { s with mem := t.mem, cpu := [], pos := s.pos + 1, results := s.results ++ [.none] } ∧
      (4 * s.fb.desc.width.toNat ≤ s.fb.desc.pitch.toNat →
        ∀ i j, i < s.fb.desc.width.toNat → j < s.fb.desc.height.toNat → t.pixel i j = c) ∧
      ∀ a, (∀ i j, i < s.fb.desc.width.toNat → j < s.fb.desc.height.toNat → s.offPixel i j a) →
        t.mem.readByte a = s.mem.readByte a

/-- R89, R90, R160, R161: `draw_char` paints the 64 cells of the glyph that are in bounds, `fg` where bit `7 - column` of
the row's byte is set and `bg` elsewhere; the glyph is FONT[ch - 32] for 32..126, the fallback otherwise. No byte
outside those cells changes. -/
def Obligations.DrawCharPaintsGlyph : Prop :=
  ∀ (s : State) (x y : Int) (ch : Byte) (fg bg : Color), s.Drawable → s.fb.desc.Fits → s.sched = [] →
    let glyph : Glyph := if h : 32 ≤ ch.toNat ∧ ch.toNat ≤ 126 then s.cfg.font[ch.toNat - 32] else s.cfg.fallback
    ∃ t, exec (.fbDrawChar x y ch fg bg) s = .next t ∧
      t = { s with mem := t.mem, cpu := [], pos := s.pos + 1, results := s.results ++ [.none] } ∧
      (4 * s.fb.desc.width.toNat ≤ s.fb.desc.pitch.toNat →
        ∀ (row col : Fin 8) (i j : Nat), (i : Int) = x + col → (j : Int) = y + row →
          i < s.fb.desc.width.toNat → j < s.fb.desc.height.toNat →
          t.pixel i j = if glyph[row].getLsbD (7 - col) then fg else bg) ∧
      ∀ a, (∀ i j, i < s.fb.desc.width.toNat → j < s.fb.desc.height.toNat →
          x ≤ (i : Int) → (i : Int) < x + 8 → y ≤ (j : Int) → (j : Int) < y + 8 → s.offPixel i j a) →
        t.mem.readByte a = s.mem.readByte a

/-- R162: `draw_string` is `draw_char` of each character that is no newline, at the positions of R162: 8 right after a
character; 10 down and back to the origin's column (NL_RESET = ORIGIN) or to column 0 (ZERO) at a newline; no wrapping.
So in the source's text case (R163) "A\nB" at the origin draws 'A' at (0, 0) and 'B' at (0, 10), whichever NL_RESET is. -/
def Obligations.DrawStringDrawsEachCharacter : Prop :=
  ∀ (s : State) (x y : Int) (text : List Byte) (fg bg : Color), s.Drawable → s.fb.desc.Fits →
    s.sched = [] → s.Unmarked → 0#8 ∉ text →
    let left : Int := match s.cfg.nlReset with | .origin => x | .zero => 0
    (∃ t u, exec (.fbDrawString x y text fg bg) s = .next t ∧
      t = { s with mem := t.mem, cpu := [], pos := s.pos + 1, results := s.results ++ [.none] } ∧
      execAll ((textLayout left text x y).map fun p => .fbDrawChar p.1 p.2.1 p.2.2 fg bg) s = some u ∧
      t.mem = u.mem) ∧
    ∃ t u, exec (.fbDrawString 0 0 [0x41#8, 0x0A#8, 0x42#8] fg bg) s = .next t ∧
      execAll [.fbDrawChar 0 0 0x41#8 fg bg, .fbDrawChar 0 10 0x42#8 fg bg] s = some u ∧ t.mem = u.mem

/-- R51, R59, R175: a drawing operation, whatever its operands and whatever the state, changes no byte outside
`[buffer, buffer + size)`, and beside memory only the position, the result and the marks; where the regions are disjoint
it leaves every word of the message buffer as it was. -/
def Obligations.DrawingStaysInTheRegion : Prop :=
  ∀ (s : State) (x y w h : Int) (ch : Byte) (text : List Byte) (c d : Color), s.sched = [] →
    ∀ i ∈ [Instr.fbPutPixel x y c, Instr.fbFillRect x y w h c, Instr.fbClear c, Instr.fbDrawChar x y ch c d,
           Instr.fbDrawString x y text c d],
      ∃ t, exec i s = .next t ∧
      t = { s with mem := t.mem, fault := t.fault, refused := t.refused, cpu := [], pos := s.pos + 1,
                   results := t.results } ∧
      (∀ a, a < s.fb.desc.buffer.toNat ∨ s.fb.desc.buffer.toNat + s.fb.desc.size.toNat ≤ a →
        t.mem.readByte a = s.mem.readByte a) ∧
      (s.RegionsDisjoint → ∀ k, k < s.cfg.msgCapWords → t.word k = s.word k)

/-- R92, R174, R175: a composite drawing operation is `put_pixel` of its pixels, one after another, up to the first that
faults. What it leaves in memory and which fault it records are theirs, whether or not the region holds every pixel; and
where the pixels ahead of one draw and that one is in bounds but its bytes leave the region, the fault names that pixel
and memory is what the pixels ahead of it left. -/
def Obligations.DrawingIsItsPixels : Prop :=
  ∀ (s : State) (x y w h : Int) (ch : Byte) (text : List Byte) (c d : Color), s.Drawable → s.sched = [] → s.Unmarked →
    0#8 ∉ text →
    let left : Int := match s.cfg.nlReset with | .origin => x | .zero => 0
    let extent (z n : Int) (hi : Word) := rectPixels (max z 0) (min (z + n) hi.toNat)
    let W := s.fb.desc.width
    let H := s.fb.desc.height
    ∀ p ∈ ([(.fbFillRect x y w h c, extent x w W (max y 0) (min (y + h) H.toNat) c),
            (.fbClear c, extent 0 W.toNat W 0 H.toNat c),
            (.fbDrawChar x y ch c d, charPixels (glyphOf s.cfg ch) x y c d),
            (.fbDrawString x y text c d, (textLayout left text x y).flatMap fun g =>
              charPixels (glyphOf s.cfg g.2.2) g.1 g.2.1 c d)] : List (Instr × List Pixel)),
      let u := putEach p.2 s
      exec p.1 s = .next { s with
        mem := u.mem, fault := u.fault, cpu := [], pos := s.pos + 1,
        results := s.results ++ if u.fault = none then [.none] else [] } ∧
      ∀ pre q post, p.2 = pre ++ q :: post → (putEach pre s).fault = none →
        0 ≤ q.x → q.x < (W.toNat : Int) → 0 ≤ q.y → q.y < (H.toNat : Int) →
        let off := q.y.toNat * s.fb.desc.pitch.toNat + 4 * q.x.toNat
        s.fb.desc.size.toNat < off + 4 ∨ 2 ^ 32 < s.fb.desc.buffer.toNat + off + 4 →
        u.fault = some (.fbOutOfRegion q.x q.y off) ∧ u.mem = (putEach pre s).mem

/-! ## The machine -/

/-- A step runs the decoded instruction (R13, R22): when it is the CPU's turn, nothing is recorded, the CPU is between
operations and the item at its position decodes to `i`, the step is `exec i`. -/
def Obligations.StepRunsTheDecodedInstruction : Prop :=
  ∀ (s : State) (item : Issue) (i : Instr), s.Unmarked → s.cpu = [] →
    s.ops[s.pos]? = some item → decode s.cfg item = .ok i →
    (s.sched = [] → step s = exec i s) ∧
    ∀ rest, s.sched = .cpu :: rest → step s = exec i { s with sched := rest }

/-- R13, R106, R176: when the schedule gives the coprocessor the next step, that step is the coprocessor's, whether or not
the CPU has been stopped; and "once either is set the CPU agent has no step": on the CPU's turn a recorded fault or
refusal is what the step answers. -/
def Obligations.StepFollowsTheSchedule : Prop :=
  ∀ s : State,
    (∀ e rest, s.sched = .cop e :: rest →
      ∃ t, step s = .next t ∧ t = copStep e { s with sched := rest } ∧
        t.fault = s.fault ∧ t.refused = s.refused ∧ t.pos = s.pos ∧ t.cpu = s.cpu) ∧
    ((s.sched = [] ∨ ∃ rest, s.sched = .cpu :: rest) →
      (∀ f, s.fault = some f → step s = .fault f) ∧
      (∀ r, s.fault = none → s.refused = some r → step s = .refused r))

/-- R22, R60, section 3 of spec/40_mailbox_transport.md: an operation is the turns of its schedule, one by one. Beginning it
alone, then taking the turns of the schedule one at a time as far as the operation goes (and, where the schedule has
ended, turns of the CPU), leads to the state that executing it answers. So a coprocessor step lands between any two
steps of the CPU. -/
def Obligations.OperationsAreTheirTurns : Prop :=
  ∀ (i : Instr) (s : State), s.Unmarked →
    ∃ (t l : State) (used : List Turn) (k : Nat),
      exec i s = .next t ∧ exec i { s with sched := [.pause] } = .next l ∧
      s.sched = used ++ t.sched ∧ (k = 0 ∨ t.sched = []) ∧
      turns (used ++ List.replicate k .cpu) { l with sched := [] } = { t with sched := [] }

/-- R107, R108, section 3 of spec/40_mailbox_transport.md: an operation of the builder or of drawing reads nothing that the
coprocessor writes. Under every schedule (that does not pause) it ends as it would with a coprocessor that takes no
step, in builder, driver, marks, position and results; the queues and PENDING are what the coprocessor's steps alone
make of them; and memory is the same too where no answer can land in it. -/
def Obligations.BuffersAreWrittenBesideTheCoprocessor : Prop :=
  ∀ (i : Instr) (s : State), localOperation i = true → .pause ∉ s.sched →
    ∃ (t u : State) (used : List Turn),
      exec i s = .next t ∧ exec i { s with sched := [] } = .next u ∧ s.sched = used ++ t.sched ∧
      t = { u with dev := t.dev, cop := t.cop, mem := t.mem, sched := t.sched } ∧
      t.dev = (copRun used s).dev ∧ t.cop = (copRun used s).cop ∧
      (s.Undisturbed → t.mem = u.mem)

/-- R41, R176: a recorded fault or refusal is never cleared or overwritten: not by a step, and not by any operation. -/
def Obligations.MarksAreSticky : Prop :=
  ∀ s t : State, (step s = .next t ∨ ∃ i, exec i s = .next t) →
    (∀ f, s.fault = some f → t.fault = some f ∧ t.refused = s.refused) ∧
    (∀ r, s.refused = some r → t.refused = some r ∧ t.fault = s.fault)

/-- R22: an operation that returned, faulted or was refused advances the position by one; one that is under way does not,
and returns nothing. Where the schedule does not pause, only a poll loop holds an operation: it waits with the schedule
at its end. -/
def Obligations.PositionAdvancesByOneOrWaits : Prop :=
  ∀ (i : Instr) (s : State), ∃ t, exec i s = .next t ∧
    ((t.cpu = [] ∧ t.pos = s.pos + 1) ∨
     (t.cpu ≠ [] ∧ t.pos = s.pos ∧ t.results = s.results ∧ (.pause ∈ s.sched ∨ t.sched = [] ∧ t.InPoll)))

/-- R38: while the driver is READY no step writes its state or its descriptor. (The premise rules out states in which an
`initialize` is under way although the driver is READY, which no run reaches.) -/
def Obligations.ReadyDescriptorIsImmutable : Prop :=
  ∀ s t : State, s.Inv → step s = .next t → s.fb.state = .ready → t.fb = s.fb

/-- R146: of all operations only `initialize` makes the driver READY, and then with the width, height and depth it was
given and true as its result. -/
def Obligations.OnlyInitializeMakesReady : Prop :=
  ∀ (i : Instr) (s t : State), exec i s = .next t → s.fb.state = .uninit → t.fb.state = .ready →
    ∃ w h d, i = .fbInit w h d ∧ t.fb.desc.width = w ∧ t.fb.desc.height = h ∧ t.fb.desc.depth = d ∧
      t.results = s.results ++ [.flag true]

/-- R20, R21, R40: no step writes the parameters (the font among them) or the caller's sequence. -/
def Obligations.ParametersAndProgramAreFixed : Prop :=
  ∀ s t : State, step s = .next t → t.cfg = s.cfg ∧ t.ops = s.ops

/-- R23, R24, R33, R37, R41, R50: the invariant of the machine is kept by every step: memory stays canonical, the queues
stay within their depth, only channel-8 words are sent, the cursor of a build stays in the buffer, a ready buffer
address has no alias bits, and at most one mark is recorded. -/
def Obligations.EveryStepKeepsTheInvariant : Prop :=
  ∀ s t : State, s.Inv → step s = .next t → t.Inv

/-- The invariant holds right after reset (with the default parameters, the model's choice where they are OPEN:
notes/assumptions/3.md). -/
def Obligations.ResetMeetsTheInvariant : Prop := State.reset.Inv

/-- R190 where it gives a value: after reset the queues hold nothing but INITIAL_IN, nothing is pending, the builder is
IDLE, the driver UNINIT and nothing is recorded; STATUS then has FULL = 0 and EMPTY = 1. -/
def Obligations.ResetValues : Prop :=
  State.reset.LaunchClean ∧ State.reset.cpu = [] ∧ State.reset.pos = 0 ∧
  State.reset.statusWord.getLsbD 31 = false ∧ State.reset.statusWord.getLsbD 30 = true

/-- R57, R71, R72, R85, R173: on the CPU's turn, an operation item whose selector is not in R71's table is refused
REF_UNKNOWN_OP, and a raw access at an offset at which no register stands is refused REF_MMIO_OTHER, whatever its width
and direction. The layout of an item's bytes is the model's choice (notes/assumptions/2.md), and so is that
REF_MMIO_OTHER is the verdict whatever bytes follow the offset, bytes that are no access included. -/
def Obligations.UnknownItemsAreRefused : Prop :=
  ∀ s : State, s.Unmarked → s.cpu = [] → (s.sched = [] ∨ ∃ rest, s.sched = .cpu :: rest) →
    (∀ (sel : Byte) (operands : List Byte), s.ops[s.pos]? = some ⟨.operation, sel :: operands⟩ →
      sel.toNat ∉ [0x01, 0x02, 0x03, 0x10, 0x11, 0x12, 0x20, 0x21, 0x22, 0x23, 0x24, 0x30, 0x31, 0x32, 0x33, 0x34,
                   0x40, 0x41] →
      step s = .next { s with refused := some (.unknownOp sel), pos := s.pos + 1, sched := s.sched.tail }) ∧
    ∀ (off : Word) (access : List Byte), s.ops[s.pos]? = some ⟨.register, bytesOfWord off ++ access⟩ →
      off ∉ [s.cfg.offRead, s.cfg.offStatus, s.cfg.offWrite] →
      step s = .next { s with refused := some .mmioOther, pos := s.pos + 1, sched := s.sched.tail }

/-! ## Encodings -/

/-- Decode and encode agree: with registers at three offsets (R72), every well-formed instruction, with every value of its
operands, is what its encoding decodes to. (The layout of operands is the model's: notes/assumptions/2.md.) -/
def Obligations.DecodeInvertsEncode : Prop :=
  ∀ (p : Config.Params) (i : Instr), p.Wf → i.WellFormed = true → decode p (encode p i) = .ok i

/-- R71, R72, R74, R82, R83: words written out from the spec's tables decode to the rows they stand for; the registers stand
at R59's default addresses. -/
def Obligations.WordsFromTheTablesDecode : Prop :=
  let decode := decode Config.defaults
  decode ⟨.operation, [0x10, 8, 0, 0, 0, 0x00, 0x00, 0x08, 0x00]⟩ = .ok (.mbSend 8#32 0x00080000#32) ∧
  decode ⟨.operation, [0x22]⟩ = .ok .pmFinish ∧
  decode ⟨.operation, [0x30, 0x60, 0x45, 0x23, 0xC1]⟩ = .ok (.fbBusToCpu 0xC1234560#32) ∧
  decode ⟨.register, [0x18, 0, 0, 0, 0]⟩ = .ok (.regStatus (.read 32)) ∧
  decode ⟨.mailboxWord, [0x08, 0x00, 0x08, 0x00, 0]⟩ = .ok (.mboxWordCh8 .toCop 0x0008000#28) ∧
  decode ⟨.tagBlock, [0x05, 0x80, 0x04, 0x00, 32, 0, 0, 0]⟩ = .ok (.tagSetDepth 32#32) ∧
  decode ⟨.responseCode, [0x01, 0x00, 0x00, 0x80]⟩ = .ok .respSuccess ∧
  [Config.Register.read, .status, .write].map Config.defaults.registerAddr = [0x3F00B880, 0x3F00B898, 0x3F00B8A0]
end

