-- ==== Sys2Proof/Laws/Decode.lean ====
section
/-! SUPPORT. Reading back what the encoder puts: one lemma per reader, each with any bytes after (a prover chains them with
`Parsed.andThen_ok`), and where the registers are found (R72). -/

namespace Sys2Proof

theorem Parsed.andThen_ok {α β : Type} {p : Parsed α} {a : α} {rest : List Byte} (h : p = .ok (a, rest))
    (f : α → List Byte → Parsed β) : p.andThen f = f a rest := by
  rw [h]; rfl

@[simp] theorem Parsed.ok_andThen {α β : Type} (a : α) (rest : List Byte) (f : α → List Byte → Parsed β) :
    Parsed.andThen (.ok (a, rest)) f = f a rest := rfl

theorem wordOfBytes_byteOf (v : Word) : wordOfBytes (byteOf v 0) (byteOf v 1) (byteOf v 2) (byteOf v 3) = v := by
  apply BitVec.eq_of_getLsbD_eq
  intro i hi
  simp only [wordOfBytes, byteOf, BitVec.getLsbD_append, BitVec.getLsbD_extractLsb']
  split
  · simp; omega
  · split
    · rw [show 8 * 1 + (i - 8) = i by omega]; simp; omega
    · split
      · rw [show 8 * 2 + (i - 8 - 8) = i by omega]; simp; omega
      · rw [show 8 * 3 + (i - 8 - 8 - 8) = i by omega]; simp; omega

/-- The bytes of a little-endian word (R54). -/
theorem bytesOfWord_wordOfBytes (b0 b1 b2 b3 : Byte) : bytesOfWord (wordOfBytes b0 b1 b2 b3) = [b0, b1, b2, b3] := by
  simp only [bytesOfWord, byteOf, wordOfBytes, List.cons.injEq, and_true]
  refine ⟨?_, ?_, ?_, ?_⟩ <;>
    (apply BitVec.eq_of_getLsbD_eq
     intro i hi
     simp only [BitVec.getLsbD_extractLsb', BitVec.getLsbD_append]
     simp only [hi, decide_true, Bool.true_and])
  · simp [hi]
  · rw [if_neg (by omega), if_pos (by omega)]; congr 1; omega
  · rw [if_neg (by omega), if_neg (by omega), if_pos (by omega)]; congr 1; omega
  · rw [if_neg (by omega), if_neg (by omega), if_neg (by omega)]; congr 1; omega

@[simp] theorem getByte_cons (b : Byte) (rest : List Byte) : getByte (b :: rest) = .ok (b, rest) := rfl

theorem getWord_put (v : Word) (rest : List Byte) : getWord (bytesOfWord v ++ rest) = .ok (v, rest) := by
  show Except.ok (wordOfBytes (byteOf v 0) (byteOf v 1) (byteOf v 2) (byteOf v 3), rest) = _
  rw [wordOfBytes_byteOf]

theorem getNat_putNatFuel (fuel n : Nat) (h : n ≤ fuel) (rest : List Byte) :
    getNat (putNatFuel fuel n ++ rest) = .ok (n, rest) := by
  induction fuel generalizing n with
  | zero => obtain rfl : n = 0 := by omega
            rfl
  | succ fuel ih =>
    unfold putNatFuel
    split
    · rename_i hn
      simp only [List.singleton_append, getNat, BitVec.toNat_ofNat]
      rw [Nat.mod_eq_of_lt (by omega), if_pos hn]
    · rename_i hn
      simp only [List.cons_append, getNat, BitVec.toNat_ofNat]
      rw [Nat.mod_eq_of_lt (a := n % 128 + 128) (by omega), if_neg (by omega), ih _ (by omega)]
      dsimp only
      rw [show n % 128 + 128 - 128 + 128 * (n / 128) = n by omega]

theorem getNat_put (n : Nat) (rest : List Byte) : getNat (putNat n ++ rest) = .ok (n, rest) :=
  getNat_putNatFuel n n (le_refl n) rest

theorem intOfNat_natOfInt (x : Int) : intOfNat (natOfInt x) = x := by
  unfold intOfNat natOfInt
  split <;> split <;> omega

theorem getInt_put (x : Int) (rest : List Byte) : getInt (putInt x ++ rest) = .ok (x, rest) := by
  unfold getInt putInt
  rw [Parsed.andThen_ok (getNat_put _ _), intOfNat_natOfInt]

theorem getColor_put (c : Color) (rest : List Byte) : getColor (putColor c ++ rest) = .ok (c, rest) := rfl

/-- Members put one after another are read back one after another. -/
theorem getMany_put {α : Type} {get : List Byte → Parsed α} {put : α → List Byte}
    (h : ∀ a rest, get (put a ++ rest) = .ok (a, rest)) (as : List α) (rest : List Byte) :
    getMany get as.length (as.flatMap put ++ rest) = .ok (as, rest) := by
  induction as with
  | nil => rfl
  | cons a as ih =>
    rw [List.length_cons, List.flatMap_cons, List.append_assoc, getMany, Parsed.andThen_ok (h _ _),
      Parsed.andThen_ok ih]

theorem getList_put {α : Type} {get : List Byte → Parsed α} {put : α → List Byte}
    (h : ∀ a rest, get (put a ++ rest) = .ok (a, rest)) (as : List α) (rest : List Byte) :
    getList get (putNat as.length ++ (as.flatMap put ++ rest)) = .ok (as, rest) := by
  rw [getList, Parsed.andThen_ok (getNat_put _ _), getMany_put h]

/-- The bytes of a string are its own encoding. -/
theorem getList_putBytes (bs rest : List Byte) :
    getList getByte (putNat bs.length ++ (bs ++ rest)) = .ok (bs, rest) := by
  have h := getList_put (get := getByte) (put := fun b => [b]) (fun _ _ => rfl) bs rest
  rwa [show bs.flatMap (fun b => [b]) = bs by induction bs <;> simp_all] at h

theorem getDraw_put (d : Option Word) (rest : List Byte) : getDraw (putDraw d ++ rest) = .ok (d, rest) := by
  cases d with
  | none => rfl
  | some w =>
    show (getWord (bytesOfWord w ++ rest)).andThen (fun w bs => .ok (some w, bs)) = _
    rw [Parsed.andThen_ok (getWord_put w rest)]

theorem getMove_put (m : WordMove) (rest : List Byte) : getMove (putMove m ++ rest) = .ok (m, rest) := by
  cases m with
  | toCop => rfl
  | toCpu ds =>
    have h := getList_put getDraw_put ds rest
    show (getList getDraw ((putNat ds.length ++ ds.flatMap putDraw) ++ rest)).andThen _ = _
    rw [List.append_assoc]
    exact Parsed.andThen_ok h _

theorem getAccess_put (a : RawAccess) (h : a.WellFormed = true) (rest : List Byte) :
    getAccess (putAccess a ++ rest) = .ok (a, rest) := by
  cases a with
  | read bits =>
    show getAccess (ite _ _ _ ++ rest) = _
    split
    · subst bits; rfl
    · exact Parsed.andThen_ok (getNat_put bits rest) _
  | write bits v =>
    have hv : v < 2 ^ bits := by simpa [RawAccess.WellFormed] using h
    show getAccess (ite _ _ _ ++ rest) = _
    split
    · subst bits
      have fit : (BitVec.ofNat 32 v).toNat = v := by rw [BitVec.toNat_ofNat, Nat.mod_eq_of_lt hv]
      simp [getAccess, Parsed.andThen_ok (getWord_put _ _), fit]
    · simp [getAccess, Parsed.andThen_ok (getNat_put _ _), hv]

/-- An item of an operation, a tag, ... decodes once its level's decoder has read all its bytes. -/
theorem decode_of {p : Config.Params} {iss : Issue} {i : Instr} (h : decodeAt p iss.level iss.bytes = .ok (i, [])) :
    decode p iss = .ok i := by
  unfold decode
  rw [h]; rfl

/-! ## Registers -/

/-- An access is at a register's address when its offset is the register's (R72). -/
theorem accessAddr_eq_registerAddr {p : Config.Params} {off : Word} {r : Config.Register} :
    p.accessAddr off = p.registerAddr r ↔ off = p.offset r := by
  constructor
  · intro h
    apply BitVec.eq_of_toNat_eq
    simp only [Config.Params.accessAddr, Config.Params.registerAddr] at h
    omega
  · rintro rfl; rfl

/-- Registers at three offsets are found where they stand (R72). -/
theorem registerAt_offset {p : Config.Params} (h : p.Wf) (r : Config.Register) :
    p.registerAt (p.accessAddr (p.offset r)) = some r := by
  obtain ⟨h1, h2, h3⟩ := h.regApart
  cases r <;>
    simp only [Config.Params.registerAt, accessAddr_eq_registerAddr, Config.Params.offset, h1.symm, h2.symm, h3.symm,
      if_true, if_false]

/-- No other offset has a register (R57, R72). -/
theorem registerAt_none {p : Config.Params} {off : Word} (h : off ∉ [p.offRead, p.offStatus, p.offWrite]) :
    p.registerAt (p.accessAddr off) = none := by
  simp only [List.mem_cons, List.not_mem_nil, or_false, not_or] at h
  simp only [Config.Params.registerAt, accessAddr_eq_registerAddr, Config.Params.offset, h.1, h.2.1, h.2.2, if_false]

/-! ## Mailbox words -/

theorem addrField_wordOfFields (a : BitVec 28) (c : BitVec 4) : addrField (wordOfFields a c) = a := by
  apply BitVec.eq_of_getLsbD_eq
  intro i hi
  simp only [addrField, wordOfFields, BitVec.getLsbD_extractLsb', BitVec.getLsbD_append]
  rw [if_neg (by omega), show 4 + i - 4 = i by omega]
  simp; omega

theorem chanField_wordOfFields (a : BitVec 28) (c : BitVec 4) : chanField (wordOfFields a c) = c := by
  apply BitVec.eq_of_getLsbD_eq
  intro i hi
  simp only [chanField, wordOfFields, BitVec.getLsbD_extractLsb', BitVec.getLsbD_append]
  rw [if_pos (by omega)]
  simp; omega

end Sys2Proof
end

