-- ==== Sys2Proof/Laws/State.lean ====
section
/-! SUPPORT. One lemma per field per update of the state, so that no later proof unfolds a record update; what recording
a mark leaves; and the flags and buffer words under each update. -/

namespace Sys2Proof.Machine

/-- Words written one after another from an address up: what the word writes of a block leave. -/
def Memory.writeWords (m : Memory) (a : Nat) : List Word → Memory
  | [] => m
  | v :: vs => (m.writeWord a v).writeWords (a + 4) vs

/-- The four byte writes of a pixel, b, g, r, a at offsets 0, 1, 2, 3 (R87, R143, D29), when all are done. -/
def Memory.writePixel (m : Memory) (a : Nat) (c : Color) : Memory :=
  (((m.writeByte a c.b).writeByte (a + 1) c.g).writeByte (a + 2) c.r).writeByte (a + 3) c.a

/-- The words of a block in the buffer, when all are written. -/
def State.setWords (s : State) (i : Nat) (vs : List Word) : State := s.withMem (s.mem.writeWords (s.wordAddr i) vs)

variable (s : State)

@[simp] theorem State.withOut_dev (q : List Word) : (s.withOut q).dev = { s.dev with out := q } := rfl
@[simp] theorem State.withOut_cop (q : List Word) : (s.withOut q).cop = s.cop := rfl
@[simp] theorem State.withOut_mem (q : List Word) : (s.withOut q).mem = s.mem := rfl
@[simp] theorem State.withOut_pm (q : List Word) : (s.withOut q).pm = s.pm := rfl
@[simp] theorem State.withOut_fb (q : List Word) : (s.withOut q).fb = s.fb := rfl
@[simp] theorem State.withOut_fault (q : List Word) : (s.withOut q).fault = s.fault := rfl
@[simp] theorem State.withOut_refused (q : List Word) : (s.withOut q).refused = s.refused := rfl
@[simp] theorem State.withOut_cpu (q : List Word) : (s.withOut q).cpu = s.cpu := rfl
@[simp] theorem State.withOut_pos (q : List Word) : (s.withOut q).pos = s.pos := rfl
@[simp] theorem State.withOut_ops (q : List Word) : (s.withOut q).ops = s.ops := rfl
@[simp] theorem State.withOut_results (q : List Word) : (s.withOut q).results = s.results := rfl
@[simp] theorem State.withOut_cfg (q : List Word) : (s.withOut q).cfg = s.cfg := rfl
@[simp] theorem State.withOut_sched (q : List Word) : (s.withOut q).sched = s.sched := rfl
@[simp] theorem State.withOut_drawn (q : List Word) : (s.withOut q).drawn = s.drawn := rfl

@[simp] theorem State.withIn_dev (q : List Word) : (s.withIn q).dev = { s.dev with inq := q } := rfl
@[simp] theorem State.withIn_cop (q : List Word) : (s.withIn q).cop = s.cop := rfl
@[simp] theorem State.withIn_mem (q : List Word) : (s.withIn q).mem = s.mem := rfl
@[simp] theorem State.withIn_pm (q : List Word) : (s.withIn q).pm = s.pm := rfl
@[simp] theorem State.withIn_fb (q : List Word) : (s.withIn q).fb = s.fb := rfl
@[simp] theorem State.withIn_fault (q : List Word) : (s.withIn q).fault = s.fault := rfl
@[simp] theorem State.withIn_refused (q : List Word) : (s.withIn q).refused = s.refused := rfl
@[simp] theorem State.withIn_cpu (q : List Word) : (s.withIn q).cpu = s.cpu := rfl
@[simp] theorem State.withIn_pos (q : List Word) : (s.withIn q).pos = s.pos := rfl
@[simp] theorem State.withIn_ops (q : List Word) : (s.withIn q).ops = s.ops := rfl
@[simp] theorem State.withIn_results (q : List Word) : (s.withIn q).results = s.results := rfl
@[simp] theorem State.withIn_cfg (q : List Word) : (s.withIn q).cfg = s.cfg := rfl
@[simp] theorem State.withIn_sched (q : List Word) : (s.withIn q).sched = s.sched := rfl
@[simp] theorem State.withIn_drawn (q : List Word) : (s.withIn q).drawn = s.drawn := rfl

@[simp] theorem State.withPending_dev (p : List Request) : (s.withPending p).dev = s.dev := rfl
@[simp] theorem State.withPending_cop (p : List Request) : (s.withPending p).cop = ⟨p⟩ := rfl
@[simp] theorem State.withPending_mem (p : List Request) : (s.withPending p).mem = s.mem := rfl
@[simp] theorem State.withPending_pm (p : List Request) : (s.withPending p).pm = s.pm := rfl
@[simp] theorem State.withPending_fb (p : List Request) : (s.withPending p).fb = s.fb := rfl
@[simp] theorem State.withPending_fault (p : List Request) : (s.withPending p).fault = s.fault := rfl
@[simp] theorem State.withPending_refused (p : List Request) : (s.withPending p).refused = s.refused := rfl
@[simp] theorem State.withPending_cpu (p : List Request) : (s.withPending p).cpu = s.cpu := rfl
@[simp] theorem State.withPending_pos (p : List Request) : (s.withPending p).pos = s.pos := rfl
@[simp] theorem State.withPending_ops (p : List Request) : (s.withPending p).ops = s.ops := rfl
@[simp] theorem State.withPending_results (p : List Request) : (s.withPending p).results = s.results := rfl
@[simp] theorem State.withPending_cfg (p : List Request) : (s.withPending p).cfg = s.cfg := rfl
@[simp] theorem State.withPending_sched (p : List Request) : (s.withPending p).sched = s.sched := rfl
@[simp] theorem State.withPending_drawn (p : List Request) : (s.withPending p).drawn = s.drawn := rfl

@[simp] theorem State.withMem_dev (m : Memory) : (s.withMem m).dev = s.dev := rfl
@[simp] theorem State.withMem_cop (m : Memory) : (s.withMem m).cop = s.cop := rfl
@[simp] theorem State.withMem_mem (m : Memory) : (s.withMem m).mem = m := rfl
@[simp] theorem State.withMem_pm (m : Memory) : (s.withMem m).pm = s.pm := rfl
@[simp] theorem State.withMem_fb (m : Memory) : (s.withMem m).fb = s.fb := rfl
@[simp] theorem State.withMem_fault (m : Memory) : (s.withMem m).fault = s.fault := rfl
@[simp] theorem State.withMem_refused (m : Memory) : (s.withMem m).refused = s.refused := rfl
@[simp] theorem State.withMem_cpu (m : Memory) : (s.withMem m).cpu = s.cpu := rfl
@[simp] theorem State.withMem_pos (m : Memory) : (s.withMem m).pos = s.pos := rfl
@[simp] theorem State.withMem_ops (m : Memory) : (s.withMem m).ops = s.ops := rfl
@[simp] theorem State.withMem_results (m : Memory) : (s.withMem m).results = s.results := rfl
@[simp] theorem State.withMem_cfg (m : Memory) : (s.withMem m).cfg = s.cfg := rfl
@[simp] theorem State.withMem_sched (m : Memory) : (s.withMem m).sched = s.sched := rfl
@[simp] theorem State.withMem_drawn (m : Memory) : (s.withMem m).drawn = s.drawn := rfl

@[simp] theorem State.withPm_dev (p : Builder) : (s.withPm p).dev = s.dev := rfl
@[simp] theorem State.withPm_cop (p : Builder) : (s.withPm p).cop = s.cop := rfl
@[simp] theorem State.withPm_mem (p : Builder) : (s.withPm p).mem = s.mem := rfl
@[simp] theorem State.withPm_pm (p : Builder) : (s.withPm p).pm = p := rfl
@[simp] theorem State.withPm_fb (p : Builder) : (s.withPm p).fb = s.fb := rfl
@[simp] theorem State.withPm_fault (p : Builder) : (s.withPm p).fault = s.fault := rfl
@[simp] theorem State.withPm_refused (p : Builder) : (s.withPm p).refused = s.refused := rfl
@[simp] theorem State.withPm_cpu (p : Builder) : (s.withPm p).cpu = s.cpu := rfl
@[simp] theorem State.withPm_pos (p : Builder) : (s.withPm p).pos = s.pos := rfl
@[simp] theorem State.withPm_ops (p : Builder) : (s.withPm p).ops = s.ops := rfl
@[simp] theorem State.withPm_results (p : Builder) : (s.withPm p).results = s.results := rfl
@[simp] theorem State.withPm_cfg (p : Builder) : (s.withPm p).cfg = s.cfg := rfl
@[simp] theorem State.withPm_sched (p : Builder) : (s.withPm p).sched = s.sched := rfl
@[simp] theorem State.withPm_drawn (p : Builder) : (s.withPm p).drawn = s.drawn := rfl

@[simp] theorem State.withFb_dev (d : Driver) : (s.withFb d).dev = s.dev := rfl
@[simp] theorem State.withFb_cop (d : Driver) : (s.withFb d).cop = s.cop := rfl
@[simp] theorem State.withFb_mem (d : Driver) : (s.withFb d).mem = s.mem := rfl
@[simp] theorem State.withFb_pm (d : Driver) : (s.withFb d).pm = s.pm := rfl
@[simp] theorem State.withFb_fb (d : Driver) : (s.withFb d).fb = d := rfl
@[simp] theorem State.withFb_fault (d : Driver) : (s.withFb d).fault = s.fault := rfl
@[simp] theorem State.withFb_refused (d : Driver) : (s.withFb d).refused = s.refused := rfl
@[simp] theorem State.withFb_cpu (d : Driver) : (s.withFb d).cpu = s.cpu := rfl
@[simp] theorem State.withFb_pos (d : Driver) : (s.withFb d).pos = s.pos := rfl
@[simp] theorem State.withFb_ops (d : Driver) : (s.withFb d).ops = s.ops := rfl
@[simp] theorem State.withFb_results (d : Driver) : (s.withFb d).results = s.results := rfl
@[simp] theorem State.withFb_cfg (d : Driver) : (s.withFb d).cfg = s.cfg := rfl
@[simp] theorem State.withFb_sched (d : Driver) : (s.withFb d).sched = s.sched := rfl
@[simp] theorem State.withFb_drawn (d : Driver) : (s.withFb d).drawn = s.drawn := rfl

@[simp] theorem State.withCpu_dev (c : List Micro) : (s.withCpu c).dev = s.dev := rfl
@[simp] theorem State.withCpu_cop (c : List Micro) : (s.withCpu c).cop = s.cop := rfl
@[simp] theorem State.withCpu_mem (c : List Micro) : (s.withCpu c).mem = s.mem := rfl
@[simp] theorem State.withCpu_pm (c : List Micro) : (s.withCpu c).pm = s.pm := rfl
@[simp] theorem State.withCpu_fb (c : List Micro) : (s.withCpu c).fb = s.fb := rfl
@[simp] theorem State.withCpu_fault (c : List Micro) : (s.withCpu c).fault = s.fault := rfl
@[simp] theorem State.withCpu_refused (c : List Micro) : (s.withCpu c).refused = s.refused := rfl
@[simp] theorem State.withCpu_cpu (c : List Micro) : (s.withCpu c).cpu = c := rfl
@[simp] theorem State.withCpu_pos (c : List Micro) : (s.withCpu c).pos = s.pos := rfl
@[simp] theorem State.withCpu_ops (c : List Micro) : (s.withCpu c).ops = s.ops := rfl
@[simp] theorem State.withCpu_results (c : List Micro) : (s.withCpu c).results = s.results := rfl
@[simp] theorem State.withCpu_cfg (c : List Micro) : (s.withCpu c).cfg = s.cfg := rfl
@[simp] theorem State.withCpu_sched (c : List Micro) : (s.withCpu c).sched = s.sched := rfl
@[simp] theorem State.withCpu_drawn (c : List Micro) : (s.withCpu c).drawn = s.drawn := rfl

@[simp] theorem State.withSched_dev (t : List Turn) : (s.withSched t).dev = s.dev := rfl
@[simp] theorem State.withSched_cop (t : List Turn) : (s.withSched t).cop = s.cop := rfl
@[simp] theorem State.withSched_mem (t : List Turn) : (s.withSched t).mem = s.mem := rfl
@[simp] theorem State.withSched_pm (t : List Turn) : (s.withSched t).pm = s.pm := rfl
@[simp] theorem State.withSched_fb (t : List Turn) : (s.withSched t).fb = s.fb := rfl
@[simp] theorem State.withSched_fault (t : List Turn) : (s.withSched t).fault = s.fault := rfl
@[simp] theorem State.withSched_refused (t : List Turn) : (s.withSched t).refused = s.refused := rfl
@[simp] theorem State.withSched_cpu (t : List Turn) : (s.withSched t).cpu = s.cpu := rfl
@[simp] theorem State.withSched_pos (t : List Turn) : (s.withSched t).pos = s.pos := rfl
@[simp] theorem State.withSched_ops (t : List Turn) : (s.withSched t).ops = s.ops := rfl
@[simp] theorem State.withSched_results (t : List Turn) : (s.withSched t).results = s.results := rfl
@[simp] theorem State.withSched_cfg (t : List Turn) : (s.withSched t).cfg = s.cfg := rfl
@[simp] theorem State.withSched_sched (t : List Turn) : (s.withSched t).sched = t := rfl
@[simp] theorem State.withSched_drawn (t : List Turn) : (s.withSched t).drawn = s.drawn := rfl

@[simp] theorem State.withDrawn_dev (n : Nat) : (s.withDrawn n).dev = s.dev := rfl
@[simp] theorem State.withDrawn_cop (n : Nat) : (s.withDrawn n).cop = s.cop := rfl
@[simp] theorem State.withDrawn_mem (n : Nat) : (s.withDrawn n).mem = s.mem := rfl
@[simp] theorem State.withDrawn_pm (n : Nat) : (s.withDrawn n).pm = s.pm := rfl
@[simp] theorem State.withDrawn_fb (n : Nat) : (s.withDrawn n).fb = s.fb := rfl
@[simp] theorem State.withDrawn_fault (n : Nat) : (s.withDrawn n).fault = s.fault := rfl
@[simp] theorem State.withDrawn_refused (n : Nat) : (s.withDrawn n).refused = s.refused := rfl
@[simp] theorem State.withDrawn_cpu (n : Nat) : (s.withDrawn n).cpu = s.cpu := rfl
@[simp] theorem State.withDrawn_pos (n : Nat) : (s.withDrawn n).pos = s.pos := rfl
@[simp] theorem State.withDrawn_ops (n : Nat) : (s.withDrawn n).ops = s.ops := rfl
@[simp] theorem State.withDrawn_results (n : Nat) : (s.withDrawn n).results = s.results := rfl
@[simp] theorem State.withDrawn_cfg (n : Nat) : (s.withDrawn n).cfg = s.cfg := rfl
@[simp] theorem State.withDrawn_sched (n : Nat) : (s.withDrawn n).sched = s.sched := rfl
@[simp] theorem State.withDrawn_drawn (n : Nat) : (s.withDrawn n).drawn = n := rfl

@[simp] theorem State.returned_dev (r : Result) : (s.returned r).dev = s.dev := rfl
@[simp] theorem State.returned_cop (r : Result) : (s.returned r).cop = s.cop := rfl
@[simp] theorem State.returned_mem (r : Result) : (s.returned r).mem = s.mem := rfl
@[simp] theorem State.returned_pm (r : Result) : (s.returned r).pm = s.pm := rfl
@[simp] theorem State.returned_fb (r : Result) : (s.returned r).fb = s.fb := rfl
@[simp] theorem State.returned_fault (r : Result) : (s.returned r).fault = s.fault := rfl
@[simp] theorem State.returned_refused (r : Result) : (s.returned r).refused = s.refused := rfl
@[simp] theorem State.returned_cpu (r : Result) : (s.returned r).cpu = [] := rfl
@[simp] theorem State.returned_pos (r : Result) : (s.returned r).pos = s.pos + 1 := rfl
@[simp] theorem State.returned_ops (r : Result) : (s.returned r).ops = s.ops := rfl
@[simp] theorem State.returned_results (r : Result) : (s.returned r).results = s.results ++ [r] := rfl
@[simp] theorem State.returned_cfg (r : Result) : (s.returned r).cfg = s.cfg := rfl
@[simp] theorem State.returned_sched (r : Result) : (s.returned r).sched = s.sched := rfl
@[simp] theorem State.returned_drawn (r : Result) : (s.returned r).drawn = s.drawn := rfl

@[simp] theorem State.ended_dev : (s.ended).dev = s.dev := rfl
@[simp] theorem State.ended_cop : (s.ended).cop = s.cop := rfl
@[simp] theorem State.ended_mem : (s.ended).mem = s.mem := rfl
@[simp] theorem State.ended_pm : (s.ended).pm = s.pm := rfl
@[simp] theorem State.ended_fb : (s.ended).fb = s.fb := rfl
@[simp] theorem State.ended_fault : (s.ended).fault = s.fault := rfl
@[simp] theorem State.ended_refused : (s.ended).refused = s.refused := rfl
@[simp] theorem State.ended_cpu : (s.ended).cpu = [] := rfl
@[simp] theorem State.ended_pos : (s.ended).pos = s.pos + 1 := rfl
@[simp] theorem State.ended_ops : (s.ended).ops = s.ops := rfl
@[simp] theorem State.ended_results : (s.ended).results = s.results := rfl
@[simp] theorem State.ended_cfg : (s.ended).cfg = s.cfg := rfl
@[simp] theorem State.ended_sched : (s.ended).sched = s.sched := rfl
@[simp] theorem State.ended_drawn : (s.ended).drawn = s.drawn := rfl

@[simp] theorem State.setWord_dev (i : Nat) (v : Word) : (s.setWord i v).dev = s.dev := rfl
@[simp] theorem State.setWord_cop (i : Nat) (v : Word) : (s.setWord i v).cop = s.cop := rfl
@[simp] theorem State.setWord_mem (i : Nat) (v : Word) : (s.setWord i v).mem = s.mem.writeWord (s.wordAddr i) v := rfl
@[simp] theorem State.setWord_pm (i : Nat) (v : Word) : (s.setWord i v).pm = s.pm := rfl
@[simp] theorem State.setWord_fb (i : Nat) (v : Word) : (s.setWord i v).fb = s.fb := rfl
@[simp] theorem State.setWord_fault (i : Nat) (v : Word) : (s.setWord i v).fault = s.fault := rfl
@[simp] theorem State.setWord_refused (i : Nat) (v : Word) : (s.setWord i v).refused = s.refused := rfl
@[simp] theorem State.setWord_cpu (i : Nat) (v : Word) : (s.setWord i v).cpu = s.cpu := rfl
@[simp] theorem State.setWord_pos (i : Nat) (v : Word) : (s.setWord i v).pos = s.pos := rfl
@[simp] theorem State.setWord_ops (i : Nat) (v : Word) : (s.setWord i v).ops = s.ops := rfl
@[simp] theorem State.setWord_results (i : Nat) (v : Word) : (s.setWord i v).results = s.results := rfl
@[simp] theorem State.setWord_cfg (i : Nat) (v : Word) : (s.setWord i v).cfg = s.cfg := rfl
@[simp] theorem State.setWord_sched (i : Nat) (v : Word) : (s.setWord i v).sched = s.sched := rfl
@[simp] theorem State.setWord_drawn (i : Nat) (v : Word) : (s.setWord i v).drawn = s.drawn := rfl

@[simp] theorem State.setWords_dev (i : Nat) (vs : List Word) : (s.setWords i vs).dev = s.dev := rfl
@[simp] theorem State.setWords_cop (i : Nat) (vs : List Word) : (s.setWords i vs).cop = s.cop := rfl
@[simp] theorem State.setWords_mem (i : Nat) (vs : List Word) : (s.setWords i vs).mem = s.mem.writeWords (s.wordAddr i) vs := rfl
@[simp] theorem State.setWords_pm (i : Nat) (vs : List Word) : (s.setWords i vs).pm = s.pm := rfl
@[simp] theorem State.setWords_fb (i : Nat) (vs : List Word) : (s.setWords i vs).fb = s.fb := rfl
@[simp] theorem State.setWords_fault (i : Nat) (vs : List Word) : (s.setWords i vs).fault = s.fault := rfl
@[simp] theorem State.setWords_refused (i : Nat) (vs : List Word) : (s.setWords i vs).refused = s.refused := rfl
@[simp] theorem State.setWords_cpu (i : Nat) (vs : List Word) : (s.setWords i vs).cpu = s.cpu := rfl
@[simp] theorem State.setWords_pos (i : Nat) (vs : List Word) : (s.setWords i vs).pos = s.pos := rfl
@[simp] theorem State.setWords_ops (i : Nat) (vs : List Word) : (s.setWords i vs).ops = s.ops := rfl
@[simp] theorem State.setWords_results (i : Nat) (vs : List Word) : (s.setWords i vs).results = s.results := rfl
@[simp] theorem State.setWords_cfg (i : Nat) (vs : List Word) : (s.setWords i vs).cfg = s.cfg := rfl
@[simp] theorem State.setWords_sched (i : Nat) (vs : List Word) : (s.setWords i vs).sched = s.sched := rfl
@[simp] theorem State.setWords_drawn (i : Nat) (vs : List Word) : (s.setWords i vs).drawn = s.drawn := rfl

/-! ## Recording a mark (R41, R176) -/

@[simp] theorem State.markFault_dev (f : Fault) : (s.markFault f).dev = s.dev := by
  unfold State.markFault; split <;> rfl
@[simp] theorem State.markFault_cop (f : Fault) : (s.markFault f).cop = s.cop := by
  unfold State.markFault; split <;> rfl
@[simp] theorem State.markFault_mem (f : Fault) : (s.markFault f).mem = s.mem := by
  unfold State.markFault; split <;> rfl
@[simp] theorem State.markFault_pm (f : Fault) : (s.markFault f).pm = s.pm := by
  unfold State.markFault; split <;> rfl
@[simp] theorem State.markFault_fb (f : Fault) : (s.markFault f).fb = s.fb := by
  unfold State.markFault; split <;> rfl
@[simp] theorem State.markFault_cpu (f : Fault) : (s.markFault f).cpu = s.cpu := by
  unfold State.markFault; split <;> rfl
@[simp] theorem State.markFault_pos (f : Fault) : (s.markFault f).pos = s.pos := by
  unfold State.markFault; split <;> rfl
@[simp] theorem State.markFault_ops (f : Fault) : (s.markFault f).ops = s.ops := by
  unfold State.markFault; split <;> rfl
@[simp] theorem State.markFault_results (f : Fault) : (s.markFault f).results = s.results := by
  unfold State.markFault; split <;> rfl
@[simp] theorem State.markFault_cfg (f : Fault) : (s.markFault f).cfg = s.cfg := by
  unfold State.markFault; split <;> rfl
@[simp] theorem State.markFault_sched (f : Fault) : (s.markFault f).sched = s.sched := by
  unfold State.markFault; split <;> rfl
@[simp] theorem State.markFault_drawn (f : Fault) : (s.markFault f).drawn = s.drawn := by
  unfold State.markFault; split <;> rfl
@[simp] theorem State.markRefused_dev (r : Refusal) : (s.markRefused r).dev = s.dev := by
  unfold State.markRefused; split <;> rfl
@[simp] theorem State.markRefused_cop (r : Refusal) : (s.markRefused r).cop = s.cop := by
  unfold State.markRefused; split <;> rfl
@[simp] theorem State.markRefused_mem (r : Refusal) : (s.markRefused r).mem = s.mem := by
  unfold State.markRefused; split <;> rfl
@[simp] theorem State.markRefused_pm (r : Refusal) : (s.markRefused r).pm = s.pm := by
  unfold State.markRefused; split <;> rfl
@[simp] theorem State.markRefused_fb (r : Refusal) : (s.markRefused r).fb = s.fb := by
  unfold State.markRefused; split <;> rfl
@[simp] theorem State.markRefused_cpu (r : Refusal) : (s.markRefused r).cpu = s.cpu := by
  unfold State.markRefused; split <;> rfl
@[simp] theorem State.markRefused_pos (r : Refusal) : (s.markRefused r).pos = s.pos := by
  unfold State.markRefused; split <;> rfl
@[simp] theorem State.markRefused_ops (r : Refusal) : (s.markRefused r).ops = s.ops := by
  unfold State.markRefused; split <;> rfl
@[simp] theorem State.markRefused_results (r : Refusal) : (s.markRefused r).results = s.results := by
  unfold State.markRefused; split <;> rfl
@[simp] theorem State.markRefused_cfg (r : Refusal) : (s.markRefused r).cfg = s.cfg := by
  unfold State.markRefused; split <;> rfl
@[simp] theorem State.markRefused_sched (r : Refusal) : (s.markRefused r).sched = s.sched := by
  unfold State.markRefused; split <;> rfl
@[simp] theorem State.markRefused_drawn (r : Refusal) : (s.markRefused r).drawn = s.drawn := by
  unfold State.markRefused; split <;> rfl

@[simp] theorem State.markFault_refused (f : Fault) : (s.markFault f).refused = s.refused := by
  unfold State.markFault; split <;> rfl

@[simp] theorem State.markRefused_fault (r : Refusal) : (s.markRefused r).fault = s.fault := by
  unfold State.markRefused; split <;> rfl

theorem State.markFault_of_unmarked (f : Fault) (hf : s.fault = none) (hr : s.refused = none) :
    s.markFault f = { s with fault := some f } := by
  simp [State.markFault, hf, hr]

theorem State.markRefused_of_unmarked (r : Refusal) (hf : s.fault = none) (hr : s.refused = none) :
    s.markRefused r = { s with refused := some r } := by
  simp [State.markRefused, hf, hr]

/-- A recorded fault stays (R176). -/
theorem State.markFault_keeps_fault (f g : Fault) (h : s.fault = some g) : (s.markFault f).fault = some g := by
  simp [State.markFault, h]

/-- A recorded refusal stays (R176). -/
theorem State.markRefused_keeps_refused (r q : Refusal) (h : s.refused = some q) :
    (s.markRefused r).refused = some q := by
  simp [State.markRefused, h]

/-- At most one mark is recorded (R41). -/
theorem State.markFault_oneMark (f : Fault) (h : s.fault = none ∨ s.refused = none) :
    (s.markFault f).fault = none ∨ (s.markFault f).refused = none := by
  unfold State.markFault; split
  · exact h
  · rename_i hn; simp at hn; exact .inr hn.2

/-- At most one mark is recorded (R41). -/
theorem State.markRefused_oneMark (r : Refusal) (h : s.fault = none ∨ s.refused = none) :
    (s.markRefused r).fault = none ∨ (s.markRefused r).refused = none := by
  unfold State.markRefused; split
  · exact h
  · rename_i hn; simp at hn; exact .inl hn.1

/-- What is recorded stays, nothing is recorded beside it, and at most one mark is recorded (R41, R176). -/
structure MarksKept (s t : State) : Prop where
  fault   : ∀ f, s.fault = some f → t.fault = some f ∧ t.refused = s.refused
  refused : ∀ r, s.refused = some r → t.refused = some r ∧ t.fault = s.fault
  oneMark : s.fault = none ∨ s.refused = none → t.fault = none ∨ t.refused = none

theorem MarksKept.of_eq {s t : State} (h1 : t.fault = s.fault) (h2 : t.refused = s.refused) : MarksKept s t :=
  ⟨fun _ h => ⟨h1.trans h, h2⟩, fun _ h => ⟨h2.trans h, h1⟩, by rw [h1, h2]; exact id⟩

theorem MarksKept.refl (s : State) : MarksKept s s := .of_eq rfl rfl

theorem MarksKept.trans {s t u : State} (h1 : MarksKept s t) (h2 : MarksKept t u) : MarksKept s u where
  fault f hf := by
    obtain ⟨a, b⟩ := h1.fault f hf
    obtain ⟨c, d⟩ := h2.fault f a
    exact ⟨c, d.trans b⟩
  refused r hr := by
    obtain ⟨a, b⟩ := h1.refused r hr
    obtain ⟨c, d⟩ := h2.refused r a
    exact ⟨c, d.trans b⟩
  oneMark h := h2.oneMark (h1.oneMark h)

theorem MarksKept.markFault (s : State) (f : Fault) : MarksKept s (s.markFault f) where
  fault g hg := ⟨State.markFault_keeps_fault s f g hg, by simp⟩
  refused r hr := ⟨by simpa using hr, by simp [State.markFault, hr]⟩
  oneMark h := State.markFault_oneMark s f h

theorem MarksKept.markRefused (s : State) (r : Refusal) : MarksKept s (s.markRefused r) where
  fault f hf := ⟨by simpa using hf, by simp [State.markRefused, hf]⟩
  refused q hq := ⟨State.markRefused_keeps_refused s r q hq, by simp⟩
  oneMark h := State.markRefused_oneMark s r h

end Sys2Proof.Machine
end

