-- ==== Sys2Proof/Laws/Memory.lean ====
section
/-! SUPPORT. Memory: a read after a write to the same byte gives the value written, a write leaves every other byte
alone, every operation keeps the canonical form, and the same for words and runs of words (R50, R54). -/

namespace Sys2Proof.Machine

/-! ## Cells -/

theorem lookup_insert (cs : List Host.Cell) (a b : Nat) (v : Byte) :
    lookupCell (insertCell cs a v) b = if a = b then some v else lookupCell cs b := by
  induction cs with
  | nil => simp [insertCell, lookupCell]
  | cons c rest ih =>
    obtain ⟨k, w⟩ := c
    by_cases h1 : a < k
    · simp [insertCell, lookupCell, h1]
    · by_cases h2 : a = k
      · subst h2; simp only [insertCell, lookupCell, lt_irrefl, if_false, if_true]; split <;> rfl
      · simp only [insertCell, lookupCell, h1, h2, if_false, ih]
        by_cases h3 : a = b
        · subst h3; simp [show ¬ k = a from fun h => h2 h.symm]
        · simp [h3]

theorem mem_insert (cs : List Host.Cell) (a : Nat) (v : Byte) (c : Host.Cell) (hc : c ∈ insertCell cs a v) :
    c.1 = a ∨ c ∈ cs := by
  induction cs with
  | nil => simp [insertCell] at hc; exact .inl (by rw [hc])
  | cons d rest ih =>
    obtain ⟨k, w⟩ := d
    unfold insertCell at hc
    split_ifs at hc with h1 h2 <;> simp only [List.mem_cons] at hc ⊢
    · rcases hc with rfl | hc
      · exact .inl rfl
      · exact .inr hc
    · rcases hc with rfl | hc
      · exact .inl rfl
      · exact .inr (.inr hc)
    · rcases hc with rfl | hc
      · exact .inr (.inl rfl)
      · exact (ih hc).imp id .inr

theorem pairwise_insert (cs : List Host.Cell) (a : Nat) (v : Byte) (h : cs.Pairwise (fun c d => c.1 < d.1)) :
    (insertCell cs a v).Pairwise (fun c d => c.1 < d.1) := by
  induction cs with
  | nil => simp [insertCell]
  | cons c rest ih =>
    obtain ⟨k, w⟩ := c
    obtain ⟨hk, hrest⟩ := List.pairwise_cons.mp h
    unfold insertCell
    split_ifs with h1 h2
    · refine List.pairwise_cons.mpr ⟨fun d hd => ?_, h⟩
      rcases List.mem_cons.mp hd with rfl | hd
      · exact h1
      · exact lt_trans h1 (hk d hd)
    · subst h2; exact List.pairwise_cons.mpr ⟨hk, hrest⟩
    · refine List.pairwise_cons.mpr ⟨fun d hd => ?_, ih hrest⟩
      rcases mem_insert rest a v d hd with hd | hd
      · show k < d.1; omega
      · exact hk d hd

/-! ## Bytes -/

theorem Memory.writeByte_wf {m : Memory} (h : m.wf) (a : Nat) (v : Byte) : (m.writeByte a v).wf := by
  unfold Memory.writeByte
  split
  · refine ⟨pairwise_insert _ _ _ h.1, fun c hc => ?_⟩
    rcases mem_insert _ _ _ _ hc with hc | hc
    · rwa [hc]
    · exact h.2 c hc
  · exact h

theorem Memory.readByte_writeByte (m : Memory) (a b : Nat) (v : Byte) :
    (m.writeByte a v).readByte b = if a = b ∧ a < addressSpace then v else m.readByte b := by
  unfold Memory.writeByte Memory.readByte
  split
  · rename_i ha; simp only [lookup_insert, ha, and_true]; split <;> rfl
  · rename_i ha; simp [ha]

theorem Memory.readByte_writeByte_same (m : Memory) (a : Nat) (v : Byte) (ha : a < addressSpace) :
    (m.writeByte a v).readByte a = v := by
  rw [Memory.readByte_writeByte]; simp [ha]

theorem Memory.readByte_writeByte_other (m : Memory) (a b : Nat) (v : Byte) (hab : a ≠ b) :
    (m.writeByte a v).readByte b = m.readByte b := by
  rw [Memory.readByte_writeByte]; simp [hab]

/-! ## Words -/

theorem Memory.writeWord_wf {m : Memory} (h : m.wf) (a : Nat) (v : Word) : (m.writeWord a v).wf :=
  writeByte_wf (writeByte_wf (writeByte_wf (writeByte_wf h _ _) _ _) _ _) _ _

theorem Memory.readByte_writeWord_other (m : Memory) (a b : Nat) (v : Word) (hb : b < a ∨ a + 4 ≤ b) :
    (m.writeWord a v).readByte b = m.readByte b := by
  unfold Memory.writeWord
  rw [readByte_writeByte_other _ _ _ _ (by omega), readByte_writeByte_other _ _ _ _ (by omega),
    readByte_writeByte_other _ _ _ _ (by omega), readByte_writeByte_other _ _ _ _ (by omega)]

theorem Memory.readWord_congr {m m' : Memory} (a : Nat) (h : ∀ b, a ≤ b → b < a + 4 → m.readByte b = m'.readByte b) :
    m.readWord a = m'.readWord a := by
  unfold Memory.readWord
  rw [h a (by omega) (by omega), h (a + 1) (by omega) (by omega), h (a + 2) (by omega) (by omega),
    h (a + 3) (by omega) (by omega)]

theorem Memory.readWord_writeWord_other (m : Memory) (a b : Nat) (v : Word) (hb : b + 4 ≤ a ∨ a + 4 ≤ b) :
    (m.writeWord a v).readWord b = m.readWord b :=
  readWord_congr b fun c h1 h2 => readByte_writeWord_other m a c v (by omega)

theorem Memory.readWord_writeWord_same (m : Memory) (a : Nat) (v : Word) (ha : a + 4 ≤ addressSpace) :
    (m.writeWord a v).readWord a = v := by
  have e : (m.writeWord a v).readWord a = wordOfBytes (byteOf v 0) (byteOf v 1) (byteOf v 2) (byteOf v 3) := by
    unfold Memory.readWord Memory.writeWord
    simp only [readByte_writeByte]
    congr 1 <;> simp <;> omega
  rw [e, wordOfBytes_byteOf]

/-! ## Runs of words -/

theorem Memory.writeWords_wf {m : Memory} (h : m.wf) (a : Nat) (vs : List Word) : (m.writeWords a vs).wf := by
  induction vs generalizing m a with
  | nil => exact h
  | cons v vs ih => exact ih (writeWord_wf h a v) (a + 4)

theorem Memory.readByte_writeWords_other (m : Memory) (a b : Nat) (vs : List Word)
    (hb : b < a ∨ a + 4 * vs.length ≤ b) : (m.writeWords a vs).readByte b = m.readByte b := by
  induction vs generalizing m a with
  | nil => rfl
  | cons v vs ih =>
    simp only [List.length_cons] at hb
    show ((m.writeWord a v).writeWords (a + 4) vs).readByte b = _
    rw [ih _ (a + 4) (by omega), readByte_writeWord_other _ _ _ _ (by omega)]

theorem Memory.readWord_writeWords_other (m : Memory) (a b : Nat) (vs : List Word)
    (hb : b + 4 ≤ a ∨ a + 4 * vs.length ≤ b) : (m.writeWords a vs).readWord b = m.readWord b :=
  readWord_congr b fun c h1 h2 => readByte_writeWords_other m a c vs (by omega)

/-- Word `i` of a run of words just written is its i-th word. -/
theorem Memory.readWord_writeWords (m : Memory) (a : Nat) (vs : List Word) (i : Nat) (hi : i < vs.length)
    (ha : a + 4 * vs.length ≤ addressSpace) : (m.writeWords a vs).readWord (a + 4 * i) = vs[i] := by
  induction vs generalizing m a i with
  | nil => simp at hi
  | cons v vs ih =>
    simp only [List.length_cons] at hi ha
    show ((m.writeWord a v).writeWords (a + 4) vs).readWord _ = _
    cases i with
    | zero =>
      rw [readWord_writeWords_other _ _ _ _ (by omega)]
      simpa using readWord_writeWord_same m a v (by omega)
    | succ i =>
      have := ih (m.writeWord a v) (a + 4) i (by omega) (by omega)
      rw [show a + 4 * (i + 1) = a + 4 + 4 * i by omega, this, List.getElem_cons_succ]

end Sys2Proof.Machine
end

