-- ==== Sys2Proof/Laws/Coprocessor.lean ====
section
/-! SUPPORT. What an operation's end leaves (R12), what the coprocessor's step can do (R106 to R108) and what it leaves
alone (R110). -/

namespace Sys2Proof.Machine

/-! ## Ends of operations -/

@[simp] theorem Res.andThen_ok {α β : Type} (a : α) (s : State) (f : α → State → Res β) :
    (Res.ok a s).andThen f = f a s := rfl
@[simp] theorem Res.andThen_stop {α β : Type} (s : State) (f : α → State → Res β) :
    (Res.stop s : Res α).andThen f = .stop s := rfl
@[simp] theorem raise_andThen {α β : Type} (e : Fault) (s : State) (f : α → State → Res β) :
    (raise e s : Res α).andThen f = raise e s := rfl
@[simp] theorem refuse_andThen {α β : Type} (r : Refusal) (s : State) (f : α → State → Res β) :
    (refuse r s : Res α).andThen f = refuse r s := rfl
@[simp] theorem conclude_ok (r : Result) (s : State) : conclude (.ok r s) = .next (s.returned r) := rfl
@[simp] theorem conclude_stop (s : State) : conclude (.stop s) = .next s.ended := rfl
@[simp] theorem conclude_refuse (r : Refusal) (s : State) :
    conclude (refuse r s) = .next (s.markRefused r).ended := rfl
@[simp] theorem conclude_raise (f : Fault) (s : State) : conclude (raise f s) = .next (s.markFault f).ended := rfl

/-- The state an operation, or a part of one, leaves. -/
def Res.state {α : Type} : Res α → State
  | .ok _ s => s
  | .stop s => s

@[simp] theorem Res.state_ok {α : Type} (a : α) (s : State) : (Res.ok a s).state = s := rfl
@[simp] theorem Res.state_stop {α : Type} (s : State) : (Res.stop s : Res α).state = s := rfl
@[simp] theorem Res.state_raise {α : Type} (f : Fault) (s : State) : (raise f s : Res α).state = s.markFault f := rfl
@[simp] theorem Res.state_refuse {α : Type} (r : Refusal) (s : State) :
    (refuse r s : Res α).state = s.markRefused r := rfl

/-- A relation from the first state to the last is shown part by part. -/
theorem Res.andThen_rel {α β : Type} {R : State → State → Prop} {s : State} {r : Res α} {f : α → State → Res β}
    (trans : ∀ a b c, R a b → R b c → R a c) (h : R s r.state) (hf : ∀ a u, R u (f a u).state) :
    R s (r.andThen f).state := by
  cases r with
  | ok a u => exact trans _ _ _ h (hf a u)
  | stop u => exact h

/-- An operation that waits for nothing answers a next state between operations, one position on. -/
theorem conclude_next (r : Res Result) : ∃ t, conclude r = .next t ∧ t.cpu = [] ∧ t.pos = r.state.pos + 1 := by
  cases r <;> simp

/-! ## The coprocessor's step -/

theorem rewriteMessage_wf {m : Memory} (h : m.wf) (a n i : Nat) (ds : List (Option Word)) :
    (rewriteMessage a n i ds m).wf := by
  induction ds generalizing i m with
  | nil => exact h
  | cons d ds ih =>
    unfold rewriteMessage
    apply ih
    split
    · cases d with
      | none => exact h
      | some v => exact Memory.writeWord_wf h _ _
    · exact h

/-- The bytes outside words `i` .. `n - 1` of the message stay. -/
theorem readByte_rewriteMessage_other (m : Memory) (a n i b : Nat) (ds : List (Option Word))
    (hb : b < a + 4 * i ∨ a + 4 * n ≤ b) : (rewriteMessage a n i ds m).readByte b = m.readByte b := by
  induction ds generalizing i m with
  | nil => rfl
  | cons d ds ih =>
    unfold rewriteMessage
    rw [ih _ (i + 1) (by omega)]
    split
    · cases d with
      | none => rfl
      | some v => exact Memory.readByte_writeWord_other _ _ _ _ (by omega)
    · rfl

/-- Word `j` of the message is what was drawn for it, or what it was. -/
theorem readWord_rewriteMessage (m : Memory) (a n i j : Nat) (ds : List (Option Word)) (hij : i ≤ j) (hj : j < n)
    (ha : a + 4 * j + 4 ≤ addressSpace) :
    (rewriteMessage a n i ds m).readWord (a + 4 * j) = ((ds[j - i]?).join).getD (m.readWord (a + 4 * j)) := by
  induction ds generalizing i m with
  | nil => simp [rewriteMessage]
  | cons d ds ih =>
    unfold rewriteMessage
    rcases Nat.eq_or_lt_of_le hij with rfl | hlt
    · have keep : ∀ m' : Memory, (rewriteMessage a n (i + 1) ds m').readWord (a + 4 * i) = m'.readWord (a + 4 * i) :=
        fun m' => Memory.readWord_congr _ fun b h1 h2 => readByte_rewriteMessage_other _ _ _ _ _ _ (by omega)
      rw [keep]
      cases d with
      | none => simp
      | some v => simp [hj, Memory.readWord_writeWord_same _ _ _ ha]
    · rw [ih _ (i + 1) (by omega), show j - i = (j - (i + 1)) + 1 by omega, List.getElem?_cons_succ]
      congr 1
      split
      · cases d with
        | none => rfl
        | some v => exact Memory.readWord_writeWord_other _ _ _ _ (by omega)
      · rfl

@[simp] theorem copStep_pm (e : CopStep) (s : State) : (copStep e s).pm = s.pm := by
  cases e <;> simp only [copStep, copConsume, copAnswer, copUnsolicited] <;> split <;> simp
@[simp] theorem copStep_fb (e : CopStep) (s : State) : (copStep e s).fb = s.fb := by
  cases e <;> simp only [copStep, copConsume, copAnswer, copUnsolicited] <;> split <;> simp
@[simp] theorem copStep_fault (e : CopStep) (s : State) : (copStep e s).fault = s.fault := by
  cases e <;> simp only [copStep, copConsume, copAnswer, copUnsolicited] <;> split <;> simp
@[simp] theorem copStep_refused (e : CopStep) (s : State) : (copStep e s).refused = s.refused := by
  cases e <;> simp only [copStep, copConsume, copAnswer, copUnsolicited] <;> split <;> simp
@[simp] theorem copStep_cpu (e : CopStep) (s : State) : (copStep e s).cpu = s.cpu := by
  cases e <;> simp only [copStep, copConsume, copAnswer, copUnsolicited] <;> split <;> simp
@[simp] theorem copStep_pos (e : CopStep) (s : State) : (copStep e s).pos = s.pos := by
  cases e <;> simp only [copStep, copConsume, copAnswer, copUnsolicited] <;> split <;> simp
@[simp] theorem copStep_ops (e : CopStep) (s : State) : (copStep e s).ops = s.ops := by
  cases e <;> simp only [copStep, copConsume, copAnswer, copUnsolicited] <;> split <;> simp
@[simp] theorem copStep_results (e : CopStep) (s : State) : (copStep e s).results = s.results := by
  cases e <;> simp only [copStep, copConsume, copAnswer, copUnsolicited] <;> split <;> simp
@[simp] theorem copStep_cfg (e : CopStep) (s : State) : (copStep e s).cfg = s.cfg := by
  cases e <;> simp only [copStep, copConsume, copAnswer, copUnsolicited] <;> split <;> simp
@[simp] theorem copStep_sched (e : CopStep) (s : State) : (copStep e s).sched = s.sched := by
  cases e <;> simp only [copStep, copConsume, copAnswer, copUnsolicited] <;> split <;> simp
@[simp] theorem copStep_drawn (e : CopStep) (s : State) : (copStep e s).drawn = s.drawn := by
  cases e <;> simp only [copStep, copConsume, copAnswer, copUnsolicited] <;> split <;> simp

/-- Everything a consume step can do (R106). -/
theorem copConsume_cases (s : State) :
    (s.dev.out = [] ∧ copConsume s = s) ∨
    ∃ w rest, s.dev.out = w :: rest ∧
      copConsume s = (s.withOut rest).withPending (s.cop.pending ++ [⟨chanOf w, addrOf w⟩]) := by
  unfold copConsume
  cases h : s.dev.out with
  | nil => exact .inl ⟨rfl, rfl⟩
  | cons w rest => exact .inr ⟨w, rest, rfl, rfl⟩

/-- Everything an answer step can do (R107). -/
theorem copAnswer_cases (a : Word) (ds : List (Option Word)) (s : State) :
    copAnswer a ds s = s ∨
    ((⟨Config.propertyChannel, a⟩ : Request) ∈ s.cop.pending ∧ s.dev.inq.length < s.cfg.fifoDepth ∧
      copAnswer a ds s =
        ((s.withMem (rewriteMessage a.toNat (ceilDiv4 (s.mem.readWord a.toNat).toNat) 1 ds s.mem)).withPending
          (s.cop.pending.erase ⟨Config.propertyChannel, a⟩)).withIn (s.dev.inq ++ [a ||| Config.propertyChannel])) := by
  unfold copAnswer
  split
  · rename_i h
    simp only [State.inRoom, decide_eq_true_eq] at h
    exact .inr ⟨h.1, h.2, rfl⟩
  · exact .inl rfl

/-- Everything an unsolicited word can do (R108). -/
theorem copUnsolicited_cases (w : Word) (s : State) :
    copUnsolicited w s = s ∨
    (chanOf w ≠ Config.propertyChannel ∧ s.dev.inq.length < s.cfg.fifoDepth ∧
      copUnsolicited w s = s.withIn (s.dev.inq ++ [w])) := by
  unfold copUnsolicited
  split
  · rename_i h
    simp only [State.inRoom, decide_eq_true_eq] at h
    exact .inr ⟨h.1, h.2, rfl⟩
  · exact .inl rfl

end Sys2Proof.Machine
end

