-- ==== Sys2Proof/Laws/Operands.lean ====
section
/-! SUPPORT. The operand forms and flags: bits 31 and 30 of STATUS (R25), the success bit (R83), the parts of a mailbox
word and its assembly (R74 to R76), the verdicts on a channel (R102 to R104, D6) and the write of WRITE (R102). -/

namespace Sys2Proof.Machine

/-! ## Flags -/

theorem flagBit_getLsbD (b : Bool) (k j : Nat) (hk : k < 32) : (flagBit b k).getLsbD j = (b && decide (k = j)) := by
  cases b <;> simp [flagBit, BitVec.getLsbD_one, Nat.sub_eq_zero_iff_le]
  by_cases h : k = j
  · subst h; simp [hk]
  · simp [h]; omega

/-- Bit 31 of a STATUS read is FULL (R25, R100). -/
@[simp] theorem statusWord_bit31 (s : State) : s.statusWord.getLsbD 31 = s.full := by
  have h : (Config.freeStatus s.drawn &&& Config.statusDrawMask).getLsbD 31 = false := by simp [Config.statusDrawMask]
  simp only [State.statusWord, BitVec.getLsbD_or, h]
  rw [flagBit_getLsbD _ _ _ (by decide), flagBit_getLsbD _ _ _ (by decide)]
  simp [Config.statusFullBit, Config.statusEmptyBit]

/-- Bit 30 of a STATUS read is EMPTY (R25, R100). -/
@[simp] theorem statusWord_bit30 (s : State) : s.statusWord.getLsbD 30 = s.empty := by
  have h : (Config.freeStatus s.drawn &&& Config.statusDrawMask).getLsbD 30 = false := by simp [Config.statusDrawMask]
  simp only [State.statusWord, BitVec.getLsbD_or, h]
  rw [flagBit_getLsbD _ _ _ (by decide), flagBit_getLsbD _ _ _ (by decide)]
  simp [Config.statusFullBit, Config.statusEmptyBit]

theorem State.full_eq (s : State) : s.full = decide (s.dev.out.length = s.cfg.fifoDepth) := rfl

theorem State.empty_eq (s : State) : s.empty = decide (s.dev.inq.length = 0) := by
  cases h : s.dev.inq <;> simp [State.empty, h]

/-- The success flag is bit 31 of the code word (R83). -/
theorem success_eq_bit31 (c : Word) : success c = c.getLsbD 31 := by
  have m : ∀ i, i < 32 → (0x80000000#32).getLsbD i = decide (i = 31) := by decide
  have key : (c &&& 0x80000000#32 = 0#32) ↔ c.getLsbD 31 = false := by
    constructor
    · intro h; simpa using congrArg (·.getLsbD 31) h
    · intro h
      apply BitVec.eq_of_getLsbD_eq
      intro i hi
      simp only [BitVec.getLsbD_and, m i hi]
      by_cases hh : i = 31
      · subst hh; rw [h]; simp
      · simp [hh]
  unfold success Config.respSuccessMask
  cases h : c.getLsbD 31
  · simp [key.mpr h]
  · have : ¬ (c &&& 0x80000000#32 = 0#32) := fun h' => by rw [key.mp h'] at h; simp at h
    simp [this]

/-! ## The parts of a mailbox word -/

theorem lowMask_getLsbD : ∀ i, i < 32 → (0xF#32).getLsbD i = decide (i < 4) := by decide

theorem highMask_getLsbD : ∀ i, i < 32 → (0xFFFFFFF0#32).getLsbD i = decide (4 ≤ i) := by decide

/-- A word is its two fields put together (R74). -/
theorem wordOfFields_split (v : Word) : wordOfFields (v.extractLsb' 4 28) (v.extractLsb' 0 4) = v := by
  apply BitVec.eq_of_getLsbD_eq; intro i hi
  simp only [wordOfFields, BitVec.getLsbD_append, BitVec.getLsbD_extractLsb']
  by_cases h : i < 4
  · simp [h]
  · simp [h, show i - 4 < 28 by omega, show 4 + (i - 4) = i by omega]

@[simp] theorem chanOf_toNat_le (w : Word) : (chanOf w).toNat ≤ 15 := by
  have : (chanOf w).toNat ≤ (0xF#32).toNat := by simp only [chanOf, BitVec.toNat_and]; exact Nat.and_le_right
  simpa using this

theorem chanField_toNat (v : Word) : (v.extractLsb' 0 4).toNat = (v &&& 0xF#32).toNat := by
  simp [BitVec.extractLsb'_toNat, Nat.and_two_pow_sub_one_eq_mod _ 4]

/-- The CHAN part of a word made of fields is its CHAN field (R74, R76). -/
theorem chanOf_wordOfFields (addr : BitVec 28) (k : BitVec 4) : chanOf (wordOfFields addr k) = k.setWidth 32 := by
  apply BitVec.eq_of_getLsbD_eq; intro i hi
  simp only [chanOf, wordOfFields, BitVec.getLsbD_and, lowMask_getLsbD i hi, BitVec.getLsbD_append,
    BitVec.getLsbD_setWidth]
  by_cases h : i < 4
  · simp [h, hi]
  · simp [h, hi]; rw [BitVec.getLsbD_of_ge _ _ (by omega)]

/-- The address part has its low four bits clear (R76). -/
@[simp] theorem addrOf_aligned (w : Word) : addrOf w &&& 0xF#32 = 0#32 := by
  apply BitVec.eq_of_getLsbD_eq; intro i hi
  simp only [addrOf, BitVec.getLsbD_and, lowMask_getLsbD i hi, highMask_getLsbD i hi]
  by_cases h : i < 4
  · simp [h]
  · simp [h]

theorem aligned16_iff {a : Word} : aligned16 a = true ↔ a &&& 0xF#32 = 0#32 := by simp [aligned16]

/-- An aligned address has room for sixteen bytes below 2^32. -/
theorem toNat_add_16_le {a : Word} (h : a &&& 0xF#32 = 0#32) : a.toNat + 16 ≤ 2 ^ 32 := by
  have hm : a.toNat % 16 = 0 := by
    have := congrArg BitVec.toNat h
    simpa [BitVec.toNat_and, Nat.and_two_pow_sub_one_eq_mod _ 4] using this
  have := a.isLt
  omega

/-- Clearing the low bits of an aligned address changes nothing. -/
theorem and_not_low {a : Word} (h : a &&& 0xF#32 = 0#32) : a &&& ~~~0xF#32 = a := by
  rw [show ~~~0xF#32 = 0xFFFFFFF0#32 by decide]
  apply BitVec.eq_of_getLsbD_eq; intro i hi
  have := congrArg (·.getLsbD i) h
  simp only [BitVec.getLsbD_and, lowMask_getLsbD i hi, highMask_getLsbD i hi] at this ⊢
  by_cases hi4 : i < 4
  · simp only [hi4, decide_true, Bool.and_true, BitVec.getLsbD_zero] at this; rw [this]; simp
  · simp [show 4 ≤ i by omega]

/-- The word `send` writes for an aligned address (R75, R103). -/
theorem assemble_aligned {a : Word} (c : Word) (h : a &&& 0xF#32 = 0#32) : assemble a c = a ||| c := by
  rw [assemble, and_not_low h]

/-- What `send` puts in the CHAN field comes out of it (R75, R76). -/
theorem chanOf_assemble {a c : Word} (hc : c.toNat ≤ 15) : chanOf (assemble a c) = c := by
  have hc' : ∀ i, 4 ≤ i → c.getLsbD i = false := by
    intro i hi
    have : c.toNat < 2 ^ i := lt_of_lt_of_le (by omega : c.toNat < 2 ^ 4) (Nat.pow_le_pow_right (by omega) hi)
    exact Nat.testBit_lt_two_pow this
  apply BitVec.eq_of_getLsbD_eq; intro i hi
  simp only [chanOf, assemble, BitVec.getLsbD_and, BitVec.getLsbD_or, BitVec.getLsbD_not, lowMask_getLsbD i hi]
  by_cases h : i < 4
  · simp [h]
  · rw [hc' i (by omega)]; simp [h]

/-- What `send` puts in the ADDR field comes out of it (R75, R76). -/
theorem addrOf_assemble {a c : Word} (ha : a &&& 0xF#32 = 0#32) (hc : c.toNat ≤ 15) : addrOf (assemble a c) = a := by
  have ha' : ∀ i, i < 4 → a.getLsbD i = false := by
    intro i hi
    have := congrArg (·.getLsbD i) ha
    rcases (show i = 0 ∨ i = 1 ∨ i = 2 ∨ i = 3 by omega) with rfl | rfl | rfl | rfl <;> simpa using this
  have hc' : ∀ i, 4 ≤ i → c.getLsbD i = false := by
    intro i hi
    have : c.toNat < 2 ^ i := lt_of_lt_of_le (by omega : c.toNat < 2 ^ 4) (Nat.pow_le_pow_right (by omega) hi)
    exact Nat.testBit_lt_two_pow this
  apply BitVec.eq_of_getLsbD_eq; intro i hi
  simp only [addrOf, assemble, BitVec.getLsbD_and, BitVec.getLsbD_or, BitVec.getLsbD_not, lowMask_getLsbD i hi,
    highMask_getLsbD i hi]
  by_cases h : i < 4
  · simp [h, ha' i h]
  · have : 4 ≤ i := by omega
    rw [hc' i this]; simp [h, hi, this]

/-- A reply word is of channel 8, and its address part is the request's address (R107). -/
theorem chanOf_reply {a : Word} (ha : a &&& 0xF#32 = 0#32) : chanOf (a ||| 8#32) = 8#32 := by
  rw [← assemble_aligned _ ha]; exact chanOf_assemble (by decide)

/-! ## The verdicts on a channel -/

@[simp] theorem sendChannelRefusal_property : sendChannelRefusal 8#32 = none := rfl

theorem sendChannelRefusal_above {c : Word} (h : 8 < c.toNat) : sendChannelRefusal c = some .channel := by
  simp only [sendChannelRefusal, Config.chanMax, h, if_true]

theorem sendChannelRefusal_other {c : Word} (h : ¬ 8 < c.toNat) (h2 : c ≠ 8#32) :
    sendChannelRefusal c = some .channelUnmodelled := by
  simp only [sendChannelRefusal, Config.chanMax, Config.propertyChannel, h, h2, if_false, ne_eq, not_false_eq_true,
    if_true]

theorem sendChannelRefusal_eq_none {c : Word} : sendChannelRefusal c = none ↔ c = 8#32 := by
  constructor
  · intro h
    by_contra hne
    by_cases h8 : 8 < c.toNat
    · rw [sendChannelRefusal_above h8] at h; simp at h
    · rw [sendChannelRefusal_other h8 hne] at h; simp at h
  · rintro rfl; rfl

theorem receiveChannelRefusal_above {c : Word} (h : 8 < c.toNat) : receiveChannelRefusal c = some .channel := by
  simp only [receiveChannelRefusal, Config.chanMax, h, if_true]

theorem receiveChannelRefusal_admitted {c : Word} (h : c.toNat ≤ 8) : receiveChannelRefusal c = none := by
  simp only [receiveChannelRefusal, Config.chanMax, Nat.not_lt.mpr h, if_false]

/-! ## The register accesses -/

/-- Everything a read of READ can do (R101). -/
theorem readRead_cases (s : State) :
    (s.dev.inq = [] ∧ readRead s = refuse .readEmpty s) ∨
    ∃ w rest, s.dev.inq = w :: rest ∧ readRead s = .ok w (s.withIn rest) := by
  unfold readRead
  cases h : s.dev.inq with
  | nil => exact .inl ⟨rfl, rfl⟩
  | cons w rest => exact .inr ⟨w, rest, rfl, rfl⟩

/-- Everything a write of WRITE can do (R102). -/
theorem writeWrite_cases (v : Word) (s : State) :
    (∃ r, writeWrite v s = refuse r s) ∨
    (chanOf v = 8#32 ∧ s.dev.out.length ≠ s.cfg.fifoDepth ∧
      writeWrite v s = .ok () (s.withOut (s.dev.out ++ [v]))) := by
  unfold writeWrite
  split
  · exact .inl ⟨_, rfl⟩
  · rename_i h
    split
    · exact .inl ⟨_, rfl⟩
    · rename_i hf
      exact .inr ⟨sendChannelRefusal_eq_none.mp h, by simpa [State.full] using hf, rfl⟩

/-- A channel-8 word is written while FULL is 0 (R102). -/
theorem writeWrite_ok {s : State} {v : Word} (h : v &&& 0xF#32 = 8#32) (hf : s.dev.out.length ≠ s.cfg.fifoDepth) :
    writeWrite v s = .ok () (s.withOut (s.dev.out ++ [v])) := by
  have h' : chanOf v = 8#32 := h
  simp [writeWrite, h', State.full, hf]

/-! ## Raw accesses (R57, R173) -/

/-- Of the raw accesses at READ only the 32-bit read is admitted (R26). -/
theorem execRegRead_other {a : RawAccess} (h : a ≠ .read 32) (s : State) :
    execRegRead a s = conclude (refuse .mmioOther s) := by
  cases a with
  | read bits => exact if_neg fun e : bits = 32 => h (by rw [e])
  | write bits v => rfl

/-- Of the raw accesses at STATUS only the 32-bit read is admitted (R25). -/
theorem execRegStatus_other {a : RawAccess} (h : a ≠ .read 32) (s : State) :
    execRegStatus a s = conclude (refuse .mmioOther s) := by
  cases a with
  | read bits => exact if_neg fun e : bits = 32 => h (by rw [e])
  | write bits v => rfl

/-- Of the raw accesses at WRITE only a 32-bit write is admitted (R27). -/
theorem execRegWrite_other {a : RawAccess} (h : ∀ v, a ≠ .write 32 v) (s : State) :
    execRegWrite a s = conclude (refuse .mmioOther s) := by
  cases a with
  | read bits => rfl
  | write bits v => exact if_neg fun e : bits = 32 => h v (by rw [e])

/-- The raw 32-bit write of a word at WRITE is R102's write. -/
@[simp] theorem execRegWrite_word (v : Word) (s : State) :
    execRegWrite (.write 32 v.toNat) s = conclude (noResult (writeWrite v s)) := by
  simp [execRegWrite]

/-! ## Mailbox words crossing the mailbox -/

/-- Everything a mailbox word can do: R102's write, or a step of the coprocessor (R107, R108). -/
theorem mailboxWord_cases (k : BitVec 4) (m : WordMove) (a : BitVec 28) (s : State) :
    (mailboxWord k m a s = noResult (writeWrite (wordOfFields a k) s)) ∨
    ∃ e, mailboxWord k m a s = .ok .none (copStep e s) := by
  cases m with
  | toCop => exact .inl rfl
  | toCpu ds =>
    right
    unfold mailboxWord
    by_cases h : k = 8#4
    · exact ⟨_, if_pos h⟩
    · exact ⟨_, if_neg h⟩

/-- An answer that is enabled (R107), as a record update. -/
theorem copAnswer_enabled {s : State} {a : Word} (ds : List (Option Word))
    (h : (⟨8#32, a⟩ : Request) ∈ s.cop.pending) (hroom : s.dev.inq.length < s.cfg.fifoDepth) :
    copAnswer a ds s = { s with
      mem := rewriteMessage a.toNat (ceilDiv4 (s.mem.readWord a.toNat).toNat) 1 ds s.mem,
      cop := ⟨s.cop.pending.erase ⟨8#32, a⟩⟩, dev := { s.dev with inq := s.dev.inq ++ [a ||| 8#32] } } := by
  have h' : (⟨Config.propertyChannel, a⟩ : Request) ∈ s.cop.pending := h
  simp [copAnswer, h', State.inRoom, hroom]; rfl

end Sys2Proof.Machine
end

