-- ==== Sys2Proof/Laws/Work.lean ====
section
/-! SUPPORT. The CPU inside an operation: what settling work, the checks of each piece and one CPU step can do (R22, R174,
R175), that the pieces of the builder and of drawing read nothing the coprocessor writes, and the bound on the CPU's
steps. -/

namespace Sys2Proof.Machine

/-! ## Settling -/

/-- What the builder's record, a return and going on with the work keep, settling keeps. -/
theorem settle_induct {P : State → Prop} (pm : ∀ s p, P s → P (s.withPm p))
    (cpu : ∀ s m ms, P s → P (s.withCpu (m :: ms))) (ret : ∀ s r, P s → P (s.returned r)) (ms : List Micro) (s : State)
    (h : P s) : P (settle ms s) := by
  induction ms generalizing s with
  | nil => exact ret s _ h
  | cons m ms ih =>
    cases m with
    | builder p => exact ih _ (pm s p h)
    | ret r => exact ret s r h
    | pixels ps => cases ps with
      | nil => exact ih s h
      | cons p ps => exact cpu s _ _ h
    | text x fg bg t cx cy => cases t with
      | nil => exact ih s h
      | cons ch t => exact cpu s _ _ h
    | _ => exact cpu s _ _ h

variable (ms : List Micro) (s : State)

@[simp] theorem settle_dev : (settle ms s).dev = s.dev :=
  settle_induct (P := fun t => t.dev = s.dev) (by simp) (by simp) (by simp) ms s rfl
@[simp] theorem settle_cop : (settle ms s).cop = s.cop :=
  settle_induct (P := fun t => t.cop = s.cop) (by simp) (by simp) (by simp) ms s rfl
@[simp] theorem settle_mem : (settle ms s).mem = s.mem :=
  settle_induct (P := fun t => t.mem = s.mem) (by simp) (by simp) (by simp) ms s rfl
@[simp] theorem settle_fb : (settle ms s).fb = s.fb :=
  settle_induct (P := fun t => t.fb = s.fb) (by simp) (by simp) (by simp) ms s rfl
@[simp] theorem settle_fault : (settle ms s).fault = s.fault :=
  settle_induct (P := fun t => t.fault = s.fault) (by simp) (by simp) (by simp) ms s rfl
@[simp] theorem settle_refused : (settle ms s).refused = s.refused :=
  settle_induct (P := fun t => t.refused = s.refused) (by simp) (by simp) (by simp) ms s rfl
@[simp] theorem settle_ops : (settle ms s).ops = s.ops :=
  settle_induct (P := fun t => t.ops = s.ops) (by simp) (by simp) (by simp) ms s rfl
@[simp] theorem settle_cfg : (settle ms s).cfg = s.cfg :=
  settle_induct (P := fun t => t.cfg = s.cfg) (by simp) (by simp) (by simp) ms s rfl
@[simp] theorem settle_sched : (settle ms s).sched = s.sched :=
  settle_induct (P := fun t => t.sched = s.sched) (by simp) (by simp) (by simp) ms s rfl
@[simp] theorem settle_drawn : (settle ms s).drawn = s.drawn :=
  settle_induct (P := fun t => t.drawn = s.drawn) (by simp) (by simp) (by simp) ms s rfl

/-- What is still to do was in the work. -/
theorem settle_cpu_mem {ms : List Micro} {s : State} : ∀ m ∈ (settle ms s).cpu, m ∈ ms := by
  induction ms generalizing s with
  | nil => simp [settle]
  | cons m ms ih =>
    have here : ∀ n ∈ (s.withCpu (m :: ms)).cpu, n ∈ m :: ms := fun n hn => hn
    have later : ∀ t n, n ∈ (settle ms t).cpu → n ∈ m :: ms := fun t n hn => List.mem_cons_of_mem _ (ih n hn)
    cases m with
    | builder p => exact later _
    | ret r => simp [settle]
    | pixels ps => cases ps with
      | nil => exact later _
      | cons p ps => exact here
    | text x fg bg t cx cy => cases t with
      | nil => exact later _
      | cons ch t => exact here
    | _ => exact here

/-- The operation is under way, its position and results as in `s`; or it is over: it returned one result, or it was
stopped and returned none (R22). -/
def Progress (s t : State) : Prop :=
  (t.cpu ≠ [] ∧ t.pos = s.pos ∧ t.results = s.results) ∨
  (t.cpu = [] ∧ t.pos = s.pos + 1 ∧ (t.results = s.results ∨ ∃ r, t.results = s.results ++ [r]))

theorem settle_progress : Progress s (settle ms s) := by
  suffices h : ∀ u : State, u.pos = s.pos → u.results = s.results → Progress s (settle ms u) from h s rfl rfl
  induction ms with
  | nil => intro u h1 h2; exact .inr ⟨rfl, by simp [settle, h1], .inr ⟨.none, by simp [settle, h2]⟩⟩
  | cons m ms ih =>
    intro u h1 h2
    have here : Progress s (u.withCpu (m :: ms)) := .inl ⟨by simp, h1, h2⟩
    cases m with
    | builder p => exact ih _ h1 h2
    | ret r => exact .inr ⟨rfl, by simp [settle, h1], .inr ⟨r, by simp [settle, h2]⟩⟩
    | pixels ps => cases ps with
      | nil => exact ih _ h1 h2
      | cons p ps => exact here
    | text x fg bg t cx cy => cases t with
      | nil => exact ih _ h1 h2
      | cons ch t => exact here
    | _ => exact here

/-! ## Checks -/

/-- What a check answers: a mark and nothing else, or the work, with the state as it was. -/
inductive Checked (s : State) (P : List Micro → Prop) : Res (List Micro) → Prop where
  | refuse (r : Refusal) : Checked s P (Sys2Proof.Machine.refuse r s)
  | raise (f : Fault) : Checked s P (Sys2Proof.Machine.raise f s)
  | ok (ms : List Micro) (h : P ms) : Checked s P (.ok ms s)

variable {s : State}

theorem Checked.mono {P Q : List Micro → Prop} {r : Res (List Micro)} (h : Checked s P r) (hPQ : ∀ ms, P ms → Q ms) :
    Checked s Q r := by
  cases h with
  | refuse r => exact .refuse r
  | raise f => exact .raise f
  | ok ms h => exact .ok ms (hPQ ms h)

theorem Checked.returning {P : List Micro → Prop} {r : Res (List Micro)} (h : Checked s P r) (res : Result) :
    Checked s (fun ms => ∃ ns, P ns ∧ ms = ns ++ [.ret res]) (r.returning res) := by
  cases h with
  | refuse r => exact .refuse r
  | raise f => exact .raise f
  | ok ms h => exact .ok _ ⟨ms, h, rfl⟩

/-- Everything the checks of `send` can do (R103). -/
theorem checked_sendWork (c a : Word) (s : State) :
    Checked s (fun ms => c = 8#32 ∧ a &&& 0xF#32 = 0#32 ∧ ms = [.pollFull 8#32 a]) (sendWork c a s) := by
  unfold sendWork
  split
  · exact .refuse _
  · rename_i h
    have hc := sendChannelRefusal_eq_none.mp h
    split
    · rename_i ha
      exact .ok _ ⟨hc, aligned16_iff.mp ha, by rw [hc]⟩
    · exact .raise _

/-- Everything the checks of `call` can do (R105). -/
theorem checked_callWork (c a : Word) (task : Task) (s : State) :
    Checked s (fun ms => c = 8#32 ∧ a &&& 0xF#32 = 0#32 ∧
      ms = [.pollFull 8#32 a, .pollEmpty 8#32 .drop, .verify a task]) (callWork c a task s) := by
  unfold callWork
  have h := checked_sendWork c a s
  revert h
  generalize sendWork c a s = r
  intro h
  cases h with
  | refuse r => exact .refuse r
  | raise f => exact .raise f
  | ok ms h => obtain ⟨h1, h2, rfl⟩ := h; exact .ok _ ⟨h1, h2, by rw [h1]; rfl⟩

/-- Everything the checks of the property `call` can do (R123). -/
theorem checked_pmCallWork (c : Word) (task : Task) (s : State) :
    Checked s (fun ms => s.pm.phase = .finished ∧ c = 8#32 ∧ s.cfg.msgBufAddr &&& 0xF#32 = 0#32 ∧
      ms = [.pollFull 8#32 s.cfg.msgBufAddr, .pollEmpty 8#32 .drop, .verify s.cfg.msgBufAddr task])
      (pmCallWork c task s) := by
  unfold pmCallWork
  split
  · exact .refuse _
  · rename_i h
    exact (checked_callWork c _ task s).mono fun ms ⟨h1, h2, h3⟩ => ⟨not_not.mp h, h1, h2, h3⟩

/-- Everything the checks of `add_tag` can do (R121). -/
theorem checked_addTagWork (id vbuf : Word) (req : List Word) (s : State) :
    Checked s (fun ms => s.pm.phase = .building ∧ id ≠ 0#32 ∧ req.length ≤ ceilDiv4 vbuf.toNat ∧
      s.pm.cursor + 3 + ceilDiv4 vbuf.toNat ≤ s.cfg.msgCapWords ∧
      ms = wordWrites s.pm.cursor (id :: vbuf :: 0#32 :: valueWords (ceilDiv4 vbuf.toNat) req) ++
        [.builder ⟨.building, s.pm.cursor + 3 + ceilDiv4 vbuf.toNat⟩]) (addTagWork id vbuf req s) := by
  unfold addTagWork
  dsimp only
  split
  · exact .refuse _
  · rename_i h1
    split
    · exact .refuse _
    · rename_i h2
      split
      · exact .refuse _
      · rename_i h3
        split
        · exact .raise _
        · rename_i h4
          exact .ok _ ⟨not_not.mp h1, h2, Nat.le_of_not_lt h3, Nat.le_of_not_lt h4, rfl⟩

/-- `add_tag` of an admitted tag that fits (R121). -/
theorem addTagWork_ok {id vbuf : Word} {req : List Word} (hp : s.pm.phase = .building) (hid : id ≠ 0#32)
    (hr : req.length ≤ ceilDiv4 vbuf.toNat) (hf : s.pm.cursor + 3 + ceilDiv4 vbuf.toNat ≤ s.cfg.msgCapWords) :
    addTagWork id vbuf req s = .ok
      (wordWrites s.pm.cursor (id :: vbuf :: 0#32 :: valueWords (ceilDiv4 vbuf.toNat) req) ++
        [.builder ⟨.building, s.pm.cursor + 3 + ceilDiv4 vbuf.toNat⟩]) s := by
  unfold addTagWork
  dsimp only
  rw [if_neg (by simp [hp]), if_neg (show ¬ id = Config.tagEnd from hid), if_neg (Nat.not_lt.mpr hr),
    if_neg (Nat.not_lt.mpr hf)]

/-- Everything the checks of `finish` can do (R122). -/
theorem checked_finishWork (s : State) :
    Checked s (fun ms => s.pm.phase = .building ∧ s.pm.cursor + 1 ≤ s.cfg.msgCapWords ∧
      ms = [.word s.pm.cursor 0#32, .builder ⟨.building, s.pm.cursor + 1⟩,
        .word 0 (BitVec.ofNat 32 (4 * (s.pm.cursor + 1))), .builder ⟨.finished, s.pm.cursor + 1⟩]) (finishWork s) := by
  unfold finishWork
  dsimp only
  split
  · exact .refuse _
  · rename_i h1
    split
    · exact .raise _
    · rename_i h2
      exact .ok _ ⟨not_not.mp h1, Nat.le_of_not_lt h2, rfl⟩

/-- `finish` of a build that leaves room for END (R122). -/
theorem finishWork_ok (hp : s.pm.phase = .building) (hf : s.pm.cursor + 1 ≤ s.cfg.msgCapWords) :
    finishWork s = .ok [.word s.pm.cursor 0#32, .builder ⟨.building, s.pm.cursor + 1⟩,
        .word 0 (BitVec.ofNat 32 (4 * (s.pm.cursor + 1))), .builder ⟨.finished, s.pm.cursor + 1⟩] s := by
  unfold finishWork
  dsimp only
  rw [if_neg (by simp [hp]), if_neg (Nat.not_lt.mpr hf)]
  rfl

/-- The four bytes of a pixel, b, g, r, a (R87, D29). -/
def pixelBytes (a : Nat) (c : Color) : List Micro :=
  [.byte a c.b, .byte (a + 1) c.g, .byte (a + 2) c.r, .byte (a + 3) c.a]

/-- Everything `put_pixel` can do after the checks of the driver (R143). -/
theorem checked_pixelWork (p : Pixel) (s : State) :
    Checked s (fun ms => ms = [] ∨
      (s.fb.desc.contains p.x p.y = true ∧ s.fb.desc.outside (s.fb.desc.offset p.x p.y) = false ∧
        ms = pixelBytes (s.fb.desc.buffer.toNat + s.fb.desc.offset p.x p.y) p.color)) (pixelWork p s) := by
  unfold pixelWork
  dsimp only
  split
  · rename_i hc
    split
    · exact .raise _
    · rename_i ho
      exact .ok _ (.inr ⟨hc, by simpa using ho, rfl⟩)
  · exact .ok _ (.inl rfl)

theorem Descriptor.outside_eq_false {d : Descriptor} {off : Nat} :
    d.outside off = false ↔ off + 4 ≤ d.size.toNat ∧ d.buffer.toNat + off + 4 ≤ addressSpace := by
  simp [Descriptor.outside]

theorem Descriptor.contains_iff {d : Descriptor} {x y : Int} :
    d.contains x y = true ↔ 0 ≤ x ∧ x < (d.width.toNat : Int) ∧ 0 ≤ y ∧ y < (d.height.toNat : Int) := by
  simp [Descriptor.contains]

/-! ## Entering work -/

theorem enter_progress {P : List Micro → Prop} {r : Res (List Micro)} (h : Checked s P r) (rest : List Micro) :
    Progress s (enter r rest) := by
  cases h with
  | refuse r => exact .inr ⟨rfl, by simp [enter, refuse], .inl (by simp [enter, refuse])⟩
  | raise f => exact .inr ⟨rfl, by simp [enter, raise], .inl (by simp [enter, raise])⟩
  | ok ms h => exact settle_progress _ _

/-- What work does to the state beside the operation itself: nothing to the queues, PENDING, memory, the driver. -/
structure Entered (s t : State) : Prop where
  dev   : t.dev = s.dev
  cop   : t.cop = s.cop
  mem   : t.mem = s.mem
  fb    : t.fb = s.fb
  ops   : t.ops = s.ops
  cfg   : t.cfg = s.cfg
  sched : t.sched = s.sched
  drawn : t.drawn = s.drawn
  marks : MarksKept s t

theorem entered_settle (ms : List Micro) (s : State) : Entered s (settle ms s) :=
  ⟨by simp, by simp, by simp, by simp, by simp, by simp, by simp, by simp, .of_eq (by simp) (by simp)⟩

theorem entered_stop_fault (f : Fault) (s : State) : Entered s (s.markFault f).ended :=
  ⟨by simp, by simp, by simp, by simp, by simp, by simp, by simp, by simp,
    (MarksKept.markFault s f).trans (.of_eq rfl rfl)⟩

theorem entered_stop_refusal (r : Refusal) (s : State) : Entered s (s.markRefused r).ended :=
  ⟨by simp, by simp, by simp, by simp, by simp, by simp, by simp, by simp,
    (MarksKept.markRefused s r).trans (.of_eq rfl rfl)⟩

theorem entered_enter {P : List Micro → Prop} {r : Res (List Micro)} (h : Checked s P r) (rest : List Micro) :
    Entered s (enter r rest) := by
  cases h with
  | refuse r => exact entered_stop_refusal r s
  | raise f => exact entered_stop_fault f s
  | ok ms h => exact entered_settle _ s

/-- What is still to do after entering was in the work or in the rest. -/
theorem enter_cpu_mem {P : List Micro → Prop} {r : Res (List Micro)} (h : Checked s P r) {rest : List Micro} :
    ∀ m ∈ (enter r rest).cpu, m ∈ rest ∨ ∃ ms, P ms ∧ r = .ok ms s ∧ m ∈ ms := by
  cases h with
  | refuse r => simp [enter, refuse]
  | raise f => simp [enter, raise]
  | ok ms h =>
    intro m hm
    rcases List.mem_append.mp (settle_cpu_mem m hm) with hm | hm
    · exact .inr ⟨ms, h, rfl, hm⟩
    · exact .inl hm

/-! ## One CPU step -/

theorem afterVerify_entered (b : Word) (task : Task) (s : State) : Entered s (afterVerify b task s) := by
  cases task <;> simp only [afterVerify]
  · exact ⟨rfl, rfl, rfl, rfl, rfl, rfl, rfl, rfl, .of_eq rfl rfl⟩
  · exact ⟨rfl, rfl, rfl, rfl, rfl, rfl, rfl, rfl, .of_eq rfl rfl⟩
  · split <;> exact ⟨rfl, rfl, rfl, rfl, rfl, rfl, rfl, rfl, .of_eq rfl rfl⟩

theorem afterVerify_progress (b : Word) (task : Task) (s : State) : Progress s (afterVerify b task s) := by
  cases task <;> simp only [afterVerify]
  · exact .inr ⟨rfl, rfl, .inr ⟨_, rfl⟩⟩
  · exact .inr ⟨rfl, rfl, .inr ⟨_, rfl⟩⟩
  · split
    · exact .inl ⟨by simp, rfl, rfl⟩
    · exact .inr ⟨rfl, rfl, .inr ⟨_, rfl⟩⟩

/-- One CPU step keeps these. -/
structure Ticked (s t : State) : Prop where
  cop   : t.cop = s.cop
  ops   : t.ops = s.ops
  cfg   : t.cfg = s.cfg
  sched : t.sched = s.sched
  drawn : t.drawn = s.drawn
  marks : MarksKept s t

theorem Ticked.refl (s : State) : Ticked s s := ⟨rfl, rfl, rfl, rfl, rfl, .refl s⟩

theorem Entered.ticked {s t : State} (h : Entered s t) : Ticked s t := ⟨h.cop, h.ops, h.cfg, h.sched, h.drawn, h.marks⟩

theorem Entered.after {s u t : State} (h : Entered u t) (hu : Ticked s u) : Ticked s t :=
  ⟨h.cop.trans hu.cop, h.ops.trans hu.ops, h.cfg.trans hu.cfg, h.sched.trans hu.sched, h.drawn.trans hu.drawn,
    hu.marks.trans h.marks⟩

theorem Progress.congr {s u t : State} (h : Progress u t) (h1 : u.pos = s.pos) (h2 : u.results = s.results) :
    Progress s t := by
  unfold Progress at *; rw [← h1, ← h2]; exact h

theorem doMicro_ticked (m : Micro) (ms : List Micro) (s : State) : Ticked s (doMicro m ms s) := by
  cases m with
  | word i v => exact (entered_settle _ _).after ⟨rfl, rfl, rfl, rfl, rfl, .of_eq rfl rfl⟩
  | builder p => exact (entered_settle _ _).after ⟨rfl, rfl, rfl, rfl, rfl, .of_eq rfl rfl⟩
  | addTag id v r => exact (entered_enter (checked_addTagWork _ _ _ s) _).ticked
  | allocTag w h d => exact (entered_enter (checked_addTagWork _ _ _ s) _).ticked
  | pitchTag w h d oA => exact (entered_enter (checked_addTagWork _ _ _ s) _).ticked
  | finish => exact (entered_enter (checked_finishWork s) _).ticked
  | propertyCall c t => exact (entered_enter (checked_pmCallWork _ _ s) _).ticked
  | pollFull c a =>
    simp only [doMicro]; split
    · exact .refl s
    · exact (entered_settle _ _).after ⟨rfl, rfl, rfl, rfl, rfl, .of_eq rfl rfl⟩
  | pollEmpty c use =>
    simp only [doMicro]; split
    · exact .refl s
    · split
      · cases use
        · exact ⟨rfl, rfl, rfl, rfl, rfl, .of_eq rfl rfl⟩
        · exact (entered_settle _ _).after ⟨rfl, rfl, rfl, rfl, rfl, .of_eq rfl rfl⟩
      · exact ⟨rfl, rfl, rfl, rfl, rfl, .of_eq rfl rfl⟩
  | verify b t => exact (afterVerify_entered b t s).ticked
  | readBus => exact ⟨rfl, rfl, rfl, rfl, rfl, .of_eq rfl rfl⟩
  | readSize => exact ⟨rfl, rfl, rfl, rfl, rfl, .of_eq rfl rfl⟩
  | readPitch => simp only [doMicro, endInit]; split <;> exact ⟨rfl, rfl, rfl, rfl, rfl, .of_eq rfl rfl⟩
  | pixels ps => cases ps with
    | nil => exact (entered_settle _ _).ticked
    | cons p ps => exact (entered_enter (checked_pixelWork p s) _).ticked
  | byte a b => exact (entered_settle _ _).after ⟨rfl, rfl, rfl, rfl, rfl, .of_eq rfl rfl⟩
  | text x fg bg t cx cy => cases t <;> exact (entered_settle _ _).ticked
  | ret r => exact ⟨rfl, rfl, rfl, rfl, rfl, .of_eq rfl rfl⟩

theorem cpuTick_ticked (s : State) : Ticked s (cpuTick s) := by
  unfold cpuTick; split
  · exact .refl s
  · exact doMicro_ticked _ _ s

@[simp] theorem cpuTick_cop (s : State) : (cpuTick s).cop = s.cop := (cpuTick_ticked s).cop
@[simp] theorem cpuTick_ops (s : State) : (cpuTick s).ops = s.ops := (cpuTick_ticked s).ops
@[simp] theorem cpuTick_cfg (s : State) : (cpuTick s).cfg = s.cfg := (cpuTick_ticked s).cfg
@[simp] theorem cpuTick_sched (s : State) : (cpuTick s).sched = s.sched := (cpuTick_ticked s).sched
@[simp] theorem cpuTick_drawn (s : State) : (cpuTick s).drawn = s.drawn := (cpuTick_ticked s).drawn

/-- Between operations the CPU's step inside an operation is nothing. -/
@[simp] theorem cpuTick_nil {s : State} (h : s.cpu = []) : cpuTick s = s := by unfold cpuTick; rw [h]

theorem cpuTick_cons {s : State} {m : Micro} {ms : List Micro} (h : s.cpu = m :: ms) : cpuTick s = doMicro m ms s := by
  unfold cpuTick; rw [h]

/-- One CPU step of an operation under way leaves it under way or over (R22). -/
theorem cpuTick_progress {s : State} (h : s.cpu ≠ []) : Progress s (cpuTick s) := by
  obtain ⟨m, ms, hc⟩ := List.exists_cons_of_ne_nil h
  have stay : Progress s s := .inl ⟨h, rfl, rfl⟩
  rw [cpuTick_cons hc]
  cases m with
  | word i v => exact (settle_progress _ _).congr rfl rfl
  | builder p => exact (settle_progress _ _).congr rfl rfl
  | addTag id v r => exact enter_progress (checked_addTagWork _ _ _ s) _
  | allocTag w h d => exact enter_progress (checked_addTagWork _ _ _ s) _
  | pitchTag w h d oA => exact enter_progress (checked_addTagWork _ _ _ s) _
  | finish => exact enter_progress (checked_finishWork s) _
  | propertyCall c t => exact enter_progress (checked_pmCallWork _ _ s) _
  | pollFull c a =>
    simp only [doMicro]; split
    · exact stay
    · exact (settle_progress _ _).congr rfl rfl
  | pollEmpty c use =>
    simp only [doMicro]; split
    · exact stay
    · split
      · cases use
        · exact .inr ⟨rfl, rfl, .inr ⟨_, rfl⟩⟩
        · exact (settle_progress _ _).congr rfl rfl
      · exact .inl ⟨h, rfl, rfl⟩
  | verify b t => exact afterVerify_progress b t s
  | readBus => exact .inl ⟨by simp [doMicro], rfl, rfl⟩
  | readSize => exact .inl ⟨by simp [doMicro], rfl, rfl⟩
  | readPitch => simp only [doMicro, endInit]; split <;> exact .inr ⟨rfl, rfl, .inr ⟨_, rfl⟩⟩
  | pixels ps => cases ps with
    | nil => exact settle_progress _ _
    | cons p ps => exact enter_progress (checked_pixelWork p s) _
  | byte a b => exact (settle_progress _ _).congr rfl rfl
  | text x fg bg t cx cy => cases t <;> exact settle_progress _ _
  | ret r => exact .inr ⟨rfl, rfl, .inr ⟨_, rfl⟩⟩

/-! ## The bound on the CPU's steps -/

/-- The bound of a list of work. -/
def workCost (ms : List Micro) : Nat := (ms.map Micro.cost).sum

@[simp] theorem workCost_nil : workCost [] = 0 := rfl
@[simp] theorem workCost_cons (m : Micro) (ms : List Micro) : workCost (m :: ms) = m.cost + workCost ms := rfl
@[simp] theorem workCost_append (ms ns : List Micro) : workCost (ms ++ ns) = workCost ms + workCost ns := by
  simp [workCost]

@[simp] theorem workCost_wordWrites (i : Nat) (vs : List Word) : workCost (wordWrites i vs) = vs.length := by
  induction vs generalizing i with
  | nil => rfl
  | cons v vs ih => simp [wordWrites, ih, Micro.cost]; omega

theorem settle_cost (ms : List Micro) (s : State) : workCost (settle ms s).cpu ≤ workCost ms := by
  induction ms generalizing s with
  | nil => simp [settle]
  | cons m ms ih =>
    have here : workCost (s.withCpu (m :: ms)).cpu ≤ workCost (m :: ms) := le_refl _
    have later : ∀ t, workCost (settle ms t).cpu ≤ workCost (m :: ms) := fun t =>
      (ih t).trans (by rw [workCost_cons]; omega)
    cases m with
    | builder p => exact later _
    | ret r => simp [settle]
    | pixels ps => cases ps with
      | nil => exact later _
      | cons p ps => exact here
    | text x fg bg t cx cy => cases t with
      | nil => exact later _
      | cons ch t => exact here
    | _ => exact here

theorem State.fuel_eq (s : State) : s.fuel = workCost s.cpu + s.dev.inq.length := rfl

theorem settle_fuel (ms : List Micro) (s : State) : (settle ms s).fuel ≤ workCost ms + s.dev.inq.length := by
  rw [State.fuel_eq, settle_dev]; have := settle_cost ms s; omega

theorem enter_fuel {P : List Micro → Prop} {r : Res (List Micro)} (h : Checked s P r) (rest : List Micro) {n : Nat}
    (hP : ∀ ms, P ms → workCost ms ≤ n) : (enter r rest).fuel ≤ n + workCost rest + s.dev.inq.length := by
  cases h with
  | refuse r => simp [enter, refuse, State.fuel_eq]
  | raise f => simp [enter, raise, State.fuel_eq]
  | ok ms h =>
    have := settle_fuel (ms ++ rest) s
    have := hP ms h
    simp only [enter, workCost_append] at *
    omega

theorem length_valueWords {n : Nat} {req : List Word} (h : req.length ≤ n) : (valueWords n req).length = n := by
  simp [valueWords]; omega

theorem length_charPixels (g : Glyph) (x y : Int) (fg bg : Color) : (charPixels g x y fg bg).length = 64 := rfl

/-- A CPU step that changes anything uses up some of the bound; one that changes nothing is a poll whose flag is set. -/
theorem cpuTick_fuel (s : State) :
    (cpuTick s).fuel < s.fuel ∨ cpuTick s = s ∧ (s.cpu = [] ∨
      (∃ c a ms, s.cpu = .pollFull c a :: ms ∧ s.full = true) ∨
      ∃ c use ms, s.cpu = .pollEmpty c use :: ms ∧ s.dev.inq = []) := by
  rcases hc : s.cpu with _ | ⟨m, ms⟩
  · exact .inr ⟨cpuTick_nil hc, .inl rfl⟩
  have hs : s.fuel = m.cost + workCost ms + s.dev.inq.length := by rw [State.fuel_eq, hc]; rfl
  have T := fun (id v : Word) (r : List Word) (rest : List Micro) =>
    enter_fuel (checked_addTagWork id v r s) rest (n := ceilDiv4 v.toNat + 4) (by
      rintro _ ⟨-, -, h, -, rfl⟩
      simp [length_valueWords h, Micro.cost])
  rw [cpuTick_cons hc, hs]
  cases m with
  | word i v =>
    have := settle_fuel ms (s.setWord i v)
    left; simp only [doMicro, Micro.cost, State.setWord_dev] at *; omega
  | builder p =>
    have := settle_fuel ms (s.withPm p)
    left; simp only [doMicro, Micro.cost, State.withPm_dev] at *; omega
  | addTag id v r =>
    have := T id v r ms
    left; simp only [doMicro, Micro.cost] at *; omega
  | allocTag w h d =>
    have := T Config.tagAllocateBuffer.id Config.tagAllocateBuffer.vbuf [Config.allocAlign]
      (.pitchTag w h d s.valueOffset :: ms)
    have e : ceilDiv4 Config.tagAllocateBuffer.vbuf.toNat = 2 := rfl
    left; simp only [doMicro, addRowWork, Micro.cost, workCost_cons] at *; omega
  | pitchTag w h d oA =>
    have := T Config.tagGetPitch.id Config.tagGetPitch.vbuf []
      (.finish :: .propertyCall Config.propertyChannel (.fbInit w h d oA s.valueOffset) :: ms)
    have e : ceilDiv4 Config.tagGetPitch.vbuf.toNat = 1 := rfl
    left; simp only [doMicro, addRowWork, Micro.cost, workCost_cons] at *; omega
  | finish =>
    have := enter_fuel (checked_finishWork s) ms (n := 4) (by rintro _ ⟨-, -, rfl⟩; simp [Micro.cost])
    left; simp only [doMicro, Micro.cost] at *; omega
  | propertyCall c t =>
    have := enter_fuel (checked_pmCallWork c t s) ms (n := 6) (by rintro _ ⟨-, -, -, rfl⟩; simp [Micro.cost])
    left; simp only [doMicro, Micro.cost] at *; omega
  | pollFull c a =>
    simp only [doMicro]; split
    · rename_i h; exact .inr ⟨rfl, .inr (.inl ⟨c, a, ms, rfl, h⟩)⟩
    · have := settle_fuel ms (s.withOut (s.dev.out ++ [assemble a c]))
      left; simp only [Micro.cost, State.withOut_dev] at *; omega
  | pollEmpty c use =>
    simp only [doMicro]; split
    · rename_i h; exact .inr ⟨rfl, .inr (.inr ⟨c, use, ms, rfl, h⟩)⟩
    · rename_i w rest h
      left
      rw [h]
      split
      · cases use
        · simp [State.fuel_eq, Micro.cost]; omega
        · have := settle_fuel ms (s.withIn rest)
          simp only [Micro.cost, State.withIn_dev, List.length_cons] at *; omega
      · rw [State.fuel_eq]; simp [hc, Micro.cost]
  | verify b t =>
    left
    cases t <;> simp only [doMicro, afterVerify]
    · simp [State.fuel_eq, Micro.cost]
    · simp [State.fuel_eq, Micro.cost]
    · split
      · simp [State.fuel_eq, Micro.cost]; omega
      · simp [State.fuel_eq, Micro.cost]
  | readBus => left; simp [doMicro, State.fuel_eq, Micro.cost]; omega
  | readSize => left; simp [doMicro, State.fuel_eq, Micro.cost]; omega
  | readPitch => left; simp only [doMicro, endInit]; split <;> simp [State.fuel_eq, Micro.cost]
  | pixels ps => cases ps with
    | nil =>
      have := settle_fuel ms s
      left; simp only [doMicro, Micro.cost] at *; omega
    | cons p ps =>
      have := enter_fuel (checked_pixelWork p s) (.pixels ps :: ms) (n := 4) (by
        rintro _ (rfl | ⟨-, -, rfl⟩) <;> simp [pixelBytes, Micro.cost])
      left; simp only [doMicro, Micro.cost, workCost_cons, List.length_cons] at *; omega
  | byte a b =>
    have := settle_fuel ms (s.withMem (s.mem.writeByte a b))
    left; simp only [doMicro, Micro.cost, State.withMem_dev] at *; omega
  | text x fg bg t cx cy => cases t with
    | nil =>
      have := settle_fuel ms s
      left; simp only [doMicro, Micro.cost] at *; omega
    | cons ch t =>
      have := settle_fuel (textWork x fg bg ch t cx cy s ++ ms) s
      have h : workCost (textWork x fg bg ch t cx cy s) ≤ 321 + (323 * t.length + 1) := by
        unfold textWork; split <;> simp [Micro.cost, length_charPixels]
      left; simp only [doMicro, Micro.cost, workCost_append, List.length_cons] at *; omega
  | ret r => left; simp [doMicro, State.fuel_eq, Micro.cost]

end Sys2Proof.Machine
end

