-- ==== Sys2Proof/Laws/Run.lean ====
section
/-! SUPPORT. Running an operation: the CPU by itself comes to the end of the operation or to a poll whose flag is set, and
further steps change nothing; how a run under a schedule is reasoned about (what every CPU step and every coprocessor
step keeps holds at its end); and that an operation of the builder or of drawing reads nothing the coprocessor writes. -/

namespace Sys2Proof.Machine

/-! ## CPU steps one after another -/

@[simp] theorem cpuTicks_zero (s : State) : cpuTicks 0 s = s := rfl

theorem cpuTicks_induct {P : State → Prop} (tick : ∀ s, P s → P (cpuTick s)) (n : Nat) (s : State) (h : P s) :
    P (cpuTicks n s) := by
  induction n generalizing s with
  | zero => exact h
  | succ n ih => exact ih _ (tick s h)

theorem cpuTicks_fixed {s : State} (h : cpuTick s = s) (n : Nat) : cpuTicks n s = s := by
  induction n with
  | zero => rfl
  | succ n ih => rw [cpuTicks, h, ih]

theorem cpuTicks_add (m n : Nat) (s : State) : cpuTicks (m + n) s = cpuTicks n (cpuTicks m s) := by
  induction m generalizing s with
  | zero => simp
  | succ m ih => rw [show m + 1 + n = (m + n) + 1 by omega]; exact ih (cpuTick s)

theorem cpuTicks_sched (n : Nat) (s : State) : (cpuTicks n s).sched = s.sched :=
  cpuTicks_induct (P := fun t => t.sched = s.sched) (fun t h => by simp [h]) n s rfl

/-- After as many steps as the bound says, a step changes nothing. -/
theorem cpuTick_cpuTicks {n : Nat} {s : State} (h : s.fuel ≤ n) : cpuTick (cpuTicks n s) = cpuTicks n s := by
  induction n generalizing s with
  | zero =>
    rcases cpuTick_fuel s with h2 | ⟨h2, -⟩
    · omega
    · exact h2
  | succ n ih =>
    rcases cpuTick_fuel s with h2 | ⟨h2, -⟩
    · exact ih (by omega)
    · rw [cpuTicks_fixed h2, h2]

/-- Steps past the bound change nothing. -/
theorem cpuTicks_eq_alone {n : Nat} {s : State} (h : s.fuel ≤ n) : cpuTicks n s = alone s := by
  obtain ⟨k, rfl⟩ := Nat.exists_eq_add_of_le h
  rw [cpuTicks_add, cpuTicks_fixed (cpuTick_cpuTicks (le_refl _)), alone]

@[simp] theorem cpuTick_alone (s : State) : cpuTick (alone s) = alone s := cpuTick_cpuTicks (le_refl _)

/-- A step first makes no difference to where the CPU comes by itself. -/
theorem alone_cpuTick (s : State) : alone (cpuTick s) = alone s := by
  rcases cpuTick_fuel s with h | ⟨h, -⟩
  · rw [← cpuTicks_eq_alone (n := s.fuel - 1) (s := cpuTick s) (by omega)]
    show cpuTicks (s.fuel - 1 + 1) s = cpuTicks s.fuel s
    rw [show s.fuel - 1 + 1 = s.fuel by omega]
  · rw [h]

theorem alone_cpuTicks (n : Nat) (s : State) : alone (cpuTicks n s) = alone s :=
  cpuTicks_induct (P := fun t => alone t = alone s) (fun t h => by rw [alone_cpuTick, h]) n s rfl

theorem alone_fixed {s : State} (h : cpuTick s = s) : alone s = s := cpuTicks_fixed h _

@[simp] theorem alone_nil {s : State} (h : s.cpu = []) : alone s = s := alone_fixed (cpuTick_nil h)

@[simp] theorem alone_returned (s : State) (r : Result) : alone (s.returned r) = s.returned r := alone_nil rfl
@[simp] theorem alone_ended (s : State) : alone s.ended = s.ended := alone_nil rfl

theorem alone_induct {P : State → Prop} (tick : ∀ s, P s → P (cpuTick s)) (s : State) (h : P s) : P (alone s) :=
  cpuTicks_induct tick _ s h

/-- The CPU by itself comes to the end of the operation, or to a poll whose flag is set (R111). -/
theorem alone_end (s : State) :
    (alone s).cpu = [] ∨
    (∃ c a ms, (alone s).cpu = .pollFull c a :: ms ∧ (alone s).full = true) ∨
    ∃ c use ms, (alone s).cpu = .pollEmpty c use :: ms ∧ (alone s).dev.inq = [] := by
  rcases cpuTick_fuel (alone s) with h | ⟨-, h⟩
  · rw [cpuTick_alone] at h; omega
  · exact h

/-! ## Running under a schedule -/

theorem drive_nil (s : State) : drive [] s = alone (s.withSched []) := rfl

theorem drive_over {s : State} (ts : List Turn) (h : s.cpu = []) : drive ts s = s.withSched ts := by
  cases ts with
  | nil => exact alone_nil h
  | cons t ts => unfold drive; rw [if_pos (by rw [h]; rfl)]

theorem drive_cpu {s : State} (ts : List Turn) (h : s.cpu ≠ []) : drive (.cpu :: ts) s = drive ts (cpuTick s) := by
  conv_lhs => unfold drive
  rw [if_neg (by simpa using h)]

theorem drive_cop {s : State} (e : CopStep) (ts : List Turn) (h : s.cpu ≠ []) :
    drive (.cop e :: ts) s = drive ts (copStep e s) := by
  conv_lhs => unfold drive
  rw [if_neg (by simpa using h)]

theorem drive_pause {s : State} (ts : List Turn) (h : s.cpu ≠ []) : drive (.pause :: ts) s = s.withSched ts := by
  conv_lhs => unfold drive
  rw [if_neg (by simpa using h)]

/-- CPU turns one after another, while the operation is under way. -/
theorem drive_replicate_cpu (k : Nat) (ts : List Turn) (s : State) (h : (cpuTicks k s).cpu ≠ []) :
    drive (List.replicate k .cpu ++ ts) s = drive ts (cpuTicks k s) := by
  induction k generalizing s with
  | zero => rfl
  | succ k ih =>
    have hc : s.cpu ≠ [] := fun hc => by rw [cpuTicks_fixed (cpuTick_nil hc)] at h; exact h hc
    rw [List.replicate_succ, List.cons_append, drive_cpu _ hc]
    exact ih _ h

/-- A property of the start that every step keeps, whoever takes it, holds where the run stops. The coprocessor's steps
have to keep it only while the operation is under way. -/
theorem drive_induct {P : State → Prop} (tick : ∀ s, P s → P (cpuTick s))
    (cop : ∀ e s, s.cpu ≠ [] → P s → P (copStep e s)) (sched : ∀ s ts, P s → P (s.withSched ts)) (ts : List Turn)
    (s : State) (h : P s) : P (drive ts s) := by
  induction ts generalizing s with
  | nil => exact alone_induct tick _ (sched s [] h)
  | cons t ts ih =>
    by_cases hc : s.cpu = []
    · rw [drive_over _ hc]; exact sched s _ h
    · cases t with
      | cpu => rw [drive_cpu _ hc]; exact ih _ (tick s h)
      | cop e => rw [drive_cop _ _ hc]; exact ih _ (cop e s hc h)
      | pause => rw [drive_pause _ hc]; exact sched s _ h

/-- The same, with the coprocessor's steps restricted to those in the schedule. -/
theorem drive_induct_mem {P : State → Prop} (ts : List Turn) (tick : ∀ s, P s → P (cpuTick s))
    (cop : ∀ e s, .cop e ∈ ts → s.cpu ≠ [] → P s → P (copStep e s)) (sched : ∀ s ts, P s → P (s.withSched ts))
    (s : State) (h : P s) : P (drive ts s) := by
  induction ts generalizing s with
  | nil => exact alone_induct tick _ (sched s [] h)
  | cons t ts ih =>
    by_cases hc : s.cpu = []
    · rw [drive_over _ hc]; exact sched s _ h
    · have ih := ih fun e s he => cop e s (List.mem_cons_of_mem _ he)
      cases t with
      | cpu => rw [drive_cpu _ hc]; exact ih _ (tick s h)
      | cop e => rw [drive_cop _ _ hc]; exact ih _ (cop e s (by simp) hc h)
      | pause => rw [drive_pause _ hc]; exact sched s _ h

/-- An operation that is still under way was paused, or the schedule has ended and it waits in a poll loop (R111). -/
theorem drive_waiting (ts : List Turn) (s : State) (h : (drive ts s).cpu ≠ []) :
    .pause ∈ ts ∨ (drive ts s).sched = [] ∧
      ((∃ c a ms, (drive ts s).cpu = .pollFull c a :: ms) ∨ ∃ c use ms, (drive ts s).cpu = .pollEmpty c use :: ms) := by
  induction ts generalizing s with
  | nil =>
    right
    rw [drive_nil] at h ⊢
    refine ⟨by rw [alone, cpuTicks_sched]; rfl, ?_⟩
    rcases alone_end (s.withSched []) with h2 | ⟨c, a, ms, h2, -⟩ | ⟨c, u, ms, h2, -⟩
    · exact absurd h2 h
    · exact .inl ⟨c, a, ms, h2⟩
    · exact .inr ⟨c, u, ms, h2⟩
  | cons t ts ih =>
    by_cases hc : s.cpu = []
    · rw [drive_over _ hc] at h; exact absurd hc h
    · cases t with
      | cpu => rw [drive_cpu _ hc] at h ⊢; exact (ih _ h).imp_left (by simp [·])
      | cop e => rw [drive_cop _ _ hc] at h ⊢; exact (ih _ h).imp_left (by simp [·])
      | pause => exact .inl (by simp)

/-- What every run keeps. -/
structure Driven (s t : State) : Prop where
  ops   : t.ops = s.ops
  cfg   : t.cfg = s.cfg
  drawn : t.drawn = s.drawn
  marks : MarksKept s t

theorem driven_drive (ts : List Turn) (s : State) : Driven s (drive ts s) := by
  refine drive_induct (P := Driven s) (fun u h => ?_) (fun e u _ h => ?_) (fun u us h => ?_) ts s
    ⟨rfl, rfl, rfl, .refl s⟩
  · have k := cpuTick_ticked u
    exact ⟨k.ops.trans h.ops, k.cfg.trans h.cfg, k.drawn.trans h.drawn, h.marks.trans k.marks⟩
  · exact ⟨by simp [h.ops], by simp [h.cfg], by simp [h.drawn], h.marks.trans (.of_eq (by simp) (by simp))⟩
  · exact ⟨h.ops, h.cfg, h.drawn, h.marks.trans (.of_eq rfl rfl)⟩

/-- An operation under way is under way or over where its run stops (R22). -/
theorem drive_progress (ts : List Turn) (s : State) (h : s.cpu ≠ []) : Progress s (drive ts s) := by
  refine drive_induct (P := fun t => Progress s t) (fun t ht => ?_) (fun e t _ ht => ?_) (fun t us ht => ht) ts s
    (.inl ⟨h, rfl, rfl⟩)
  · by_cases hc : t.cpu = []
    · rw [cpuTick_nil hc]; exact ht
    · rcases ht with ⟨_, h1, h2⟩ | ⟨h1, _⟩
      · exact (cpuTick_progress hc).congr h1 h2
      · exact absurd h1 hc
  · unfold Progress at *; simpa using ht

/-! ## Beginning an operation -/

theorem State.withSched_self {s : State} {t : List Turn} (h : s.sched = t) : s.withSched t = s := by subst h; rfl

@[simp] theorem launch_refuse (r : Refusal) (s : State) :
    launch (refuse r s) = .next (s.markRefused r).ended := by
  simp only [launch, enter, refuse]
  rw [drive_over _ rfl, State.withSched_self rfl]

@[simp] theorem launch_raise (f : Fault) (s : State) :
    launch (raise f s) = .next (s.markFault f).ended := by
  simp only [launch, enter, raise]
  rw [drive_over _ rfl, State.withSched_self rfl]

theorem launch_ok (ms : List Micro) (s : State) : launch (.ok ms s) = .next (drive s.sched (settle ms s)) := by
  simp [launch, enter]

@[simp] theorem returning_ok (ms : List Micro) (s : State) (r : Result) :
    (Res.ok ms s).returning r = .ok (ms ++ [.ret r]) s := rfl
@[simp] theorem returning_refuse (q : Refusal) (s : State) (r : Result) :
    (refuse q s : Res (List Micro)).returning r = refuse q s := rfl
@[simp] theorem returning_raise (f : Fault) (s : State) (r : Result) :
    (raise f s : Res (List Micro)).returning r = raise f s := rfl

/-- Everything beginning an operation can do. -/
theorem launch_cases {s : State} {P : List Micro → Prop} {r : Res (List Micro)} (h : Checked s P r) :
    (∃ q, launch r = .next (s.markRefused q).ended) ∨ (∃ f, launch r = .next (s.markFault f).ended) ∨
    ∃ ms, P ms ∧ r = .ok ms s ∧ launch r = .next (drive s.sched (settle ms s)) := by
  cases h with
  | refuse q => exact .inl ⟨q, launch_refuse q s⟩
  | raise f => exact .inr (.inl ⟨f, launch_raise f s⟩)
  | ok ms h => exact .inr (.inr ⟨ms, h, rfl, launch_ok ms s⟩)

/-- With a coprocessor that takes no step the operation goes as far as the CPU comes by itself. -/
theorem launch_alone {s : State} (h : s.sched = []) (ms : List Micro) :
    launch (.ok ms s) = .next (alone (settle ms s)) := by
  rw [launch_ok, h, drive_nil, State.withSched_self (by simp [h])]

/-! ## Settling -/

theorem alone_settle_cons {m : Micro} {ms : List Micro} {s : State} (h : settle (m :: ms) s = s.withCpu (m :: ms)) :
    alone (settle (m :: ms) s) = alone (doMicro m ms (s.withCpu (m :: ms))) := by
  rw [h, ← alone_cpuTick, cpuTick_cons (s := s.withCpu (m :: ms)) rfl]

/-- Settling forgets where the CPU stood. -/
@[simp] theorem settle_withCpu (ms : List Micro) (s : State) (c : List Micro) :
    settle ms (s.withCpu c) = settle ms s := by
  induction ms generalizing s c with
  | nil => rfl
  | cons m ms ih =>
    cases m with
    | builder p => exact ih (s.withPm p) c
    | pixels ps => cases ps with
      | nil => exact ih s c
      | cons p ps => rfl
    | text x fg bg t cx cy => cases t with
      | nil => exact ih s c
      | cons ch t => rfl
    | _ => rfl

@[simp] theorem settle_builder (p : Builder) (ms : List Micro) (s : State) :
    settle (.builder p :: ms) s = settle ms (s.withPm p) := rfl

@[simp] theorem settle_ret (r : Result) (ms : List Micro) (s : State) : settle (.ret r :: ms) s = s.returned r := rfl

@[simp] theorem settle_pixels_nil (ms : List Micro) (s : State) : settle (.pixels [] :: ms) s = settle ms s := rfl

@[simp] theorem settle_text_nil (x : Int) (fg bg : Color) (cx cy : Int) (ms : List Micro) (s : State) :
    settle (.text x fg bg [] cx cy :: ms) s = settle ms s := rfl

theorem setWords_cons (s : State) (i : Nat) (v : Word) (vs : List Word) :
    s.setWords i (v :: vs) = (s.setWord i v).setWords (i + 1) vs := by
  show s.withMem ((s.mem.writeWord (s.wordAddr i) v).writeWords (s.wordAddr i + 4) vs) = _
  rw [show s.wordAddr i + 4 = s.wordAddr (i + 1) by unfold State.wordAddr; omega]
  rfl

/-! ## What the coprocessor writes, put under a state -/

/-- `s` with other queues, PENDING, memory and schedule. -/
def State.over (s : State) (d : Device) (c : Coprocessor) (m : Memory) (t : List Turn) : State :=
  { s with dev := d, cop := c, mem := m, sched := t }

section Over
variable (s : State) (d : Device) (c : Coprocessor) (m : Memory) (t : List Turn)

@[simp] theorem State.over_dev : (s.over d c m t).dev = d := rfl
@[simp] theorem State.over_cop : (s.over d c m t).cop = c := rfl
@[simp] theorem State.over_mem : (s.over d c m t).mem = m := rfl
@[simp] theorem State.over_pm : (s.over d c m t).pm = s.pm := rfl
@[simp] theorem State.over_fb : (s.over d c m t).fb = s.fb := rfl
@[simp] theorem State.over_fault : (s.over d c m t).fault = s.fault := rfl
@[simp] theorem State.over_refused : (s.over d c m t).refused = s.refused := rfl
@[simp] theorem State.over_cpu : (s.over d c m t).cpu = s.cpu := rfl
@[simp] theorem State.over_pos : (s.over d c m t).pos = s.pos := rfl
@[simp] theorem State.over_ops : (s.over d c m t).ops = s.ops := rfl
@[simp] theorem State.over_results : (s.over d c m t).results = s.results := rfl
@[simp] theorem State.over_cfg : (s.over d c m t).cfg = s.cfg := rfl
@[simp] theorem State.over_sched : (s.over d c m t).sched = t := rfl
@[simp] theorem State.over_drawn : (s.over d c m t).drawn = s.drawn := rfl
@[simp] theorem State.over_over (d' : Device) (c' : Coprocessor) (m' : Memory) (t' : List Turn) :
    (s.over d c m t).over d' c' m' t' = s.over d' c' m' t' := rfl
theorem State.over_self : s.over s.dev s.cop s.mem s.sched = s := rfl
theorem State.withSched_over : (s.over d c m t).withSched [] = s.over d c m [] := rfl

theorem State.markFault_over (f : Fault) : (s.over d c m t).markFault f = (s.markFault f).over d c m t := by
  cases hf : s.fault <;> cases hr : s.refused <;> simp [State.markFault, State.over, hf, hr]
theorem State.markRefused_over (r : Refusal) : (s.over d c m t).markRefused r = (s.markRefused r).over d c m t := by
  cases hf : s.fault <;> cases hr : s.refused <;> simp [State.markRefused, State.over, hf, hr]

theorem settle_over (ms : List Micro) : settle ms (s.over d c m t) = (settle ms s).over d c m t := by
  induction ms generalizing s with
  | nil => rfl
  | cons x ms ih =>
    cases x with
    | builder p => exact ih (s.withPm p)
    | pixels ps => cases ps with
      | nil => exact ih s
      | cons p ps => rfl
    | text x fg bg t cx cy => cases t with
      | nil => exact ih s
      | cons ch t => rfl
    | _ => rfl

/-- Checks that read only the builder, the driver and the parameters: every state with the same ones is answered the
same. -/
def ChecksControl (f : State → Res (List Micro)) : Prop :=
  ∀ s : State, (∃ r, ∀ u : State, u.pm = s.pm → u.fb = s.fb → u.cfg = s.cfg → f u = refuse r u) ∨
    (∃ e, ∀ u : State, u.pm = s.pm → u.fb = s.fb → u.cfg = s.cfg → f u = raise e u) ∨
    ∃ ms, ∀ u : State, u.pm = s.pm → u.fb = s.fb → u.cfg = s.cfg → f u = .ok ms u

theorem enter_over {f : State → Res (List Micro)} (h : ChecksControl f) (rest : List Micro) :
    enter (f (s.over d c m t)) rest = (enter (f s) rest).over d c m t := by
  rcases h s with ⟨r, h⟩ | ⟨e, h⟩ | ⟨ms, h⟩ <;> rw [h (s.over d c m t) rfl rfl rfl, h s rfl rfl rfl]
  · simp only [enter, refuse, State.markRefused_over]; rfl
  · simp only [enter, raise, State.markFault_over]; rfl
  · exact settle_over s d c m t _

end Over

/-- What follows the checks forgets where the CPU stood. -/
theorem enter_withCpu {f : State → Res (List Micro)} (h : ChecksControl f) (s : State) (c rest : List Micro) :
    enter (f (s.withCpu c)) rest = enter (f s) rest := by
  rcases h s with ⟨r, h⟩ | ⟨e, h⟩ | ⟨ms, h⟩ <;> rw [h (s.withCpu c) rfl rfl rfl, h s rfl rfl rfl]
  · cases hf : s.fault <;> cases hr : s.refused <;>
      simp [enter, refuse, State.markRefused, State.withCpu, State.ended, hf, hr]
  · cases hf : s.fault <;> cases hr : s.refused <;>
      simp [enter, raise, State.markFault, State.withCpu, State.ended, hf, hr]
  · exact settle_withCpu _ s c

theorem checksControl_addTagWork (id v : Word) (r : List Word) : ChecksControl (addTagWork id v r) := by
  intro s
  by_cases h1 : s.pm.phase = .building
  · by_cases h2 : id = Config.tagEnd
    · exact .inl ⟨.tagZero, fun u hp _ _ => by simp [addTagWork, hp, h1, h2]⟩
    · by_cases h3 : ceilDiv4 v.toNat < r.length
      · exact .inl ⟨.reqTooLong, fun u hp _ _ => by simp [addTagWork, hp, h1, h2, h3]⟩
      · by_cases h4 : s.cfg.msgCapWords < s.pm.cursor + 3 + ceilDiv4 v.toNat
        · exact .inr (.inl ⟨_, fun u hp _ hc => by simp only [addTagWork, hp, hc, h1, h2, h3, h4]; simp; rfl⟩)
        · exact .inr (.inr ⟨_, fun u hp _ hc => by simp only [addTagWork, hp, hc, h1, h2, h3, h4]; simp; rfl⟩)
  · exact .inl ⟨.pmPhase, fun u hp _ _ => by simp [addTagWork, hp, h1]⟩

theorem checksControl_finishWork : ChecksControl finishWork := by
  intro s
  by_cases h1 : s.pm.phase = .building
  · by_cases h2 : s.cfg.msgCapWords < s.pm.cursor + 1
    · exact .inr (.inl ⟨_, fun u hp _ hc => by simp only [finishWork, hp, hc, h1, h2]; simp; rfl⟩)
    · exact .inr (.inr ⟨_, fun u hp _ hc => by simp only [finishWork, hp, hc, h1, h2]; simp; rfl⟩)
  · exact .inl ⟨.pmPhase, fun u hp _ _ => by simp [finishWork, hp, h1]⟩

theorem checksControl_pixelWork (p : Pixel) : ChecksControl (pixelWork p) := by
  intro s
  by_cases h1 : s.fb.desc.contains p.x p.y = true
  · by_cases h2 : s.fb.desc.outside (s.fb.desc.offset p.x p.y) = true
    · exact .inr (.inl ⟨_, fun u _ hf _ => by simp only [pixelWork, hf, h1, h2]; simp; rfl⟩)
    · exact .inr (.inr ⟨_, fun u _ hf _ => by simp only [pixelWork, hf, h1, h2]; simp; rfl⟩)
  · exact .inr (.inr ⟨[], fun u _ hf _ => by simp [pixelWork, hf, h1]⟩)

theorem checksControl_sendWork (ch a : Word) : ChecksControl (sendWork ch a) := by
  intro s
  unfold sendWork
  cases sendChannelRefusal ch with
  | some r => exact .inl ⟨r, fun _ _ _ _ => rfl⟩
  | none =>
    by_cases h : aligned16 a = true
    · exact .inr (.inr ⟨_, fun _ _ _ _ => if_pos h⟩)
    · exact .inr (.inl ⟨_, fun _ _ _ _ => if_neg h⟩)

theorem checksControl_callWork (ch a : Word) (task : Task) : ChecksControl (callWork ch a task) := by
  intro s
  rcases checksControl_sendWork ch a s with ⟨r, h⟩ | ⟨e, h⟩ | ⟨ms, h⟩
  · exact .inl ⟨r, fun u hp hf hc => by rw [callWork, h u hp hf hc]; rfl⟩
  · exact .inr (.inl ⟨e, fun u hp hf hc => by rw [callWork, h u hp hf hc]; rfl⟩)
  · exact .inr (.inr ⟨_, fun u hp hf hc => by rw [callWork, h u hp hf hc]; rfl⟩)

theorem checksControl_pmCallWork (ch : Word) (task : Task) : ChecksControl (pmCallWork ch task) := by
  intro s
  by_cases h0 : s.pm.phase = .finished
  · rcases checksControl_callWork ch s.cfg.msgBufAddr task s with ⟨r, h⟩ | ⟨e, h⟩ | ⟨ms, h⟩
    · exact .inl ⟨r, fun u hp hf hc => by rw [pmCallWork, if_neg (by simp [hp, h0]), hc, h u hp hf hc]⟩
    · exact .inr (.inl ⟨e, fun u hp hf hc => by rw [pmCallWork, if_neg (by simp [hp, h0]), hc, h u hp hf hc]⟩)
    · exact .inr (.inr ⟨ms, fun u hp hf hc => by rw [pmCallWork, if_neg (by simp [hp, h0]), hc, h u hp hf hc]⟩)
  · exact .inl ⟨.pmPhase, fun u hp _ _ => by simp [pmCallWork, hp, h0]⟩

/-- The pieces that read neither the queues nor memory. -/
def Micro.quiet : Micro → Bool
  | .pollFull _ _ | .pollEmpty _ _ | .verify _ _ | .readBus _ _ _ _ _ | .readSize _ _ _ _ _ _
  | .readPitch _ _ _ _ _ _ => false
  | .word _ _ | .builder _ | .addTag _ _ _ | .allocTag _ _ _ | .pitchTag _ _ _ _ | .finish | .propertyCall _ _
  | .pixels _ | .byte _ _ | .text _ _ _ _ _ _ | .ret _ => true

/-- What a quiet piece writes to memory. -/
def Micro.writes (x : Micro) (s : State) (m : Memory) : Memory :=
  match x with
  | .word i v => m.writeWord (s.wordAddr i) v
  | .byte a b => m.writeByte a b
  | _ => m

/-- A quiet piece does the same whatever the coprocessor has written. -/
theorem doMicro_over {x : Micro} (hx : x.quiet = true) (ms : List Micro) (s : State) (d : Device) (c : Coprocessor)
    (m : Memory) (t : List Turn) :
    doMicro x ms (s.over d c m t) = (doMicro x ms s).over d c (x.writes s m) t := by
  cases x with
  | word i v =>
    show settle ms ((s.over d c m t).setWord i v) = _
    rw [show (s.over d c m t).setWord i v = (s.setWord i v).over d c (m.writeWord (s.wordAddr i) v) t from rfl,
      settle_over]
    rfl
  | builder p => exact settle_over (s.withPm p) d c m t ms
  | addTag id v r => exact enter_over s d c m t (checksControl_addTagWork _ _ _) ms
  | allocTag w h e => exact enter_over s d c m t (checksControl_addTagWork _ _ _) _
  | pitchTag w h e oA => exact enter_over s d c m t (checksControl_addTagWork _ _ _) _
  | finish => exact enter_over s d c m t checksControl_finishWork _
  | propertyCall ch task => exact enter_over s d c m t (checksControl_pmCallWork ch task) _
  | pixels ps => cases ps with
    | nil => exact settle_over s d c m t ms
    | cons p ps => exact enter_over s d c m t (checksControl_pixelWork p) _
  | byte a b =>
    show settle ms ((s.over d c m t).withMem (m.writeByte a b)) = _
    rw [show (s.over d c m t).withMem (m.writeByte a b) =
      (s.withMem (s.mem.writeByte a b)).over d c (m.writeByte a b) t from rfl, settle_over]
    rfl
  | text x fg bg tx cx cy => cases tx with
    | nil => exact settle_over s d c m t ms
    | cons ch tx => exact settle_over s d c m t _
  | ret r => rfl
  | pollFull => cases hx
  | pollEmpty => cases hx
  | verify => cases hx
  | readBus => cases hx
  | readSize => cases hx
  | readPitch => cases hx

/-- What a quiet piece leaves of queues and memory. -/
theorem doMicro_quiet {x : Micro} (hx : x.quiet = true) (ms : List Micro) (s : State) :
    (doMicro x ms s).dev = s.dev ∧ (doMicro x ms s).mem = x.writes s s.mem := by
  have := doMicro_over hx ms s s.dev s.cop s.mem s.sched
  rw [State.over_self] at this
  exact ⟨by rw [this]; rfl, by rw [this]; rfl⟩

/-- A quiet piece forgets where the CPU stood. -/
theorem doMicro_withCpu {x : Micro} (hx : x.quiet = true) (ms : List Micro) (s : State) (c : List Micro) :
    doMicro x ms (s.withCpu c) = doMicro x ms s := by
  cases x with
  | word i v => exact settle_withCpu ms (s.setWord i v) c
  | builder p => exact settle_withCpu ms (s.withPm p) c
  | addTag id v r => exact enter_withCpu (checksControl_addTagWork _ _ _) s c _
  | allocTag w h e => exact enter_withCpu (checksControl_addTagWork _ _ _) s c _
  | pitchTag w h e oA => exact enter_withCpu (checksControl_addTagWork _ _ _) s c _
  | finish => exact enter_withCpu checksControl_finishWork s c _
  | propertyCall ch task => exact enter_withCpu (checksControl_pmCallWork ch task) s c _
  | pixels ps => cases ps with
    | nil => exact settle_withCpu ms s c
    | cons p ps => exact enter_withCpu (checksControl_pixelWork p) s c _
  | byte a b => exact settle_withCpu ms (s.withMem (s.mem.writeByte a b)) c
  | text x fg bg tx cx cy => cases tx with
    | nil => exact settle_withCpu ms s c
    | cons ch tx => exact settle_withCpu _ s c
  | ret r => rfl
  | pollFull => cases hx
  | pollEmpty => cases hx
  | verify => cases hx
  | readBus => cases hx
  | readSize => cases hx
  | readPitch => cases hx

/-- One CPU step from settled work that begins with a quiet piece. -/
theorem cpuTick_settle {x : Micro} (hx : x.quiet = true) {ms : List Micro} {s : State}
    (h : settle (x :: ms) s = s.withCpu (x :: ms)) : cpuTick (settle (x :: ms) s) = doMicro x ms s := by
  rw [h, cpuTick_cons (s := s.withCpu (x :: ms)) rfl, doMicro_withCpu hx]

/-! ## The CPU by itself, piece by piece -/

theorem alone_settle {x : Micro} (hx : x.quiet = true) {ms : List Micro} {s : State}
    (h : settle (x :: ms) s = s.withCpu (x :: ms)) : alone (settle (x :: ms) s) = alone (doMicro x ms s) := by
  rw [← alone_cpuTick, cpuTick_settle hx h]

theorem alone_byte (a : Nat) (b : Byte) (ms : List Micro) (s : State) :
    alone (settle (.byte a b :: ms) s) = alone (settle ms (s.withMem (s.mem.writeByte a b))) :=
  alone_settle rfl rfl

theorem alone_pixels (p : Pixel) (ps : List Pixel) (ms : List Micro) (s : State) :
    alone (settle (.pixels (p :: ps) :: ms) s) = alone (enter (pixelWork p s) (.pixels ps :: ms)) :=
  alone_settle rfl rfl

theorem alone_text (x : Int) (fg bg : Color) (ch : Byte) (t : List Byte) (cx cy : Int) (ms : List Micro) (s : State) :
    alone (settle (.text x fg bg (ch :: t) cx cy :: ms) s) =
      alone (settle (textWork x fg bg ch t cx cy s ++ ms) s) :=
  alone_settle rfl rfl

/-- The words of a block, written one after another (R121). -/
theorem cpuTicks_wordWrites (n : Nat) (vs : List Word) (i : Nat) (ms : List Micro) (s : State) :
    cpuTicks (vs.length + n) (settle (wordWrites i vs ++ ms) s) = cpuTicks n (settle ms (s.setWords i vs)) := by
  induction vs generalizing i s with
  | nil => rw [List.length_nil, Nat.zero_add]; rfl
  | cons v vs ih =>
    rw [show (v :: vs).length + n = (vs.length + n) + 1 by simp; omega, wordWrites, List.cons_append, cpuTicks,
      cpuTick_settle rfl rfl, setWords_cons]
    exact ih (i + 1) (s.setWord i v)

theorem alone_wordWrites (vs : List Word) (i : Nat) (ms : List Micro) (s : State) :
    alone (settle (wordWrites i vs ++ ms) s) = alone (settle ms (s.setWords i vs)) := by
  rw [← alone_cpuTicks vs.length]
  exact congrArg alone (cpuTicks_wordWrites 0 vs i ms s)

/-- The schedule is read by no CPU step. -/
theorem cpuTick_withSched (s : State) (t : List Turn) : cpuTick (s.withSched t) = (cpuTick s).withSched t := by
  rcases hc : s.cpu with _ | ⟨x, ms⟩
  · rw [cpuTick_nil hc, cpuTick_nil (by exact hc)]
  rw [cpuTick_cons hc, cpuTick_cons (s := s.withSched t) hc]
  have ov : ∀ (u : State) (ns : List Micro), settle ns (u.withSched t) = (settle ns u).withSched t := fun u ns => by
    have := settle_over u u.dev u.cop u.mem t ns
    rw [show u.withSched t = u.over u.dev u.cop u.mem t from rfl, this]
    simp [State.over, State.withSched]
  by_cases hq : x.quiet = true
  · have h1 := doMicro_over hq ms s s.dev s.cop s.mem t
    obtain ⟨h2, h3⟩ := doMicro_quiet hq ms s
    rw [show s.withSched t = s.over s.dev s.cop s.mem t from rfl, h1, ← h2, ← h3,
      ← (doMicro_ticked x ms s).cop]
    rfl
  · cases x with
    | pollFull c a =>
      simp only [doMicro]
      rw [show (s.withSched t).full = s.full from rfl]
      split
      · rfl
      · exact ov (s.withOut _) ms
    | pollEmpty c use =>
      simp only [doMicro, State.withSched_dev]
      split
      · rfl
      · split
        · cases use
          · rfl
          · exact ov (s.withIn _) ms
        · rfl
    | verify b task =>
      cases task <;> simp only [doMicro, afterVerify]
      · rfl
      · rfl
      · rw [show (s.withSched t).mem = s.mem from rfl]; split <;> rfl
    | readBus => rfl
    | readSize => rfl
    | readPitch w h d bus size oP =>
      simp only [doMicro, endInit]; split <;> rfl
    | _ => exact absurd rfl hq

theorem cpuTicks_withSched (n : Nat) (s : State) (t : List Turn) :
    cpuTicks n (s.withSched t) = (cpuTicks n s).withSched t := by
  induction n generalizing s with
  | zero => rfl
  | succ n ih => rw [cpuTicks, cpuTick_withSched, ih]; rfl

theorem alone_withSched (s : State) (t : List Turn) : alone (s.withSched t) = (alone s).withSched t :=
  cpuTicks_withSched _ s t

/-- Nor by a step of the coprocessor. -/
theorem copStep_withSched (e : CopStep) (s : State) (t : List Turn) :
    copStep e (s.withSched t) = (copStep e s).withSched t := by
  cases e with
  | consume => simp only [copStep, copConsume, State.withSched_dev]; split <;> rfl
  | answer a ds =>
    simp only [copStep, copAnswer]
    by_cases h : (⟨Config.propertyChannel, a⟩ : Request) ∈ s.cop.pending ∧ s.inRoom
    · rw [if_pos h, if_pos (by exact h)]; rfl
    · rw [if_neg h, if_neg (by exact h)]
  | unsolicited w =>
    simp only [copStep, copUnsolicited]
    by_cases h : chanOf w ≠ Config.propertyChannel ∧ s.inRoom
    · rw [if_pos h, if_pos (by exact h)]; rfl
    · rw [if_neg h, if_neg (by exact h)]

end Sys2Proof.Machine
end

