-- ==== Sys2Proof/Laws/Transport.lean ====
section
/-! SUPPORT. The busy-waits: what one poll does, where the discard loop ends, the whole of a call whose request is taken
and answered, and the words that can arrive (R103 to R105, R110, R111). -/

namespace Sys2Proof.Machine

/-! ## One poll -/

/-- A poll of `send` on a full queue leaves everything as it is (R103). -/
theorem cpuTick_pollFull_full {s : State} {c a : Word} {ms : List Micro} (h : s.cpu = .pollFull c a :: ms)
    (hf : s.dev.out.length = s.cfg.fifoDepth) : cpuTick s = s := by
  rw [cpuTick_cons h]; simp [doMicro, State.full, hf]

/-- A poll of `send` that sees FULL = 0 writes the assembled word (R103). -/
theorem cpuTick_pollFull_room {s : State} {c a : Word} {ms : List Micro} (h : s.cpu = .pollFull c a :: ms)
    (hf : s.dev.out.length ≠ s.cfg.fifoDepth) :
    cpuTick s = settle ms (s.withOut (s.dev.out ++ [assemble a c])) := by
  rw [cpuTick_cons h]; simp [doMicro, State.full, hf]

/-- A poll of `receive` on an empty queue leaves everything as it is (R104). -/
theorem cpuTick_pollEmpty_empty {s : State} {c : Word} {use : ReplyUse} {ms : List Micro}
    (h : s.cpu = .pollEmpty c use :: ms) (hf : s.dev.inq = []) : cpuTick s = s := by
  rw [cpuTick_cons h]; simp [doMicro, hf]

/-- What follows the matching word (R104, R105). -/
def afterMatch (use : ReplyUse) (w : Word) (ms : List Micro) (s : State) : State :=
  match use with
  | .result => s.returned (.word (addrOf w))
  | .drop => settle ms s

/-- A poll of `receive` takes the head: the first matching word ends the loop, any other is lost (R104). -/
theorem cpuTick_pollEmpty_cons {s : State} {c w : Word} {use : ReplyUse} {ms : List Micro} {rest : List Word}
    (h : s.cpu = .pollEmpty c use :: ms) (hf : s.dev.inq = w :: rest) :
    cpuTick s = if chanOf w = c then afterMatch use w ms (s.withIn rest) else s.withIn rest := by
  rw [cpuTick_cons h]; cases use <;> simp only [doMicro, hf, afterMatch]

/-! ## The discard loop -/

/-- The words ahead of the first match are lost, the match ends the loop (R104). -/
theorem alone_receive_match (s : State) (c w : Word) (pre post : List Word) (use : ReplyUse) (ms : List Micro)
    (h : s.cpu = .pollEmpty c use :: ms) (hin : s.dev.inq = pre ++ w :: post) (hpre : ∀ v ∈ pre, chanOf v ≠ c)
    (hw : chanOf w = c) : alone s = alone (afterMatch use w ms (s.withIn post)) := by
  induction pre generalizing s with
  | nil => rw [← alone_cpuTick, cpuTick_pollEmpty_cons h hin, if_pos hw]
  | cons v pre ih =>
    rw [← alone_cpuTick, cpuTick_pollEmpty_cons h hin, if_neg (hpre v (by simp))]
    exact ih (s.withIn _) h rfl fun u hu => hpre u (by simp [hu])

/-- Without a match every word is lost and the CPU waits (R104, R111). -/
theorem alone_receive_none (s : State) (c : Word) (use : ReplyUse) (ms : List Micro)
    (h : s.cpu = .pollEmpty c use :: ms) (hin : ∀ v ∈ s.dev.inq, chanOf v ≠ c) : alone s = s.withIn [] := by
  generalize hq : s.dev.inq = q at hin
  induction q generalizing s with
  | nil =>
    rw [alone_fixed (cpuTick_pollEmpty_empty h hq)]
    unfold State.withIn; rw [← hq]
  | cons v rest ih =>
    rw [← alone_cpuTick, cpuTick_pollEmpty_cons h hq, if_neg (hin v (by simp)),
      ih (s.withIn rest) h rfl fun u hu => hin u (by simp [hu])]
    rfl

/-! ## The whole call -/

theorem sendWork_property {s : State} {a : Word} (h : a &&& 0xF#32 = 0#32) :
    sendWork 8#32 a s = .ok [.pollFull 8#32 a] s := by
  simp [sendWork, aligned16, h]

theorem callWork_property {s : State} {a : Word} (task : Task) (h : a &&& 0xF#32 = 0#32) :
    callWork 8#32 a task s = .ok [.pollFull 8#32 a, .pollEmpty 8#32 .drop, .verify a task] s := by
  simp [callWork, sendWork_property h]

theorem pmCallWork_property {s : State} (task : Task) (hp : s.pm.phase = .finished)
    (h : s.cfg.msgBufAddr &&& 0xF#32 = 0#32) :
    pmCallWork 8#32 task s = .ok [.pollFull 8#32 s.cfg.msgBufAddr, .pollEmpty 8#32 .drop,
      .verify s.cfg.msgBufAddr task] s := by
  rw [pmCallWork, if_neg (by simp [hp]), callWork_property task h]

theorem receiveWork_admitted {s : State} {c : Word} (h : c.toNat ≤ 8) :
    receiveWork c s = .ok [.pollEmpty c .result] s := by
  rw [receiveWork, receiveChannelRefusal_admitted h]

/-- Everything the check of `receive` can do (R104). -/
theorem checked_receiveWork (c : Word) (s : State) :
    Checked s (fun ms => c.toNat ≤ 8 ∧ ms = [.pollEmpty c .result]) (receiveWork c s) := by
  by_cases h : c.toNat ≤ 8
  · rw [receiveWork_admitted h]; exact .ok _ ⟨h, rfl⟩
  · rw [receiveWork, receiveChannelRefusal_above (Nat.lt_of_not_le h)]; exact .refuse _

/-- The success test forgets where the CPU stood. -/
theorem afterVerify_withCpu (b : Word) (task : Task) (s : State) (c : List Micro) :
    afterVerify b task (s.withCpu c) = afterVerify b task s := by
  cases task with
  | call => rfl
  | pmCall => rfl
  | fbInit w h d oA oP =>
    by_cases ok : success (s.mem.readWord (b.toNat + 4)) = true
    · exact (if_pos (by exact ok)).trans (if_pos ok).symm
    · exact (if_neg (by exact ok)).trans (if_neg ok).symm

/-- The memory in which the coprocessor has answered the request at `a` (R107). -/
def Memory.answered (m : Memory) (a : Word) (ds : List (Option Word)) : Memory :=
  rewriteMessage a.toNat (ceilDiv4 (m.readWord a.toNat).toNat) 1 ds m

/-- A call whose request the coprocessor takes and answers once it is sent, up to its success test (R105): the word is
written, the coprocessor takes it and rewrites the message, and the reply ends the discard loop. -/
theorem drive_call_reply {s : State} {a : Word} (task : Task) (ds : List (Option Word)) (ha : a &&& 0xF#32 = 0#32)
    (hd : 1 ≤ s.cfg.fifoDepth) (hdev : s.dev = ⟨[], []⟩) (hp : s.cop.pending = [])
    (hcpu : s.cpu = [.pollEmpty 8#32 .drop, .verify a task]) :
    drive [.cop .consume, .cop (.answer a ds)] (s.withOut [assemble a 8#32]) =
      alone (afterVerify a task ((s.withMem (s.mem.answered a ds)).withSched [])) := by
  have hch : chanOf (assemble a 8#32) = 8#32 := chanOf_assemble (by decide)
  have had : addrOf (assemble a 8#32) = a := addrOf_assemble ha (by decide)
  have hout : s.dev.out = [] := by rw [hdev]
  have hin : s.dev.inq = [] := by rw [hdev]
  have hcpu' : s.cpu ≠ [] := by rw [hcpu]; simp
  rw [drive_cop _ _ (by exact hcpu')]
  have hc : copStep .consume (s.withOut [assemble a 8#32]) = (s.withOut []).withPending [⟨8#32, a⟩] := by
    simp only [copStep, copConsume, State.withOut_dev, hch, had, State.withOut_cop, hp]
    rfl
  rw [hc, drive_cop _ _ (by exact hcpu')]
  have hans : copStep (.answer a ds) ((s.withOut []).withPending [⟨8#32, a⟩]) =
      (s.withMem (s.mem.answered a ds)).withIn [assemble a 8#32] := by
    rw [copStep, copAnswer_enabled _ (by simp) (by simp [hin]; omega)]
    simp [State.withOut, State.withPending, State.withMem, State.withIn, hout, hin, assemble_aligned _ ha,
      Memory.answered]
    rw [← hp]
  rw [hans, drive_nil, alone_receive_match _ 8#32 (assemble a 8#32) [] [] .drop [.verify a task] (by exact hcpu) rfl
    (by simp) hch]
  show alone (settle [.verify a task] _) = _
  rw [alone_settle_cons rfl]
  rw [doMicro, afterVerify_withCpu]
  congr 2
  simp [State.withMem, State.withIn, State.withSched, hdev]

/-- Word 1 of a message the coprocessor has answered (R107). -/
theorem code_of_answer {m : Memory} {a : Word} (c : Word) (ds : List (Option Word)) (ha : a &&& 0xF#32 = 0#32)
    (hs : 4 < (m.readWord a.toNat).toNat) : (m.answered a (some c :: ds)).readWord (a.toNat + 4) = c := by
  have := toNat_add_16_le ha
  have h := readWord_rewriteMessage m a.toNat (ceilDiv4 (m.readWord a.toNat).toNat) 1 1 (some c :: ds) (le_refl _)
    (by unfold ceilDiv4; omega) (by unfold addressSpace; omega)
  unfold Memory.answered
  simpa using h

end Sys2Proof.Machine
end

