-- ==== Sys2Proof/Laws/Codec.lean ====
section
/-! SUPPORT. The codec: the words of the buffer, what `begin`, `add_tag` and `finish` leave (R120 to R122), that a message
they build is walked back to its tags (R81, R125), and reading a tag's response (R82, R124). -/

namespace Sys2Proof.Machine

/-! ## Words of the buffer -/

/-- The value area: the request words, then zeros (R79). -/
theorem valueWords_getElem? {n j : Nat} {req : List Word} (h : req.length ≤ n) (hj : j < n) :
    (valueWords n req)[j]? = some ((req[j]?).getD 0#32) := by
  unfold valueWords
  rw [List.getElem?_append]
  split
  · rename_i hlt; simp [List.getElem?_eq_getElem hlt]
  · rename_i hge
    rw [List.getElem?_replicate, if_pos (by omega), List.getElem?_eq_none (by omega)]; rfl

/-- The buffer lies in the address space (R34, R50). -/
theorem wordAddr_le {s : State} (h : s.cfg.Wf) {i : Nat} (hi : i ≤ s.cfg.msgCapWords) : s.wordAddr i ≤ addressSpace := by
  have := h.inSpace
  unfold State.wordAddr; unfold Config.Params.bufferBytes at this; omega

/-- A word inside a run of words just written to the buffer. -/
theorem word_setWords {s : State} (h : s.cfg.Wf) {i k : Nat} {vs : List Word} (hk : k < vs.length)
    (hf : i + vs.length ≤ s.cfg.msgCapWords) : (s.setWords i vs).word (i + k) = vs[k] := by
  have h1 : s.wordAddr (i + k) = s.wordAddr i + 4 * k := by unfold State.wordAddr; omega
  have h2 : s.wordAddr i + 4 * vs.length ≤ addressSpace := by
    have := wordAddr_le h hf; unfold State.wordAddr at *; omega
  show (s.mem.writeWords (s.wordAddr i) vs).readWord (s.wordAddr (i + k)) = _
  rw [h1]
  exact Memory.readWord_writeWords _ _ _ _ hk h2

/-- A word outside a run of words just written to the buffer. -/
theorem word_setWords_other {s : State} {i j : Nat} {vs : List Word} (h : j < i ∨ i + vs.length ≤ j) :
    (s.setWords i vs).word j = s.word j :=
  Memory.readWord_writeWords_other _ _ _ _ (by unfold State.setWords State.wordAddr; simp; omega)

theorem word_setWord {s : State} (h : s.cfg.Wf) {i : Nat} {v : Word} (hf : i + 1 ≤ s.cfg.msgCapWords) :
    (s.setWord i v).word i = v :=
  Memory.readWord_writeWord_same _ _ _ (by
    have := wordAddr_le h hf; unfold State.setWord State.wordAddr at *; simp; omega)

theorem word_setWord_other {s : State} {i j : Nat} {v : Word} (h : j ≠ i) : (s.setWord i v).word j = s.word j :=
  Memory.readWord_writeWord_other _ _ _ _ (by unfold State.setWord State.wordAddr; simp; omega)

@[simp] theorem word_withPm (s : State) (p : Builder) (i : Nat) : (s.withPm p).word i = s.word i := rfl

/-! ## Runs of words put together -/

theorem Memory.writeWords_append (m : Memory) (a : Nat) (vs ws : List Word) :
    m.writeWords a (vs ++ ws) = (m.writeWords a vs).writeWords (a + 4 * vs.length) ws := by
  induction vs generalizing m a with
  | nil => simp [Memory.writeWords]
  | cons v vs ih =>
    show (m.writeWord a v).writeWords (a + 4) (vs ++ ws) = _
    rw [ih]
    show _ = ((m.writeWord a v).writeWords (a + 4) vs).writeWords _ ws
    congr 1
    simp only [List.length_cons]; omega

/-- A run of words after another is one run. -/
theorem setWords_append (s : State) (i : Nat) (vs ws : List Word) :
    (s.setWords i vs).setWords (i + vs.length) ws = s.setWords i (vs ++ ws) := by
  show s.withMem ((s.mem.writeWords (s.wordAddr i) vs).writeWords (s.wordAddr (i + vs.length)) ws) = _
  rw [show s.wordAddr (i + vs.length) = s.wordAddr i + 4 * vs.length by unfold State.wordAddr; omega,
    ← Memory.writeWords_append]
  rfl

theorem setWord_eq_setWords (s : State) (i : Nat) (v : Word) : s.setWord i v = s.setWords i [v] := rfl

/-! ## The operations, with a coprocessor that takes no step -/

/-- `begin` (R120). -/
theorem execPmBegin_alone {s : State} (h : s.sched = []) :
    execPmBegin s = .next (((s.setWord 1 0#32).withPm ⟨.building, 2⟩).returned .none) := by
  rw [execPmBegin, launch_alone h]
  show Host.Outcome.next (alone (settle (wordWrites 1 [0#32] ++ _) s)) = _
  rw [alone_wordWrites]
  exact congrArg _ (alone_returned _ _)

/-- `add_tag` of an admitted tag that fits (R121): its block and the cursor past it. -/
theorem addTag_alone {id vbuf : Word} {req : List Word} {s : State} (h : s.sched = []) (hp : s.pm.phase = .building)
    (hid : id ≠ 0#32) (hr : req.length ≤ ceilDiv4 vbuf.toNat)
    (hf : s.pm.cursor + 3 + ceilDiv4 vbuf.toNat ≤ s.cfg.msgCapWords) :
    addTag id vbuf req s = .next
      (((s.setWords s.pm.cursor (id :: vbuf :: 0#32 :: valueWords (ceilDiv4 vbuf.toNat) req)).withPm
        ⟨.building, s.pm.cursor + 3 + ceilDiv4 vbuf.toNat⟩).returned (.offset (s.pm.cursor + 3))) := by
  rw [addTag, addTagWork_ok hp hid hr hf, returning_ok, launch_alone h, List.append_assoc, alone_wordWrites]
  exact congrArg _ (alone_returned _ _)

/-- `finish` of a build that leaves room for END (R122), the END row too. -/
theorem finish_alone {s : State} (h : s.sched = []) (hp : s.pm.phase = .building)
    (hf : s.pm.cursor + 1 ≤ s.cfg.msgCapWords) :
    launch ((finishWork s).returning .none) = .next
      ((((s.setWord s.pm.cursor 0#32).setWord 0 (BitVec.ofNat 32 (4 * (s.pm.cursor + 1)))).withPm
        ⟨.finished, s.pm.cursor + 1⟩).returned .none) := by
  rw [finishWork_ok hp hf, returning_ok, launch_alone h]
  show Host.Outcome.next (alone (settle (wordWrites s.pm.cursor [0#32] ++ .builder ⟨.building, s.pm.cursor + 1⟩ ::
    (wordWrites 0 [BitVec.ofNat 32 (4 * (s.pm.cursor + 1))] ++ [.builder ⟨.finished, s.pm.cursor + 1⟩, .ret .none])) s))
    = _
  rw [alone_wordWrites, settle_builder, alone_wordWrites]
  exact congrArg _ (alone_returned _ _)

/-! ## Work entered in a build whose words from word 1 are known -/

/-- A tag appended to a build whose words from word 1 are `ws` (R121): one CPU step for the checks, one for each word. -/
theorem cpuTicks_addTag {id vbuf : Word} {req ws : List Word} {s : State} {c k n : Nat} (hid : id ≠ 0#32)
    (hk : ceilDiv4 vbuf.toNat = k) (hc : 1 + ws.length = c) (hr : req.length ≤ k) (hf : c + 3 + k ≤ s.cfg.msgCapWords)
    (ms : List Micro) :
    cpuTicks (3 + k + n) (enter (addTagWork id vbuf req ((s.setWords 1 ws).withPm ⟨.building, c⟩)) ms) =
      cpuTicks n (settle ms ((s.setWords 1 (ws ++ id :: vbuf :: 0#32 :: valueWords k req)).withPm
        ⟨.building, c + 3 + k⟩)) := by
  subst hk hc
  rw [addTagWork_ok (s := (s.setWords 1 ws).withPm ⟨.building, 1 + ws.length⟩) rfl hid hr hf, enter, List.append_assoc]
  have h := cpuTicks_wordWrites n (id :: vbuf :: 0#32 :: valueWords (ceilDiv4 vbuf.toNat) req) (1 + ws.length)
    ([.builder ⟨.building, 1 + ws.length + 3 + ceilDiv4 vbuf.toNat⟩] ++ ms)
    ((s.setWords 1 ws).withPm ⟨.building, 1 + ws.length⟩)
  rw [show (id :: vbuf :: 0#32 :: valueWords (ceilDiv4 vbuf.toNat) req).length + n = 3 + ceilDiv4 vbuf.toNat + n by
    simp [length_valueWords hr]; omega] at h
  rw [← setWords_append]
  exact h

/-- END and the size after a build whose words from word 1 are `ws` (R122). -/
theorem cpuTicks_finish {ws : List Word} {s : State} {c n : Nat} (hc : 1 + ws.length = c)
    (hf : c + 1 ≤ s.cfg.msgCapWords) (ms : List Micro) :
    cpuTicks (n + 2) (enter (finishWork ((s.setWords 1 ws).withPm ⟨.building, c⟩)) ms) =
      cpuTicks n (settle ms (((s.setWords 1 (ws ++ [0#32])).setWord 0 (BitVec.ofNat 32 (4 * (c + 1)))).withPm
        ⟨.finished, c + 1⟩)) := by
  subst hc
  rw [finishWork_ok (s := (s.setWords 1 ws).withPm ⟨.building, 1 + ws.length⟩) rfl hf, ← setWords_append, enter,
    show n + 2 = 1 + (1 + n) by omega]
  refine (cpuTicks_wordWrites (1 + n) [0#32] (1 + ws.length)
    (.builder ⟨.building, 1 + ws.length + 1⟩ :: (wordWrites 0 [BitVec.ofNat 32 (4 * (1 + ws.length + 1))] ++
      .builder ⟨.finished, 1 + ws.length + 1⟩ :: ms)) _).trans ?_
  rw [settle_builder]
  exact cpuTicks_wordWrites n [BitVec.ofNat 32 (4 * (1 + ws.length + 1))] 0 _ _

/-! ## The walk (R81) -/

/-- One block, walked (R81). -/
theorem walkTags_block (fuel : Nat) (b : TagBlock) (rest : List Word) (hid : b.id ≠ 0#32)
    (hv : b.values.length = ceilDiv4 b.vbuf.toNat) :
    walkTags (fuel + 1) (b.words ++ rest) = (walkTags fuel rest).map (b :: ·) := by
  obtain ⟨id, vbuf, code, values⟩ := b
  simp only at hid hv
  simp only [TagBlock.words, List.cons_append, walkTags, Config.tagEnd, hid, if_false, List.length_append]
  rw [if_neg (by omega), ← hv, List.drop_left, List.take_left]

/-- Blocks one after another, then END: the walk visits exactly them, in order (R81, R125). -/
theorem walkTags_blocks (bs : List TagBlock) (fuel : Nat) (rest : List Word) (hf : bs.length < fuel)
    (h : ∀ b ∈ bs, b.id ≠ 0#32 ∧ b.values.length = ceilDiv4 b.vbuf.toNat) :
    walkTags fuel (bs.flatMap TagBlock.words ++ Config.tagEnd :: rest) = some bs := by
  induction bs generalizing fuel with
  | nil =>
    obtain ⟨f, rfl⟩ : ∃ f, fuel = f + 1 := ⟨fuel - 1, by simp at hf; omega⟩
    simp [walkTags]
  | cons b bs ih =>
    obtain ⟨f, rfl⟩ : ∃ f, fuel = f + 1 := ⟨fuel - 1, by simp at hf; omega⟩
    obtain ⟨h1, h2⟩ := h b (by simp)
    rw [List.flatMap_cons, List.append_assoc, walkTags_block f b _ h1 h2,
      ih f (by simp at hf; omega) fun c hc => h c (by simp [hc])]
    rfl

/-! ## Responses (R82, R124) -/

/-- The bytes of a word read from memory are the bytes there (R54). -/
theorem bytesOfWord_readWord (m : Memory) (a : Nat) :
    bytesOfWord (m.readWord a) = [m.readByte a, m.readByte (a + 1), m.readByte (a + 2), m.readByte (a + 3)] :=
  bytesOfWord_wordOfBytes _ _ _ _

end Sys2Proof.Machine
end

