-- ==== Sys2Proof/Laws/Framebuffer.lean ====
section
/-! SUPPORT. The message of `initialize` (R141, R142) and the pixel writer: what a run of pixels leaves, with the first
fault (R143, R144, R161, R174), what it paints and leaves alone, and that all of it stays in the framebuffer region
(R51). -/

namespace Sys2Proof.Machine

/-! ## The message of `initialize` -/

/-- The words after word 0 of the message (R142). -/
def initWords (w h d : Word) : List Word :=
  [0, 0x00048003, 8, 0, w, h, 0x00048004, 8, 0, w, h, 0x00048009, 8, 0, 0, 0, 0x00048005, 4, 0, d,
   0x00040001, 8, 0, 16, 0, 0x00040008, 4, 0, 0, 0]

/-- The memory with the message of R142 in the buffer. -/
def initMemory (w h d : Word) (s : State) : Memory := ((s.setWords 1 (initWords w h d)).setWord 0 124#32).mem

/-- Word 0 of the message: its size (R142). -/
theorem initMemory_word_zero {s : State} (hw : s.cfg.Wf) (w h d : Word) :
    (initMemory w h d s).readWord s.cfg.msgBufAddr.toNat = 124#32 :=
  word_setWord (s := s.setWords 1 (initWords w h d)) hw
    (show 0 + 1 ≤ s.cfg.msgCapWords from le_trans (by decide) hw.capacity)

/-- The words after word 0 of the message (R142). -/
theorem initMemory_word_succ {s : State} (hw : s.cfg.Wf) (w h d : Word) {k : Nat} (hk : k < 30) :
    (initMemory w h d s).readWord (s.cfg.msgBufAddr.toNat + 4 * (k + 1)) = (initWords w h d)[k] := by
  have hcap : 31 ≤ s.cfg.msgCapWords := hw.capacity
  have h1 : ((s.setWords 1 (initWords w h d)).setWord 0 124#32).word (k + 1) = _ := word_setWord_other (by omega)
  have h2 := word_setWords hw (i := 1) (k := k) (vs := initWords w h d) hk (by show 1 + 30 ≤ _; omega)
  rw [Nat.add_comm 1 k] at h2
  exact h1.trans h2

/-- The bytes outside the message keep their values. -/
theorem readByte_initMemory_other (w h d : Word) (s : State) (b : Nat)
    (hb : b < s.cfg.msgBufAddr.toNat ∨ s.cfg.msgBufAddr.toNat + 124 ≤ b) :
    (initMemory w h d s).readByte b = s.mem.readByte b := by
  refine (Memory.readByte_writeWord_other _ _ _ _ ?_).trans (Memory.readByte_writeWords_other _ _ _ _ ?_)
  · show b < s.cfg.msgBufAddr.toNat + 4 * 0 ∨ s.cfg.msgBufAddr.toNat + 4 * 0 + 4 ≤ b; omega
  · show b < s.cfg.msgBufAddr.toNat + 4 * 1 ∨ s.cfg.msgBufAddr.toNat + 4 * 1 + 4 * 30 ≤ b; omega

theorem initMemory_wf {s : State} (h : s.mem.wf) (a b c : Word) : (initMemory a b c s).wf :=
  Memory.writeWord_wf (Memory.writeWords_wf h _ _) _ _

/-- Everything the checks of `initialize` can do (R141). -/
theorem checked_initWork (w h d : Word) (s : State) :
    Checked s (fun ms => s.fb.state = .uninit ∧ s.pm.phase ≠ .building ∧ ms = beginWork ++
      [.addTag 0x00048003 8 [w, h], .addTag 0x00048004 8 [w, h], .addTag 0x00048009 8 [0, 0], .addTag 0x00048005 4 [d],
       .allocTag w h d]) (initWork w h d s) := by
  unfold initWork
  split
  · exact .refuse _
  · rename_i h1
    split
    · exact .refuse _
    · rename_i h2
      refine .ok _ ⟨?_, h2, rfl⟩
      cases hf : s.fb.state
      · rfl
      · exact absurd hf h1

/-- One step from settled work that begins with a quiet piece. -/
theorem cpuTicks_settle {x : Micro} (hx : x.quiet = true) (n : Nat) {ms : List Micro} {s : State}
    (h : settle (x :: ms) s = s.withCpu (x :: ms)) : cpuTicks (n + 1) (settle (x :: ms) s) = cpuTicks n (doMicro x ms s) := by
  rw [cpuTicks, cpuTick_settle hx h]

theorem cpuTicks_tagPiece {id vbuf : Word} {req ws : List Word} {s : State} {c k n : Nat} (hid : id ≠ 0#32)
    (hk : ceilDiv4 vbuf.toNat = k) (hc : 1 + ws.length = c) (hr : req.length ≤ k) (hf : c + 3 + k ≤ s.cfg.msgCapWords)
    (ms : List Micro) :
    cpuTicks (3 + k + n + 1) (settle (.addTag id vbuf req :: ms) ((s.setWords 1 ws).withPm ⟨.building, c⟩)) =
      cpuTicks n (settle ms ((s.setWords 1 (ws ++ id :: vbuf :: 0#32 :: valueWords k req)).withPm
        ⟨.building, c + 3 + k⟩)) :=
  (cpuTicks_settle rfl _ rfl).trans (cpuTicks_addTag hid hk hc hr hf ms)

/-- `initialize` builds the message of R142, whatever the builder held, and comes to its send: 39 steps of the CPU. The
offsets of its read-backs are 24 and 29. -/
theorem cpuTicks_init {s : State} (hc : 31 ≤ s.cfg.msgCapWords) (ha : s.cfg.msgBufAddr &&& 0xF#32 = 0#32)
    (w h d : Word) :
    cpuTicks 39 (settle (beginWork ++
      [.addTag 0x00048003 8 [w, h], .addTag 0x00048004 8 [w, h], .addTag 0x00048009 8 [0, 0], .addTag 0x00048005 4 [d],
       .allocTag w h d]) s) = { s with
        mem := initMemory w h d s, pm := ⟨.finished, 31⟩,
        cpu := [.pollFull 8#32 s.cfg.msgBufAddr, .pollEmpty 8#32 .drop,
          .verify s.cfg.msgBufAddr (.fbInit w h d 24 29)] } := by
  refine (cpuTicks_wordWrites 38 [0#32] 1 (.builder ⟨.building, 2⟩ ::
    [.addTag 0x00048003 8 [w, h], .addTag 0x00048004 8 [w, h], .addTag 0x00048009 8 [0, 0], .addTag 0x00048005 4 [d],
       .allocTag w h d]) s).trans ?_
  rw [settle_builder]
  refine (cpuTicks_tagPiece (n := 32) (c := 2) (by decide) (k := 2) rfl rfl (by simp) (by omega) _).trans ?_
  refine (cpuTicks_tagPiece (n := 26) (c := 7) (by decide) (k := 2) rfl rfl (by simp) (by omega) _).trans ?_
  refine (cpuTicks_tagPiece (n := 20) (c := 12) (by decide) (k := 2) rfl rfl (by simp) (by omega) _).trans ?_
  refine (cpuTicks_tagPiece (n := 15) (c := 17) (by decide) (k := 1) rfl rfl (by simp) (by omega) _).trans ?_
  refine (cpuTicks_settle rfl 14 rfl).trans ?_
  refine (cpuTicks_addTag (n := 9) (c := 21) (by decide) (k := 2) rfl rfl (by simp) (by omega) _).trans ?_
  refine (cpuTicks_settle rfl 8 rfl).trans ?_
  refine (cpuTicks_addTag (n := 4) (c := 26) (by decide) (k := 1) rfl rfl (by simp) (by omega) _).trans ?_
  refine (cpuTicks_settle rfl 3 rfl).trans ?_
  refine (cpuTicks_finish (n := 1) (c := 30) rfl (by omega) _).trans ?_
  refine (cpuTicks_settle rfl 0 rfl).trans ?_
  rw [cpuTicks_zero, doMicro]
  show enter (pmCallWork 8#32 (.fbInit w h d 24 29)
    (((s.setWords 1 (initWords w h d)).setWord 0 124#32).withPm ⟨.finished, 31⟩)) [] = _
  rw [pmCallWork_property _ rfl (by exact ha)]
  rfl

/-! ## One pixel -/

theorem Memory.writePixel_wf {m : Memory} (h : m.wf) (a : Nat) (c : Color) : (m.writePixel a c).wf :=
  writeByte_wf (writeByte_wf (writeByte_wf (writeByte_wf h _ _) _ _) _ _) _ _

theorem Memory.readByte_writePixel_other (m : Memory) (a b : Nat) (c : Color) (hb : b < a ∨ a + 4 ≤ b) :
    (m.writePixel a c).readByte b = m.readByte b := by
  unfold Memory.writePixel
  rw [readByte_writeByte_other _ _ _ _ (by omega), readByte_writeByte_other _ _ _ _ (by omega),
    readByte_writeByte_other _ _ _ _ (by omega), readByte_writeByte_other _ _ _ _ (by omega)]

/-- The colour in the four bytes at an address, stored b, g, r, a (R87). -/
def Memory.colorAt (m : Memory) (a : Nat) : Color :=
  ⟨m.readByte (a + 2), m.readByte (a + 1), m.readByte a, m.readByte (a + 3)⟩

/-- The bytes b, g, r, a of a pixel just written (R87, R143). -/
theorem Memory.colorAt_writePixel_same (m : Memory) (a : Nat) (c : Color) (ha : a + 4 ≤ addressSpace) :
    (m.writePixel a c).colorAt a = c := by
  obtain ⟨r, g, b, al⟩ := c
  unfold Memory.colorAt Memory.writePixel
  simp only [readByte_writeByte]
  congr 1 <;> simp <;> omega

theorem Memory.colorAt_writePixel_other (m : Memory) (a b : Nat) (c : Color) (h : b + 4 ≤ a ∨ a + 4 ≤ b) :
    (m.writePixel a c).colorAt b = m.colorAt b := by
  unfold Memory.colorAt
  rw [readByte_writePixel_other _ _ _ _ (by omega), readByte_writePixel_other _ _ _ _ (by omega),
    readByte_writePixel_other _ _ _ _ (by omega), readByte_writePixel_other _ _ _ _ (by omega)]

/-! ## Runs of pixels -/

/-- The memory that a run of pixels leaves, and its first fault: the pixels ahead of that one are written (R174, R175). -/
def painted (d : Descriptor) : List Pixel → Memory → Memory × Option Fault
  | [], m => (m, none)
  | p :: ps, m =>
    if d.contains p.x p.y then
      if d.outside (d.offset p.x p.y) then (m, some (.fbOutOfRegion p.x p.y (d.offset p.x p.y)))
      else painted d ps (m.writePixel (d.buffer.toNat + d.offset p.x p.y) p.color)
    else painted d ps m

/-- A run goes on after its first part unless that faults. -/
theorem painted_append (d : Descriptor) (ps qs : List Pixel) (m : Memory) :
    painted d (ps ++ qs) m =
      if (painted d ps m).2 = none then painted d qs (painted d ps m).1 else painted d ps m := by
  induction ps generalizing m with
  | nil => rfl
  | cons p ps ih =>
    rw [List.cons_append, painted, painted]
    split
    · split
      · rfl
      · exact ih _
    · exact ih m

/-- Where every in-bounds pixel is inside the region no fault arises (R143). -/
theorem painted_no_fault {d : Descriptor} {ps : List Pixel} (m : Memory)
    (h : ∀ p ∈ ps, d.contains p.x p.y = true → d.outside (d.offset p.x p.y) = false) : (painted d ps m).2 = none := by
  induction ps generalizing m with
  | nil => rfl
  | cons p ps ih =>
    have ih := fun m => ih m fun q hq => h q (by simp [hq])
    rw [painted]
    split
    · rename_i hc; rw [h p (by simp) hc]; exact ih _
    · exact ih m

/-- A fault of the pixel writer, if any, is FB_OUT_OF_REGION of an in-bounds pixel of the run (R143). -/
theorem painted_fault {d : Descriptor} {ps : List Pixel} {m : Memory} {f : Fault} (h : (painted d ps m).2 = some f) :
    ∃ p ∈ ps, d.contains p.x p.y = true ∧ d.outside (d.offset p.x p.y) = true ∧
      f = .fbOutOfRegion p.x p.y (d.offset p.x p.y) := by
  induction ps generalizing m with
  | nil => cases h
  | cons p ps ih =>
    rw [painted] at h
    split at h
    · rename_i hc
      split at h
      · rename_i ho; exact ⟨p, by simp, hc, ho, (Option.some.inj h).symm⟩
      · obtain ⟨q, hq, h⟩ := ih h; exact ⟨q, List.mem_cons_of_mem _ hq, h⟩
    · obtain ⟨q, hq, h⟩ := ih h; exact ⟨q, List.mem_cons_of_mem _ hq, h⟩

theorem painted_wf {d : Descriptor} (ps : List Pixel) {m : Memory} (h : m.wf) : (painted d ps m).1.wf := by
  induction ps generalizing m with
  | nil => exact h
  | cons p ps ih =>
    rw [painted]
    split
    · split
      · exact h
      · exact ih (Memory.writePixel_wf h _ _)
    · exact ih h

/-- A byte outside every in-bounds pixel of a run whose bytes are inside the region keeps its value. -/
theorem readByte_painted_other (d : Descriptor) (ps : List Pixel) (m : Memory) (a : Nat)
    (h : ∀ p ∈ ps, d.contains p.x p.y = true → d.outside (d.offset p.x p.y) = false →
      a < d.buffer.toNat + d.offset p.x p.y ∨ d.buffer.toNat + d.offset p.x p.y + 4 ≤ a) :
    (painted d ps m).1.readByte a = m.readByte a := by
  induction ps generalizing m with
  | nil => rfl
  | cons p ps ih =>
    have ih := fun m => ih m fun q hq => h q (by simp [hq])
    rw [painted]
    split
    · rename_i hc
      split
      · rfl
      · rename_i ho
        rw [ih, Memory.readByte_writePixel_other _ _ _ _ (h p (by simp) hc (by simpa using ho))]
    · exact ih m

/-- A run of pixels changes no byte outside the region (R51, R175). -/
theorem readByte_painted_region (d : Descriptor) (ps : List Pixel) (m : Memory) (a : Nat)
    (h : a < d.buffer.toNat ∨ d.buffer.toNat + d.size.toNat ≤ a) : (painted d ps m).1.readByte a = m.readByte a :=
  readByte_painted_other d ps m a fun p _ _ ho => by rw [Descriptor.outside_eq_false] at ho; omega

/-- An in-bounds pixel of a run has the run's colour for it, where the in-bounds pixels of the run that overlap its bytes
are at the same place and have that colour. -/
theorem colorAt_painted (d : Descriptor) (ps : List Pixel) (m : Memory) (a : Nat) (c : Color)
    (ha : a + 4 ≤ addressSpace) (hn : (painted d ps m).2 = none)
    (h : ∀ p ∈ ps, d.contains p.x p.y = true →
      (d.buffer.toNat + d.offset p.x p.y = a ∧ p.color = c) ∨
      a + 4 ≤ d.buffer.toNat + d.offset p.x p.y ∨ d.buffer.toNat + d.offset p.x p.y + 4 ≤ a)
    (hex : m.colorAt a = c ∨ ∃ p ∈ ps, d.contains p.x p.y = true ∧ d.buffer.toNat + d.offset p.x p.y = a) :
    (painted d ps m).1.colorAt a = c := by
  induction ps generalizing m with
  | nil => rcases hex with h | ⟨p, hp, -⟩ <;> simp_all [painted]
  | cons p ps ih =>
    have ih := fun m hn => ih m hn fun q hq => h q (by simp [hq])
    rw [painted] at hn ⊢
    by_cases hc : d.contains p.x p.y = true
    · rw [if_pos hc] at hn ⊢
      by_cases ho : d.outside (d.offset p.x p.y) = true
      · rw [if_pos ho] at hn; cases hn
      rw [if_neg ho] at hn ⊢
      apply ih _ hn
      rcases h p (by simp) hc with ⟨h1, h2⟩ | h1
      · left; rw [h1, h2]; exact Memory.colorAt_writePixel_same _ _ _ ha
      · rcases hex with hex | ⟨q, hq, hqc, hqa⟩
        · left; rw [Memory.colorAt_writePixel_other _ _ _ _ (by omega), hex]
        · rcases List.mem_cons.mp hq with rfl | hq
          · omega
          · exact .inr ⟨q, hq, hqc, hqa⟩
    · rw [if_neg hc] at hn ⊢
      apply ih _ hn
      rcases hex with hex | ⟨q, hq, hqc, hqa⟩
      · exact .inl hex
      · rcases List.mem_cons.mp hq with rfl | hq
        · exact absurd hqc hc
        · exact .inr ⟨q, hq, hqc, hqa⟩

/-! ## What the runs hold -/

theorem mem_rectPixels {x0 x1 y0 y1 : Int} {c : Color} {p : Pixel} :
    p ∈ rectPixels x0 x1 y0 y1 c ↔ x0 ≤ p.x ∧ p.x < x1 ∧ y0 ≤ p.y ∧ p.y < y1 ∧ p.color = c := by
  obtain ⟨px, py, pc⟩ := p
  simp only [rectPixels, List.mem_flatMap, List.mem_map, List.mem_range, Pixel.mk.injEq]
  constructor
  · rintro ⟨j, hj, i, hi, rfl, rfl, rfl⟩
    exact ⟨by omega, by omega, by omega, by omega, rfl⟩
  · rintro ⟨h1, h2, h3, h4, rfl⟩
    exact ⟨(py - y0).toNat, by omega, (px - x0).toNat, by omega, by omega, by omega, rfl⟩

theorem mem_charPixels {g : Glyph} {x y : Int} {fg bg : Color} {p : Pixel} :
    p ∈ charPixels g x y fg bg ↔ ∃ r c : Nat, r < 8 ∧ c < 8 ∧ p.x = x + c ∧ p.y = y + r ∧
      p.color = if glyphBit (g.toList.getD r 0#8) c then fg else bg := by
  obtain ⟨px, py, pc⟩ := p
  simp only [charPixels, Config.glyphH, Config.glyphW, List.mem_flatMap, List.mem_map, List.mem_range, Pixel.mk.injEq]
  constructor
  · rintro ⟨r, hr, c, hc, rfl, rfl, rfl⟩
    exact ⟨r, c, hr, hc, rfl, rfl, rfl⟩
  · rintro ⟨r, c, hr, hc, rfl, rfl, rfl⟩
    exact ⟨r, hr, c, hc, rfl, rfl, rfl⟩

/-! ## Drawing, with a coprocessor that takes no step -/

/-- Where a pixel loop leads: on with the work, or to the end of the operation at a fault (R174). -/
def State.drew (s : State) (r : Memory × Option Fault) (ms : List Micro) : State :=
  match r.2 with
  | none => alone (settle ms (s.withMem r.1))
  | some f => ((s.withMem r.1).markFault f).ended

/-- A run without a fault returns: a drawing operation has no result of its own. -/
theorem State.drew_none {s : State} {r : Memory × Option Fault} (h : r.2 = none) :
    s.drew r [.ret .none] = (s.withMem r.1).returned .none := by
  unfold State.drew; rw [h]; exact alone_returned _ _

theorem State.drew_some {s : State} {r : Memory × Option Fault} {f : Fault} (h : r.2 = some f) (ms : List Micro) :
    s.drew r ms = ((s.withMem r.1).markFault f).ended := by
  unfold State.drew; rw [h]

/-- The pixel loop (R143, R144, R161). -/
theorem alone_pixelLoop (ps : List Pixel) (ms : List Micro) (s : State) :
    alone (settle (.pixels ps :: ms) s) = s.drew (painted s.fb.desc ps s.mem) ms := by
  induction ps generalizing s with
  | nil => rfl
  | cons p ps ih =>
    rw [alone_pixels, pixelWork, painted]
    dsimp only
    by_cases hc : s.fb.desc.contains p.x p.y = true
    · rw [if_pos hc, if_pos hc]
      by_cases ho : s.fb.desc.outside (s.fb.desc.offset p.x p.y) = true
      · rw [if_pos ho, if_pos ho]
        exact alone_nil rfl
      · rw [if_neg ho, if_neg ho]
        simp only [enter, List.cons_append, List.nil_append]
        rw [alone_byte, alone_byte, alone_byte, alone_byte, ih]
        rfl
    · rw [if_neg hc, if_neg hc]
      simp only [enter, List.nil_append]
      exact ih s

/-- The pixels of a text (R161, R162). -/
def textPixels (p : Config.Params) (left : Int) (fg bg : Color) (text : List Byte) (cx cy : Int) : List Pixel :=
  (textLayout left text cx cy).flatMap fun g => charPixels (glyphOf p g.2.2) g.1 g.2.1 fg bg

theorem drew_split (s : State) (ps qs : List Pixel) (ms : List Micro) :
    s.drew (painted s.fb.desc ps s.mem) (.pixels qs :: ms) = s.drew (painted s.fb.desc (ps ++ qs) s.mem) ms := by
  rw [painted_append]
  unfold State.drew
  cases h : (painted s.fb.desc ps s.mem).2 with
  | none => rw [if_pos rfl]; exact alone_pixelLoop qs ms _
  | some f => rw [if_neg (by simp), h]

/-- The character loop is the pixel loop over the characters' pixels (R162). -/
theorem alone_textLoop (x : Int) (fg bg : Color) (text : List Byte) (cx cy : Int) (ms : List Micro) (s : State) :
    alone (settle (.text x fg bg text cx cy :: ms) s) =
      s.drew (painted s.fb.desc (textPixels s.cfg (newlineX s.cfg x) fg bg text cx cy) s.mem) ms := by
  induction text generalizing s cx cy with
  | nil => rfl
  | cons ch text ih =>
    rw [alone_text, textWork]
    unfold textPixels
    rw [textLayout]
    by_cases hn : ch = Config.newline
    · rw [if_pos hn, if_pos (show ch = 0x0A#8 from hn)]
      exact ih _ _ s
    · rw [if_neg hn, if_neg (show ¬ ch = 0x0A#8 from hn), List.flatMap_cons, List.cons_append, alone_pixelLoop, ← drew_split]
      unfold State.drew
      cases h : (painted s.fb.desc (charPixels (glyphOf s.cfg ch) cx cy fg bg) s.mem).2 with
      | some f => rfl
      | none =>
        dsimp only
        rw [List.singleton_append, alone_pixelLoop]
        exact ih _ _ _

/-- Everything the checks of a drawing operation can do: a mark and nothing else, or READY at depth 32. -/
theorem checkDrawable_cases (s : State) :
    (∃ r, checkDrawable s = refuse r s) ∨ (s.Drawable ∧ checkDrawable s = .ok () s) := by
  unfold checkDrawable
  split
  · exact .inl ⟨_, rfl⟩
  · rename_i h1
    split
    · exact .inl ⟨_, rfl⟩
    · rename_i h2
      exact .inr ⟨⟨not_not.mp h1, not_not.mp h2⟩, rfl⟩

theorem checkDrawable_ok {s : State} (h : s.Drawable) : checkDrawable s = .ok () s := by
  unfold checkDrawable
  rw [if_neg (by simp [h.1]), if_neg (by simp [h.2, Config.fbDepth])]

theorem checked_paintWork (ps : List Pixel) (s : State) :
    Checked s (fun ms => s.Drawable ∧ ms = [.pixels ps]) (paintWork ps s) := by
  unfold paintWork
  rcases checkDrawable_cases s with ⟨r, h⟩ | ⟨hd, h⟩ <;> rw [h]
  · exact .refuse r
  · exact .ok _ ⟨hd, rfl⟩

theorem checked_drawStringWork (x y : Int) (text : List Byte) (fg bg : Color) (s : State) :
    Checked s (fun ms => s.Drawable ∧ 0#8 ∉ text ∧ ms = [.text x fg bg text x y]) (drawStringWork x y text fg bg s) := by
  unfold drawStringWork
  rcases checkDrawable_cases s with ⟨r, h⟩ | ⟨hd, h⟩ <;> rw [h]
  · exact .refuse r
  · rw [Res.andThen_ok]
    split
    · exact .refuse _
    · rename_i hn; exact .ok _ ⟨hd, by simpa using hn, rfl⟩

/-- A pixel loop as an operation (R143, R144, R161). -/
theorem paint_alone {s : State} (hd : s.Drawable) (hs : s.sched = []) (ps : List Pixel) :
    paint ps s = .next (s.drew (painted s.fb.desc ps s.mem) [.ret .none]) := by
  rw [paint, paintWork, checkDrawable_ok hd, Res.andThen_ok, returning_ok, launch_alone hs]
  exact congrArg _ (alone_pixelLoop ps [.ret .none] s)

/-- `draw_string` as an operation (R162). -/
theorem execFbDrawString_alone {s : State} (hd : s.Drawable) (hs : s.sched = []) (x y : Int) {text : List Byte}
    (hn : 0#8 ∉ text) (fg bg : Color) :
    execFbDrawString x y text fg bg s = .next
      (s.drew (painted s.fb.desc (textPixels s.cfg (newlineX s.cfg x) fg bg text x y) s.mem) [.ret .none]) := by
  rw [execFbDrawString, drawStringWork, checkDrawable_ok hd, Res.andThen_ok, if_neg (by simpa using hn), returning_ok,
    launch_alone hs]
  exact congrArg _ (alone_textLoop x fg bg text x y [.ret .none] s)

end Sys2Proof.Machine
end

