-- ==== Sys2Proof/Laws/Step.lean ====
section
/-! SUPPORT. Everything an operation and a step can do, said once: the two shapes of `exec` (`exec_shape`: an access, or
work that is begun), the cases of the CPU's step (`cpuStep_cases`), the induction over one step of the machine
(`step_rel`), and that work of the builder and of drawing runs beside the coprocessor (`drive_local`). -/

namespace Sys2Proof.Machine

/-! ## Accesses -/

/-- What the operations that make one access or none keep. -/
structure Part (s u : State) : Prop where
  cfg   : u.cfg = s.cfg
  ops   : u.ops = s.ops
  pos   : u.pos = s.pos
  fb    : u.fb = s.fb
  marks : MarksKept s u

theorem Part.refl (s : State) : Part s s := ⟨rfl, rfl, rfl, rfl, .refl s⟩

theorem Part.trans (s t u : State) (h1 : Part s t) (h2 : Part t u) : Part s u :=
  ⟨h2.cfg.trans h1.cfg, h2.ops.trans h1.ops, h2.pos.trans h1.pos, h2.fb.trans h1.fb, h1.marks.trans h2.marks⟩

theorem Part.mF (s : State) (f : Fault) : Part s (s.markFault f) := ⟨by simp, by simp, by simp, by simp, .markFault s f⟩

theorem Part.mR (s : State) (r : Refusal) : Part s (s.markRefused r) :=
  ⟨by simp, by simp, by simp, by simp, .markRefused s r⟩

theorem Part.cop (e : CopStep) (s : State) : Part s (copStep e s) :=
  ⟨by simp, by simp, by simp, by simp, .of_eq (by simp) (by simp)⟩

theorem Part.andOk {α β : Type} (s : State) (r : Res α) (f : α → β) (h : Part s r.state) :
    Part s (r.andThen fun a s => .ok (f a) s).state := by
  cases r <;> exact h

theorem Part.readStatus (s : State) : Part s (readStatus s).state := ⟨rfl, rfl, rfl, rfl, .of_eq rfl rfl⟩

theorem Part.readRead (s : State) : Part s (readRead s).state := by
  rcases readRead_cases s with ⟨_, h⟩ | ⟨w, r, _, h⟩ <;> rw [h]
  · exact .mR _ _
  · exact ⟨rfl, rfl, rfl, rfl, .of_eq rfl rfl⟩

theorem Part.writeWrite (v : Word) (s : State) : Part s (writeWrite v s).state := by
  rcases writeWrite_cases v s with ⟨_, h⟩ | ⟨_, _, h⟩ <;> rw [h]
  · exact .mR _ _
  · exact ⟨rfl, rfl, rfl, rfl, .of_eq rfl rfl⟩

theorem Part.mailbox (k : BitVec 4) (m : WordMove) (a : BitVec 28) (s : State) : Part s (mailboxWord k m a s).state := by
  rcases mailboxWord_cases k m a s with h | ⟨e, h⟩ <;> rw [h]
  · exact .andOk _ _ _ (.writeWrite _ s)
  · exact .cop e s

theorem Part.readIndex (i : Nat) (s : State) : Part s (readIndex i s).state := by
  unfold Sys2Proof.Machine.readIndex; split
  · exact .mR _ _
  · exact .refl s

/-! ## Work -/

/-- The pieces of the builder's and of drawing's operations. -/
def Micro.isLocal : Micro → Bool
  | .word _ _ | .builder _ | .addTag _ _ _ | .finish | .pixels _ | .byte _ _ | .text _ _ _ _ _ _ | .ret _ => true
  | .allocTag _ _ _ | .pitchTag _ _ _ _ | .propertyCall _ _ | .pollFull _ _ | .pollEmpty _ _ | .verify _ _
  | .readBus _ _ _ _ _ | .readSize _ _ _ _ _ _ | .readPitch _ _ _ _ _ _ => false

theorem Micro.quiet_of_isLocal {x : Micro} (h : x.isLocal = true) : x.quiet = true := by
  cases x <;> first | rfl | cases h

/-- The work an operation begins. -/
inductive Begun (i : Instr) (s : State) : List Micro → Prop where
  | send (a : Word) (ha : a &&& 0xF#32 = 0#32) (hi : i = .mbSend 8#32 a) : Begun i s [.pollFull 8#32 a, .ret .none]
  | receive (c : Word) (hc : c.toNat ≤ 8) (hi : i = .mbReceive c) : Begun i s [.pollEmpty c .result]
  | call (a : Word) (ha : a &&& 0xF#32 = 0#32) (hi : i = .mbCall 8#32 a) :
    Begun i s [.pollFull 8#32 a, .pollEmpty 8#32 .drop, .verify a .call]
  | pmCall (hp : s.pm.phase = .finished) (ha : s.cfg.msgBufAddr &&& 0xF#32 = 0#32) (hi : i = .pmCall 8#32) :
    Begun i s [.pollFull 8#32 s.cfg.msgBufAddr, .pollEmpty 8#32 .drop, .verify s.cfg.msgBufAddr .pmCall]
  | init (w h d : Word) (hf : s.fb.state = .uninit) (hp : s.pm.phase ≠ .building) (hi : i = .fbInit w h d) :
    Begun i s (beginWork ++ [.addTag 0x00048003 8 [w, h], .addTag 0x00048004 8 [w, h], .addTag 0x00048009 8 [0, 0],
      .addTag 0x00048005 4 [d], .allocTag w h d])
  | buffer (ms : List Micro) (hi : localOperation i = true) (h : ∀ m ∈ ms, m.isLocal = true)
    (hl : s.Inv → ∀ m ∈ ms, m.Legal s) : Begun i s ms

theorem mem_wordWrites {vs : List Word} {i : Nat} {m : Micro} (h : m ∈ wordWrites i vs) : ∃ j v, m = .word j v := by
  induction vs generalizing i with
  | nil => cases h
  | cons v vs ih =>
    rcases List.mem_cons.mp h with rfl | h
    · exact ⟨_, _, rfl⟩
    · exact ih h

/-! ## What no schedule bears on -/

theorem State.markRefused_withSched (s : State) (r : Refusal) (ts : List Turn) :
    (s.withSched ts).markRefused r = (s.markRefused r).withSched ts := by
  rw [show s.withSched ts = s.over s.dev s.cop s.mem ts from rfl, State.markRefused_over]
  simp [State.over, State.withSched]

theorem State.markFault_withSched (s : State) (f : Fault) (ts : List Turn) :
    (s.withSched ts).markFault f = (s.markFault f).withSched ts := by
  rw [show s.withSched ts = s.over s.dev s.cop s.mem ts from rfl, State.markFault_over]
  simp [State.over, State.withSched]

/-- An access answers the same under every schedule, and leaves it as it is. -/
def ScheduleFree (f : State → Res Result) : Prop :=
  ∀ (s : State) (ts : List Turn), ∃ t : State,
    conclude (f s) = .next t ∧ conclude (f (s.withSched ts)) = .next (t.withSched ts)

theorem scheduleFree_refuse (r : Refusal) : ScheduleFree fun s => refuse r s :=
  fun s ts => ⟨_, rfl, by simp only [conclude, refuse, State.markRefused_withSched]; rfl⟩

theorem scheduleFree_ok (f : State → Result) (g : State → State)
    (hf : ∀ (s : State) (ts : List Turn), f (s.withSched ts) = f s)
    (hg : ∀ (s : State) (ts : List Turn), g (s.withSched ts) = (g s).withSched ts) :
    ScheduleFree fun s => .ok (f s) (g s) :=
  fun s ts => ⟨_, rfl, by simp only [conclude, hf, hg]; rfl⟩

theorem scheduleFree_readStatus : ScheduleFree fun s => wordResult (readStatus s) :=
  scheduleFree_ok _ _ (fun _ _ => rfl) fun _ _ => rfl

theorem scheduleFree_readRead : ScheduleFree fun s => wordResult (readRead s) := by
  intro s ts
  cases h : s.dev.inq with
  | nil =>
    obtain ⟨t, h1, h2⟩ := scheduleFree_refuse .readEmpty s ts
    exact ⟨t, by simpa [readRead, h, wordResult] using h1, by simpa [readRead, h, wordResult] using h2⟩
  | cons w r =>
    exact ⟨_, by simp only [readRead, h, wordResult, Res.andThen, conclude]; rfl,
      by simp only [readRead, State.withSched_dev, h, wordResult, Res.andThen, conclude]; rfl⟩

theorem scheduleFree_writeWrite (v : Word) : ScheduleFree fun s => noResult (writeWrite v s) := by
  intro s ts
  simp only [writeWrite, show (s.withSched ts).full = s.full from rfl]
  cases sendChannelRefusal (chanOf v) with
  | some r => simpa [noResult] using scheduleFree_refuse r s ts
  | none =>
    cases s.full with
    | true => simpa [noResult] using scheduleFree_refuse .writeFull s ts
    | false => exact ⟨_, rfl, rfl⟩

theorem scheduleFree_mailboxWord (k : BitVec 4) (m : WordMove) (a : BitVec 28) :
    ScheduleFree fun s => mailboxWord k m a s := by
  cases m with
  | toCop => exact scheduleFree_writeWrite _
  | toCpu ds =>
    by_cases h : k = 8#4
    · simp only [mailboxWord, h, if_true]
      exact scheduleFree_ok _ _ (fun _ _ => rfl) fun s ts => copStep_withSched _ s ts
    · simp only [mailboxWord, h, if_false]
      exact scheduleFree_ok _ _ (fun _ _ => rfl) fun s ts => copStep_withSched _ s ts

theorem scheduleFree_readIndex (i : Nat) : ScheduleFree fun s => wordResult (readIndex i s) := by
  intro s ts
  simp only [readIndex]
  by_cases h : s.cfg.msgCapWords ≤ i
  · rw [if_pos h, if_pos (by exact h)]
    simpa [wordResult] using scheduleFree_refuse .pmIndex s ts
  · rw [if_neg h, if_neg (by exact h)]; exact ⟨_, rfl, rfl⟩

/-- Checks answer the same under every schedule. -/
def ChecksApart (f : State → Res (List Micro)) : Prop :=
  ∀ s : State, (∃ r, ∀ ts : List Turn, f (s.withSched ts) = refuse r (s.withSched ts)) ∨
    (∃ e, ∀ ts : List Turn, f (s.withSched ts) = raise e (s.withSched ts)) ∨
    ∃ ms, ∀ ts : List Turn, f (s.withSched ts) = .ok ms (s.withSched ts)

theorem ChecksControl.apart {f : State → Res (List Micro)} (h : ChecksControl f) : ChecksApart f := by
  intro s
  rcases h s with ⟨r, h⟩ | ⟨r, h⟩ | ⟨ms, h⟩
  · exact .inl ⟨r, fun ts => h _ rfl rfl rfl⟩
  · exact .inr (.inl ⟨r, fun ts => h _ rfl rfl rfl⟩)
  · exact .inr (.inr ⟨ms, fun ts => h _ rfl rfl rfl⟩)

theorem ChecksControl.returning {f : State → Res (List Micro)} (h : ChecksControl f) (g : State → Result)
    (hg : ∀ (s : State) (ts : List Turn), g (s.withSched ts) = g s) : ChecksApart fun s => (f s).returning (g s) := by
  intro s
  rcases h s with ⟨r, h⟩ | ⟨r, h⟩ | ⟨ms, h⟩
  · exact .inl ⟨r, fun ts => by simp only [h (s.withSched ts) rfl rfl rfl]; rfl⟩
  · exact .inr (.inl ⟨r, fun ts => by simp only [h (s.withSched ts) rfl rfl rfl]; rfl⟩)
  · exact .inr (.inr ⟨ms ++ [.ret (g s)], fun ts => by simp only [h (s.withSched ts) rfl rfl rfl, returning_ok, hg]⟩)

theorem checksApart_receiveWork (c : Word) : ChecksApart (receiveWork c) := by
  intro s
  unfold receiveWork
  cases receiveChannelRefusal c
  · exact .inr (.inr ⟨_, fun _ => rfl⟩)
  · exact .inl ⟨_, fun _ => rfl⟩

theorem checksApart_initWork (w h d : Word) : ChecksApart (initWork w h d) := by
  intro s
  by_cases h1 : s.fb.state = .ready
  · exact .inl ⟨.fbReinit, fun ts => by rw [initWork, if_pos (by exact h1)]⟩
  · by_cases h2 : s.pm.phase = .building
    · exact .inl ⟨.pmPhase, fun ts => by rw [initWork, if_neg (by exact h1), if_pos (by exact h2)]⟩
    · exact .inr (.inr ⟨_, fun ts => by rw [initWork, if_neg (by exact h1), if_neg (by exact h2)]⟩)

theorem checksApart_checkDrawable (s : State) :
    (∃ r, ∀ ts : List Turn, checkDrawable (s.withSched ts) = refuse r (s.withSched ts)) ∨
    ∀ ts : List Turn, checkDrawable (s.withSched ts) = .ok () (s.withSched ts) := by
  by_cases h1 : s.fb.state = .ready
  · by_cases h2 : s.fb.desc.depth = Config.fbDepth
    · exact .inr fun ts => checkDrawable_ok ⟨h1, h2⟩
    · exact .inl ⟨_, fun ts => by rw [checkDrawable, if_neg (by simpa using h1), if_pos (by exact h2)]⟩
  · exact .inl ⟨_, fun ts => by rw [checkDrawable, if_pos (by exact h1)]⟩

theorem checksApart_paintWork (ps : Driver → Config.Params → List Pixel) :
    ChecksApart fun s => (paintWork (ps s.fb s.cfg) s).returning .none := by
  intro s
  rcases checksApart_checkDrawable s with ⟨r, h⟩ | h
  · exact .inl ⟨r, fun ts => by simp only [paintWork, h ts]; rfl⟩
  · exact .inr (.inr ⟨[.pixels (ps s.fb s.cfg), .ret .none], fun ts => by simp only [paintWork, h ts]; rfl⟩)

theorem checksApart_drawStringWork (x y : Int) (t : List Byte) (c d : Color) :
    ChecksApart fun s => (drawStringWork x y t c d s).returning .none := by
  intro s
  rcases checksApart_checkDrawable s with ⟨r, h⟩ | h
  · exact .inl ⟨r, fun ts => by simp only [drawStringWork, h ts]; rfl⟩
  · by_cases h0 : t.contains 0#8 = true
    · exact .inl ⟨.textNul, fun ts => by
        simp only [drawStringWork, h ts, Res.andThen_ok]; rw [if_pos h0]; rfl⟩
    · exact .inr (.inr ⟨[.text x c d t x y, .ret .none], fun ts => by
        simp only [drawStringWork, h ts, Res.andThen_ok]; rw [if_neg h0]; rfl⟩)

/-! ## The shapes of `exec` -/

/-- Everything `exec` of an instruction is: an access (or a reading of the state), or work begun after its checks. -/
inductive ExecShape (i : Instr) : Prop where
  | access (f : State → Res Result) (h : ∀ s, exec i s = conclude (f s)) (part : ∀ s, Part s (f s).state)
    (free : ScheduleFree f) (notLocal : localOperation i = false)
  | work (f : State → Res (List Micro)) (h : ∀ s, exec i s = launch (f s)) (checked : ∀ s, Checked s (Begun i s) (f s))
    (apart : ChecksApart f)

theorem begun_addTag {i : Instr} {s : State} (hi : localOperation i = true) (id vbuf : Word) (req : List Word)
    (res : Result) : Checked s (Begun i s) ((addTagWork id vbuf req s).returning res) :=
  ((checked_addTagWork id vbuf req s).returning res).mono fun _ h => by
    obtain ⟨_, ⟨hb, -, -, hc, rfl⟩, rfl⟩ := h
    refine .buffer _ hi (fun m hm => ?_) fun inv m hm => ?_ <;>
      simp only [List.append_assoc, List.mem_append, List.mem_cons, List.not_mem_nil, or_false] at hm <;>
      rcases hm with hm | rfl | rfl
    · obtain ⟨_, _, rfl⟩ := mem_wordWrites hm; rfl
    · rfl
    · rfl
    · obtain ⟨_, _, rfl⟩ := mem_wordWrites hm; trivial
    · have := inv.cursor (by simp [hb]); simp only [Micro.Legal]; omega
    · trivial

theorem begun_finish {i : Instr} {s : State} (hi : localOperation i = true) :
    Checked s (Begun i s) ((finishWork s).returning .none) :=
  ((checked_finishWork s).returning .none).mono fun _ h => by
    obtain ⟨_, ⟨hb, hc, rfl⟩, rfl⟩ := h
    refine .buffer _ hi (by simp [Micro.isLocal]) fun inv m hm => ?_
    have := inv.cursor (by simp [hb])
    simp only [List.cons_append, List.nil_append, List.mem_cons, List.not_mem_nil, or_false] at hm
    rcases hm with rfl | rfl | rfl | rfl | rfl <;> simp only [Micro.Legal] <;> omega

theorem begun_paint {i : Instr} {s : State} (hi : localOperation i = true) (ps : List Pixel) :
    Checked s (Begun i s) ((paintWork ps s).returning .none) :=
  ((checked_paintWork ps s).returning .none).mono fun _ h => by
    obtain ⟨_, ⟨-, rfl⟩, rfl⟩ := h
    exact .buffer _ hi (by simp [Micro.isLocal]) (by simp [Micro.Legal])

theorem begun_drawString {i : Instr} {s : State} (hi : localOperation i = true) (x y : Int) (t : List Byte)
    (c d : Color) : Checked s (Begun i s) ((drawStringWork x y t c d s).returning .none) :=
  ((checked_drawStringWork x y t c d s).returning .none).mono fun _ h => by
    obtain ⟨_, ⟨-, -, rfl⟩, rfl⟩ := h
    exact .buffer _ hi (by simp [Micro.isLocal]) (by simp [Micro.Legal])

/-- An access refused whatever the state (R57). -/
theorem shape_refuse {i : Instr} (r : Refusal) (h : ∀ s, exec i s = conclude (refuse r s))
    (l : localOperation i = false) : ExecShape i :=
  .access _ h (fun _ => .mR _ _) (scheduleFree_refuse r) l

theorem shape_mailboxWord {i : Instr} (k : BitVec 4) (m : WordMove) (a : BitVec 28)
    (h : ∀ s, exec i s = conclude (mailboxWord k m a s)) (l : localOperation i = false) : ExecShape i :=
  .access _ h (fun s => .mailbox k m a s) (scheduleFree_mailboxWord k m a) l

theorem shape_addTag {i : Instr} (id vbuf : Word) (req : List Word) (h : ∀ s, exec i s = addTag id vbuf req s)
    (l : localOperation i = true) : ExecShape i :=
  .work _ h (fun _ => begun_addTag l _ _ _ _) ((checksControl_addTagWork id vbuf req).returning _ fun _ _ => rfl)

theorem shape_finish {i : Instr} (h : ∀ s, exec i s = launch ((finishWork s).returning .none))
    (l : localOperation i = true) : ExecShape i :=
  .work _ h (fun _ => begun_finish l) (checksControl_finishWork.returning _ fun _ _ => rfl)

theorem shape_paint {i : Instr} (ps : Driver → Config.Params → List Pixel) (h : ∀ s, exec i s = paint (ps s.fb s.cfg) s)
    (l : localOperation i = true) : ExecShape i :=
  .work _ h (fun _ => begun_paint l _) (checksApart_paintWork ps)

theorem exec_shape (i : Instr) : ExecShape i := by
  cases i
  case mmioRdStatus =>
    exact .access _ (fun _ => rfl) (fun s => .andOk _ _ _ (.readStatus s)) scheduleFree_readStatus rfl
  case mmioRdRead => exact .access _ (fun _ => rfl) (fun s => .andOk _ _ _ (.readRead s)) scheduleFree_readRead rfl
  case mmioWrWrite v =>
    exact .access _ (fun _ => rfl) (fun s => .andOk _ _ _ (.writeWrite v s)) (scheduleFree_writeWrite v) rfl
  case mbSend c a =>
    exact .work _ (fun _ => rfl)
      (fun s => ((checked_sendWork c a s).returning .none).mono fun _ h => by
        obtain ⟨_, ⟨rfl, ha, rfl⟩, rfl⟩ := h; exact .send a ha rfl)
      ((checksControl_sendWork c a).returning _ fun _ _ => rfl)
  case mbReceive c =>
    exact .work _ (fun _ => rfl)
      (fun s => (checked_receiveWork c s).mono fun _ h => by obtain ⟨hc, rfl⟩ := h; exact .receive c hc rfl)
      (checksApart_receiveWork c)
  case mbCall c a =>
    exact .work _ (fun _ => rfl)
      (fun s => (checked_callWork c a .call s).mono fun _ h => by obtain ⟨rfl, ha, rfl⟩ := h; exact .call a ha rfl)
      (checksControl_callWork c a .call).apart
  case pmBegin =>
    refine .work (fun s => .ok (beginWork ++ [.ret .none]) s) (fun _ => rfl)
      (fun s => .ok _ (.buffer _ rfl (by simp [beginWork, Micro.isLocal]) fun inv m hm => ?_))
      fun s => .inr (.inr ⟨_, fun _ => rfl⟩)
    have := inv.params.capacity
    simp only [beginWork, List.cons_append, List.nil_append, List.mem_cons, List.not_mem_nil, or_false] at hm
    rcases hm with rfl | rfl | rfl <;> simp only [Micro.Legal]
    simp only [Config.minCapWords] at this; omega
  case pmFinish => exact shape_finish (fun _ => rfl) rfl
  case tagEnd => exact shape_finish (fun _ => rfl) rfl
  case pmCall c =>
    exact .work _ (fun _ => rfl)
      (fun s => (checked_pmCallWork c .pmCall s).mono fun _ h => by
        obtain ⟨hp, rfl, ha, rfl⟩ := h; exact .pmCall hp ha rfl)
      (checksControl_pmCallWork c .pmCall).apart
  case pmRead k =>
    exact .access _ (fun _ => rfl) (fun s => .andOk _ _ _ (.readIndex _ s)) (scheduleFree_readIndex k) rfl
  case fbBusToCpu b =>
    exact .access (fun s => .ok (.word (busToCpu b)) s) (fun _ => rfl) Part.refl
      (scheduleFree_ok _ id (fun _ _ => rfl) fun _ _ => rfl) rfl
  case fbInit w h d =>
    exact .work _ (fun _ => rfl)
      (fun s => (checked_initWork w h d s).mono fun _ h => by obtain ⟨hf, hp, rfl⟩ := h; exact .init w _ d hf hp rfl)
      (checksApart_initWork w h d)
  case fbPutPixel x y c => exact shape_paint (fun _ _ => [⟨x, y, c⟩]) (fun _ => rfl) rfl
  case fbFillRect x y w h c =>
    exact shape_paint (fun f _ => rectPixels (max x 0) (min (x + w) (f.desc.width.toNat : Int)) (max y 0)
      (min (y + h) (f.desc.height.toNat : Int)) c) (fun _ => rfl) rfl
  case fbClear c =>
    exact shape_paint (fun f _ => rectPixels (max 0 0) (min (0 + (f.desc.width.toNat : Int)) (f.desc.width.toNat : Int))
      (max 0 0) (min (0 + (f.desc.height.toNat : Int)) (f.desc.height.toNat : Int)) c) (fun _ => rfl) rfl
  case fbDrawChar x y ch c d => exact shape_paint (fun _ p => charPixels (glyphOf p ch) x y c d) (fun _ => rfl) rfl
  case fbDrawString x y t c d =>
    exact .work _ (fun _ => rfl) (fun _ => begun_drawString rfl _ _ _ _ _) (checksApart_drawStringWork x y t c d)
  case regRead a =>
    by_cases h : a = .read 32
    · subst h; exact .access _ (fun _ => rfl) (fun s => .andOk _ _ _ (.readRead s)) scheduleFree_readRead rfl
    · exact shape_refuse .mmioOther (execRegRead_other h) rfl
  case regStatus a =>
    by_cases h : a = .read 32
    · subst h; exact .access _ (fun _ => rfl) (fun s => .andOk _ _ _ (.readStatus s)) scheduleFree_readStatus rfl
    · exact shape_refuse .mmioOther (execRegStatus_other h) rfl
  case regWrite a =>
    by_cases h : ∃ v, a = .write 32 v
    · obtain ⟨v, rfl⟩ := h
      exact .access _ (fun _ => rfl) (fun s => .andOk _ _ _ (.writeWrite _ s)) (scheduleFree_writeWrite _) rfl
    · exact shape_refuse .mmioOther (execRegWrite_other fun v hv => h ⟨v, hv⟩) rfl
  case statusFull =>
    exact .access (fun s => .ok (.flag (s.statusWord.getLsbD 31)) (s.withDrawn (s.drawn + 1))) (fun _ => rfl)
      (fun s => .readStatus s) (scheduleFree_ok _ _ (fun _ _ => rfl) fun _ _ => rfl) rfl
  case statusEmpty =>
    exact .access (fun s => .ok (.flag (s.statusWord.getLsbD 30)) (s.withDrawn (s.drawn + 1))) (fun _ => rfl)
      (fun s => .readStatus s) (scheduleFree_ok _ _ (fun _ _ => rfl) fun _ _ => rfl) rfl
  case respSuccess =>
    exact .access (fun s => .ok (.flag (success (s.word 1))) s) (fun _ => rfl) Part.refl
      (scheduleFree_ok _ id (fun _ _ => rfl) fun _ _ => rfl) rfl
  case respFailure =>
    exact .access (fun s => .ok (.flag (!success (s.word 1))) s) (fun _ => rfl) Part.refl
      (scheduleFree_ok _ id (fun _ _ => rfl) fun _ _ => rfl) rfl
  case mboxWordCh0 => exact shape_mailboxWord _ _ _ (fun _ => rfl) rfl
  case mboxWordCh1 => exact shape_mailboxWord _ _ _ (fun _ => rfl) rfl
  case mboxWordCh2 => exact shape_mailboxWord _ _ _ (fun _ => rfl) rfl
  case mboxWordCh3 => exact shape_mailboxWord _ _ _ (fun _ => rfl) rfl
  case mboxWordCh4 => exact shape_mailboxWord _ _ _ (fun _ => rfl) rfl
  case mboxWordCh5 => exact shape_mailboxWord _ _ _ (fun _ => rfl) rfl
  case mboxWordCh6 => exact shape_mailboxWord _ _ _ (fun _ => rfl) rfl
  case mboxWordCh7 => exact shape_mailboxWord _ _ _ (fun _ => rfl) rfl
  case mboxWordCh8 => exact shape_mailboxWord _ _ _ (fun _ => rfl) rfl
  case mboxWordCh9 => exact shape_mailboxWord _ _ _ (fun _ => rfl) rfl
  case mboxWordCh10 => exact shape_mailboxWord _ _ _ (fun _ => rfl) rfl
  case mboxWordCh11 => exact shape_mailboxWord _ _ _ (fun _ => rfl) rfl
  case mboxWordCh12 => exact shape_mailboxWord _ _ _ (fun _ => rfl) rfl
  case mboxWordCh13 => exact shape_mailboxWord _ _ _ (fun _ => rfl) rfl
  case mboxWordCh14 => exact shape_mailboxWord _ _ _ (fun _ => rfl) rfl
  case mboxWordCh15 => exact shape_mailboxWord _ _ _ (fun _ => rfl) rfl
  all_goals exact shape_addTag _ _ _ (fun _ => rfl) rfl

/-- Everything an operation answers: a mark and the position past it, an access done, or its work driven. -/
theorem exec_next (i : Instr) (s : State) :
    (∃ r : Res Result, exec i s = conclude r ∧ Part s r.state) ∨
    (∃ t, exec i s = .next t.ended ∧ ((∃ f, t = s.markFault f) ∨ ∃ r, t = s.markRefused r)) ∨
    ∃ ms, Begun i s ms ∧ exec i s = .next (drive s.sched (settle ms s)) := by
  rcases exec_shape i with ⟨f, h, p, -, -⟩ | ⟨f, h, c, -⟩
  · exact .inl ⟨f s, h s, p s⟩
  · rcases launch_cases (c s) with ⟨q, hq⟩ | ⟨e, he⟩ | ⟨ms, hb, -, hd⟩
    · exact .inr (.inl ⟨_, (h s).trans hq, .inr ⟨q, rfl⟩⟩)
    · exact .inr (.inl ⟨_, (h s).trans he, .inl ⟨e, rfl⟩⟩)
    · exact .inr (.inr ⟨ms, hb, (h s).trans hd⟩)

/-! ## The step -/

/-- Everything issuing an operation can do. -/
theorem issue_cases (s : State) :
    (s.fetch = none ∧ issue s = .next s) ∨ (∃ r, issue s = .next (s.markRefused r).ended) ∨
    (∃ i, issue s = exec i s) := by
  unfold issue
  split
  · rename_i h; exact .inl ⟨h, rfl⟩
  · split
    · exact .inr (.inl ⟨_, rfl⟩)
    · exact .inr (.inr ⟨_, rfl⟩)

/-- Everything the CPU's step can do. -/
theorem cpuStep_cases (s : State) :
    (∃ f, s.fault = some f ∧ cpuStep s = .fault f) ∨
    (∃ r, s.fault = none ∧ s.refused = some r ∧ cpuStep s = .refused r) ∨
    (s.fault = none ∧ s.refused = none ∧ s.cpu = [] ∧ cpuStep s = issue s) ∨
    (s.fault = none ∧ s.refused = none ∧ s.cpu ≠ [] ∧ cpuStep s = .next (cpuTick s)) := by
  unfold cpuStep
  cases h1 : s.fault with
  | some f => exact .inl ⟨f, rfl, rfl⟩
  | none =>
    cases h2 : s.refused with
    | some r => exact .inr (.inl ⟨r, rfl, rfl, rfl⟩)
    | none =>
      dsimp only
      split
      · rename_i hc; exact .inr (.inr (.inl ⟨rfl, rfl, by simpa using hc, rfl⟩))
      · rename_i hc; exact .inr (.inr (.inr ⟨rfl, rfl, by simpa using hc, rfl⟩))

/-- A relation that every operation, every CPU step inside one and every coprocessor step has, a step of the machine has,
between the state with the schedule entry used up and the next state. -/
theorem step_rel {R : State → State → Prop} (s t : State) (h : step s = .next t) (refl : ∀ s : State, R s s)
    (refused : ∀ (s : State) (r : Refusal), R s (s.markRefused r).ended)
    (tick : ∀ s : State, s.cpu ≠ [] → R s (cpuTick s)) (cop : ∀ (e : CopStep) (s : State), R s (copStep e s))
    (ran : ∀ (i : Instr) (s t : State), exec i s = .next t → R s t) :
    ∃ s0, (s0 = s ∨ ∃ ts, s0 = s.withSched ts) ∧ R s0 t := by
  have cpu : ∀ s0 : State, cpuStep s0 = .next t → R s0 t := by
    intro s0 h
    rcases cpuStep_cases s0 with ⟨f, _, h2⟩ | ⟨f, _, _, h2⟩ | ⟨_, _, _, h2⟩ | ⟨_, _, hc, h2⟩
    · rw [h2] at h; simp at h
    · rw [h2] at h; simp at h
    · rw [h2] at h
      rcases issue_cases s0 with ⟨_, h3⟩ | ⟨r, h3⟩ | ⟨i, h3⟩
      · rw [h3] at h; simp at h; subst h; exact refl _
      · rw [h3] at h; simp at h; subst h; exact refused _ _
      · rw [h3] at h; exact ran _ _ _ h
    · rw [h2] at h; simp at h; subst h; exact tick _ hc
  unfold step at h
  split at h
  · simp at h; subst h; exact ⟨_, .inr ⟨_, rfl⟩, cop _ _⟩
  · exact ⟨_, .inr ⟨_, rfl⟩, cpu _ h⟩
  · simp at h; subst h; exact ⟨_, .inr ⟨_, rfl⟩, refl _⟩
  · exact ⟨_, .inl rfl, cpu _ h⟩

/-! ## Beside the coprocessor -/

/-- The coprocessor's steps write queues and PENDING from queues and PENDING. -/
theorem copStep_congr (e : CopStep) {s u : State} (hd : u.dev = s.dev) (hc : u.cop = s.cop) (hg : u.cfg = s.cfg) :
    (copStep e u).dev = (copStep e s).dev ∧ (copStep e u).cop = (copStep e s).cop := by
  have room : u.inRoom = s.inRoom := by simp only [State.inRoom, hd, hg]
  cases e with
  | consume => simp only [copStep, copConsume, hd]; split <;> simp [hd, hc]
  | answer a ds =>
    simp only [copStep, copAnswer, hc, room]
    split <;> simp [hd, hc]
  | unsolicited w =>
    simp only [copStep, copUnsolicited, room]
    split <;> simp [hd, hc]

theorem copRun_congr (ts : List Turn) {s u : State} (hd : u.dev = s.dev) (hc : u.cop = s.cop) (hg : u.cfg = s.cfg) :
    (copRun ts u).dev = (copRun ts s).dev ∧ (copRun ts u).cop = (copRun ts s).cop := by
  induction ts generalizing s u with
  | nil => exact ⟨hd, hc⟩
  | cons t ts ih =>
    cases t with
    | cpu => exact ih hd hc hg
    | pause => exact ih hd hc hg
    | cop e =>
      obtain ⟨h1, h2⟩ := copStep_congr e hd hc hg
      exact ih h1 h2 (by simp [hg])

/-- A local piece leaves local pieces, and the queues alone. -/
theorem cpuTick_local {s : State} (hl : ∀ m ∈ s.cpu, m.isLocal = true) :
    (∀ m ∈ (cpuTick s).cpu, m.isLocal = true) ∧ (cpuTick s).dev = s.dev := by
  rcases hc : s.cpu with _ | ⟨x, ms⟩
  · rw [cpuTick_nil hc]; exact ⟨hl, rfl⟩
  rw [hc] at hl
  have hx := hl x (by simp)
  have hms : ∀ m ∈ ms, m.isLocal = true := fun m hm => hl m (by simp [hm])
  rw [cpuTick_cons hc]
  refine ⟨?_, (doMicro_quiet (Micro.quiet_of_isLocal hx) ms s).1⟩
  have S (ns : List Micro) (u : State) (h : ∀ m ∈ ns, m.isLocal = true) : ∀ m ∈ (settle ns u).cpu, m.isLocal = true :=
    fun m hm => h m (settle_cpu_mem m hm)
  cases x with
  | word i v => exact S _ _ hms
  | builder p => exact S _ _ hms
  | addTag id v r =>
    intro m hm
    rcases enter_cpu_mem (checked_addTagWork id v r s) m hm with hm | ⟨_, ⟨-, -, -, -, rfl⟩, -, hm⟩
    · exact hms m hm
    · rcases List.mem_append.mp hm with hm | hm
      · obtain ⟨_, _, rfl⟩ := mem_wordWrites hm; rfl
      · obtain rfl := List.mem_singleton.mp hm; rfl
  | finish =>
    intro m hm
    rcases enter_cpu_mem (checked_finishWork s) m hm with hm | ⟨_, ⟨-, -, rfl⟩, -, hm⟩
    · exact hms m hm
    · simp only [List.mem_cons, List.not_mem_nil, or_false] at hm
      rcases hm with rfl | rfl | rfl | rfl <;> rfl
  | pixels ps => cases ps with
    | nil => exact S _ _ hms
    | cons p ps =>
      intro m hm
      rcases enter_cpu_mem (checked_pixelWork p s) m hm with hm | ⟨_, rfl | ⟨-, -, rfl⟩, -, hm⟩
      · rcases List.mem_cons.mp hm with rfl | hm
        · rfl
        · exact hms m hm
      · cases hm
      · simp only [pixelBytes, List.mem_cons, List.not_mem_nil, or_false] at hm
        rcases hm with rfl | rfl | rfl | rfl <;> rfl
  | byte a b => exact S _ _ hms
  | text x fg bg tx cx cy => cases tx with
    | nil => exact S _ _ hms
    | cons ch tx =>
      refine S _ _ fun m hm => ?_
      rcases List.mem_append.mp hm with hm | hm
      · revert hm; unfold textWork; split <;> simp <;> (try rintro (rfl | rfl)) <;> rfl
      · exact hms m hm
  | ret r => simp [doMicro]
  | _ => cases hx

/-- Local pieces do the same whatever the coprocessor has written. -/
theorem cpuTicks_over (n : Nat) {s : State} (hl : ∀ m ∈ s.cpu, m.isLocal = true) (d : Device) (c : Coprocessor)
    (m : Memory) (t : List Turn) :
    ∃ m', cpuTicks n (s.over d c m t) = (cpuTicks n s).over d c m' t ∧ (m = s.mem → m' = (cpuTicks n s).mem) := by
  induction n generalizing s m with
  | zero => exact ⟨m, rfl, id⟩
  | succ n ih =>
    have tick : ∃ m', cpuTick (s.over d c m t) = (cpuTick s).over d c m' t ∧ (m = s.mem → m' = (cpuTick s).mem) := by
      rcases hc : s.cpu with _ | ⟨x, ms⟩
      · rw [cpuTick_nil hc, cpuTick_nil (s := s.over d c m t) hc]; exact ⟨m, rfl, id⟩
      · have hx : x.quiet = true := Micro.quiet_of_isLocal (hl x (by simp [hc]))
        rw [cpuTick_cons hc, cpuTick_cons (s := s.over d c m t) hc, doMicro_over hx]
        exact ⟨_, rfl, fun h => by rw [h]; exact (doMicro_quiet hx ms s).2.symm⟩
    obtain ⟨m1, h1, h2⟩ := tick
    obtain ⟨m2, h3, h4⟩ := ih (cpuTick_local hl).1 m1
    exact ⟨m2, by rw [cpuTicks, h1, h3]; rfl, fun h => h4 (h2 h)⟩

theorem alone_over {s : State} (hl : ∀ m ∈ s.cpu, m.isLocal = true) (d : Device) (c : Coprocessor) (m : Memory)
    (t : List Turn) :
    ∃ m', alone (s.over d c m t) = (alone s).over d c m' t ∧ (m = s.mem → m' = (alone s).mem) := by
  have h := cpuTicks_over (max s.fuel (s.over d c m t).fuel) hl d c m t
  rwa [cpuTicks_eq_alone (le_max_left _ _), cpuTicks_eq_alone (le_max_right _ _)] at h

/-- A step of the coprocessor writes queues, PENDING and memory. -/
theorem copStep_frame (e : CopStep) (s : State) :
    copStep e s = s.over (copStep e s).dev (copStep e s).cop (copStep e s).mem s.sched := by
  cases e with
  | consume => simp only [copStep, copConsume]; split <;> rfl
  | answer a ds => simp only [copStep, copAnswer]; split <;> rfl
  | unsolicited w => simp only [copStep, copUnsolicited]; split <;> rfl

/-- Where no request is outstanding, or no answer is scheduled, the coprocessor's step writes no memory and leaves it so. -/
theorem copStep_undisturbed {e : CopStep} {s : State}
    (h : (∀ a ds, e ≠ .answer a ds) ∨ s.dev.out = [] ∧ s.cop.pending = []) :
    (copStep e s).mem = s.mem ∧
      (s.dev.out = [] ∧ s.cop.pending = [] → (copStep e s).dev.out = [] ∧ (copStep e s).cop.pending = []) := by
  cases e with
  | consume =>
    simp only [copStep, copConsume]
    split
    · exact ⟨rfl, id⟩
    · rename_i hq; exact ⟨rfl, fun hq' => by rw [hq] at hq'; simp at hq'⟩
  | answer a ds =>
    rcases h with h | h
    · exact absurd rfl (h a ds)
    · simp [copStep, copAnswer, h.1, h.2]
  | unsolicited w => simp only [copStep, copUnsolicited]; split <;> exact ⟨rfl, id⟩

/-- Work of the builder or of drawing under a schedule that does not pause: it ends as the CPU ends it by itself; queues
and PENDING are what the coprocessor's steps by themselves make of them (R107, R108). -/
theorem drive_local {ts : List Turn} (hp : .pause ∉ ts) {s : State} (hl : ∀ m ∈ s.cpu, m.isLocal = true) :
    ∃ used rest m, ts = used ++ rest ∧
      drive ts s = (alone s).over (copRun used s).dev (copRun used s).cop m rest ∧
      ((∀ a ds, .cop (.answer a ds) ∉ ts) ∨ s.dev.out = [] ∧ s.cop.pending = [] → m = (alone s).mem) := by
  have keep : ∀ u : State, (∀ m ∈ u.cpu, m.isLocal = true) → (alone u).dev = u.dev ∧ (alone u).cop = u.cop :=
    fun u hu => by
      have := alone_induct (P := fun t => (∀ m ∈ t.cpu, m.isLocal = true) ∧ t.dev = u.dev ∧ t.cop = u.cop)
        (fun t ⟨h1, h2, h3⟩ => by
          obtain ⟨k1, k2⟩ := cpuTick_local h1
          exact ⟨k1, k2.trans h2, by simp [h3]⟩) u ⟨hu, rfl, rfl⟩
      exact this.2
  induction ts generalizing s with
  | nil =>
    obtain ⟨h1, h2⟩ := keep s hl
    exact ⟨[], [], (alone s).mem, rfl, by
      rw [drive_nil, alone_withSched]; unfold copRun; rw [← h1, ← h2]; rfl, fun _ => rfl⟩
  | cons t ts ih =>
    have hp' : .pause ∉ ts := fun h => hp (by simp [h])
    by_cases hc : s.cpu = []
    · refine ⟨[], t :: ts, s.mem, rfl, ?_, fun _ => by rw [alone_nil hc]⟩
      rw [drive_over _ hc, alone_nil hc]; rfl
    cases t with
    | pause => simp at hp
    | cpu =>
      obtain ⟨k1, k2⟩ := cpuTick_local hl
      obtain ⟨used, rest, m, e, h, hm⟩ := ih hp' k1
      obtain ⟨c1, c2⟩ := copRun_congr used (s := s) (u := cpuTick s) k2 (by simp) (by simp)
      refine ⟨.cpu :: used, rest, m, by rw [e]; rfl, ?_, fun hu => ?_⟩
      · rw [drive_cpu _ hc, h, alone_cpuTick, c1, c2]; rfl
      · rw [hm (by rw [k2]; simpa using hu), alone_cpuTick]
    | cop e =>
      obtain ⟨used, rest, m, e', h, hm⟩ := ih hp' (s := copStep e s) (by simpa using hl)
      have eo : copStep e s = s.over (copStep e s).dev (copStep e s).cop (copStep e s).mem s.sched := by
        exact copStep_frame e s
      obtain ⟨m', h1, h2⟩ := alone_over hl (copStep e s).dev (copStep e s).cop (copStep e s).mem s.sched
      rw [← eo] at h1
      refine ⟨.cop e :: used, rest, m, by rw [e']; rfl, ?_, fun hu => ?_⟩
      · rw [drive_cop _ _ hc, h, h1, State.over_over]; rfl
      · obtain ⟨g1, g2⟩ := copStep_undisturbed (e := e) (s := s) (hu.imp_left fun h a ds he => h a ds (by simp [he]))
        rw [hm (hu.imp (fun h a ds hd => h a ds (by simp [hd])) g2), h1, ← h2 g1]; rfl

/-! ## Turns one by one (R111, R203) -/

theorem turnStep_cop (e : CopStep) (s : State) : turnStep (.cop e) s = (copStep e s).withSched [] := by
  show (copStep e (s.withSched [.pause])).withSched [] = _
  rw [copStep_withSched]; rfl

theorem turnStep_pause (s : State) : turnStep .pause s = s.withSched [] := rfl

/-- A turn of a CPU that is inside an operation and not stopped. -/
theorem turnStep_cpu {s : State} (hu : s.Unmarked) (hc : s.cpu ≠ []) : turnStep .cpu s = (cpuTick s).withSched [] := by
  have h : step (s.withSched [.cpu, .pause]) = .next (cpuTick (s.withSched [.pause])) := by
    show cpuStep (s.withSched [.pause]) = _
    unfold cpuStep
    rw [State.withSched_fault, State.withSched_refused, hu.1, hu.2]
    exact if_neg (by simpa using hc)
  unfold turnStep
  rw [h, cpuTick_withSched]; rfl

/-- What every turn of an execution keeps holds throughout it. -/
theorem execution_induct {σ : Nat → Turn} {P : State → Prop} {s : State} (h : P s)
    (turn : ∀ n t, P t → P (turnStep (σ n) t)) (n : Nat) : P (execution σ s n) := by
  induction n with
  | zero => exact h
  | succ n ih => exact turn n _ ih

end Sys2Proof.Machine
end

