-- ==== Sys2Proof/Tests/Slice0.lean ====
section
/-! SUPPORT. Tests. The expected values are the spec's: the tables of spec/30_encoding.md, the vectors V1 to V92, L1-1 to
L1-8 and the programs P1 to P5 of spec/95_test_vectors.md. The last part gives, for every obligation with hypotheses, a
concrete state and operands that meet them, one theorem per clause where there are several. -/

namespace Sys2Proof.Tests

open Sys2Proof.Machine

/-! ## Helpers: the configuration of spec/95_test_vectors.md -/

def glyphA : Glyph := #v[0x18, 0x24, 0x42, 0x7E, 0x42, 0x42, 0x42, 0x00]
def glyphB : Glyph := #v[0x7C, 0x42, 0x42, 0x7C, 0x42, 0x42, 0x7C, 0x00]
def blank : Glyph := #v[0, 0, 0, 0, 0, 0, 0, 0]
def fallback : Glyph := #v[0xFF, 0x81, 0x81, 0x81, 0x81, 0x81, 0x81, 0xFF]

/-- The test font: 'A' and 'B', every other glyph blank. -/
def font : Vector Glyph 95 := ((Vector.replicate 95 blank).set 33 glyphA).set 34 glyphB

def cfg : Config.Params where
  mboxBase    := 0x3F00B880#32
  offRead     := 0x00#32
  offStatus   := 0x18#32
  offWrite    := 0x20#32
  fifoDepth   := 8
  msgBufAddr  := 0x00080000#32
  msgCapWords := 36
  font        := font
  fallback    := fallback
  nlReset     := .origin

/-- LAUNCH_CLEAN. -/
def idle : State := State.launch cfg [] [] []

/-- The queues hold these words. -/
def queues (out inq : List Word) : State := { idle with dev := ⟨out, inq⟩ }

/-- Memory in which these words have been written from an address up. -/
def stored (a : Nat) : List Word → Memory
  | [] => ⟨[]⟩
  | v :: vs => (stored (a + 4) vs).writeWord a v

/-- A full `dev.OUT`. -/
def fullOut : State := queues [0x08, 0x18, 0x28, 0x38, 0x48, 0x58, 0x68, 0x78] []

/-- The builder stands so. -/
def building (cursor : Nat) : State := { idle with pm := ⟨.building, cursor⟩ }

/-- A finished message of 12 bytes in the buffer (V39). -/
def finished12 : State :=
  { idle with pm := ⟨.finished, 3⟩, mem := stored 0x00080000 [12, 0, 0] }

/-- A ready driver. -/
def ready (w h p d b z : Word) : State := { idle with fb := ⟨.ready, ⟨w, h, p, d, b, z⟩⟩ }

/-- The framebuffer of P1: 4 by 2, rows of 16 bytes. -/
def small : State := ready 4 2 16 32 0x00100000 32

/-- The framebuffer of part 2.5. -/
def screen : State := ready 1280 720 5120 32 0x02000000 3686400

def colour : Color := ⟨0x11, 0x22, 0x33, 0x44⟩
def white : Color := ⟨0xFF, 0xFF, 0xFF, 0xFF⟩
def black : Color := ⟨0, 0, 0, 0xFF⟩

/-- The coprocessor takes the request that is sent in one step of the CPU, and answers it. -/
def reply (draws : List (Option Word)) : List Turn := [.cpu, .cop .consume, .cop (.answer 0x00080000 draws)]

/-- The same for the request of `initialize`, which takes 40 steps of the CPU to build and send. -/
def initReply (draws : List (Option Word)) : List Turn :=
  List.replicate 40 .cpu ++ [.cop .consume, .cop (.answer 0x00080000 draws)]

/-- The answer of `initialize`: words 1, 24, 25 and 29 (V58 to V62, P1). -/
def initAnswer (code bus size pitch : Word) : List (Option Word) :=
  [some code] ++ List.replicate 22 none ++ [some bus, some size] ++ List.replicate 3 none ++ [some pitch]

/-- The next state. -/
def next (a : Answer) : Option State :=
  match a with
  | .next t => some t
  | .fault _ | .refused _ => none

/-- What one field is after an instruction. -/
def after {α : Type} (i : Instr) (s : State) (f : State → α) : Option α := (next (exec i s)).map f

/-- Bytes of memory from an address up. -/
def bytesAt (a n : Nat) (s : State) : List Byte := (List.range n).map fun k => s.mem.readByte (a + k)

/-- Words of the message buffer. -/
def words (n : Nat) (s : State) : List Word := (List.range n).map s.word

/-! ## Well-formedness: one ill-formed term per check -/

theorem test_wf_write_value_too_wide : (Instr.regWrite (.write 8 0x100)).WellFormed = false := by decide
theorem test_wf_write_value_too_wide_read :
    (Instr.regRead (.write 64 0x10000000000000000)).WellFormed = false := by decide
theorem test_wf_write_value_too_wide_status : (Instr.regStatus (.write 8 0xFFFF)).WellFormed = false := by decide
theorem test_wf_text_holds_nul : (Instr.fbDrawString 0 0 [0x41, 0x00, 0x42] white black).WellFormed = false := by decide
theorem test_wf_plain_word_carries_draws : ∀ k : BitVec 4, k ≠ 8#4 →
    (mailboxInstr k (.toCpu [some 1#32]) 0#28).WellFormed = false := by decide
theorem test_wf_reply_word_may_carry_draws : (Instr.mboxWordCh8 (.toCpu [some 1#32]) 0#28).WellFormed = true := by
  decide

/-! ## Decoding: every row, in bytes written out from the spec's tables -/

/-- R71's selectors, with operands. -/
theorem test_decode_register_access_operations :
    decode cfg ⟨.operation, [0x01]⟩ = .ok .mmioRdStatus ∧
    decode cfg ⟨.operation, [0x02]⟩ = .ok .mmioRdRead ∧
    decode cfg ⟨.operation, [0x03, 0x08, 0x00, 0x08, 0x00]⟩ = .ok (.mmioWrWrite 0x00080008#32) := by decide

theorem test_decode_transport_operations :
    decode cfg ⟨.operation, [0x10, 8, 0, 0, 0, 0x00, 0x00, 0x08, 0x00]⟩ = .ok (.mbSend 8#32 0x00080000#32) ∧
    decode cfg ⟨.operation, [0x11, 1, 0, 0, 0]⟩ = .ok (.mbReceive 1#32) ∧
    decode cfg ⟨.operation, [0x12, 8, 0, 0, 0, 0xF0, 0xFF, 0xFF, 0xFF]⟩ = .ok (.mbCall 8#32 0xFFFFFFF0#32) := by decide

theorem test_decode_codec_operations :
    decode cfg ⟨.operation, [0x20]⟩ = .ok .pmBegin ∧
    decode cfg ⟨.operation, [0x21, 0x02, 0x00, 0x03, 0x00, 8, 0, 0, 0, 1, 3, 0, 0, 0]⟩ =
      .ok (.pmAddTag 0x00030002#32 8#32 [3#32]) ∧
    decode cfg ⟨.operation, [0x22]⟩ = .ok .pmFinish ∧
    decode cfg ⟨.operation, [0x23, 8, 0, 0, 0]⟩ = .ok (.pmCall 8#32) ∧
    decode cfg ⟨.operation, [0x24, 0x80, 0x01]⟩ = .ok (.pmRead 128) := by decide

theorem test_decode_framebuffer_operations :
    decode cfg ⟨.operation, [0x30, 0x60, 0x45, 0x23, 0xC1]⟩ = .ok (.fbBusToCpu 0xC1234560#32) ∧
    decode cfg ⟨.operation, [0x31, 0x00, 5, 0, 0, 0xD0, 2, 0, 0, 32, 0, 0, 0]⟩ = .ok (.fbInit 1280#32 720#32 32#32) ∧
    decode cfg ⟨.operation, [0x32, 2, 1, 0x11, 0x22, 0x33, 0x44]⟩ = .ok (.fbPutPixel 1 (-1) colour) ∧
    decode cfg ⟨.operation, [0x33, 9, 9, 20, 20, 0x11, 0x22, 0x33, 0x44]⟩ = .ok (.fbFillRect (-5) (-5) 10 10 colour) ∧
    decode cfg ⟨.operation, [0x34, 0, 0, 0, 0xFF]⟩ = .ok (.fbClear black) := by decide

theorem test_decode_text_operations :
    decode cfg ⟨.operation, [0x40, 0, 0, 0x41, 0xFF, 0xFF, 0xFF, 0xFF, 0, 0, 0, 0xFF]⟩ =
      .ok (.fbDrawChar 0 0 0x41#8 white black) ∧
    decode cfg ⟨.operation, [0x41, 6, 8, 3, 0x41, 0x0A, 0x42, 0xFF, 0xFF, 0xFF, 0xFF, 0, 0, 0, 0xFF]⟩ =
      .ok (.fbDrawString 3 4 [0x41, 0x0A, 0x42] white black) := by decide

/-- R72's offsets. -/
theorem test_decode_register_offsets :
    decode cfg ⟨.register, [0x00, 0, 0, 0, 0]⟩ = .ok (.regRead (.read 32)) ∧
    decode cfg ⟨.register, [0x18, 0, 0, 0, 2, 8]⟩ = .ok (.regStatus (.read 8)) ∧
    decode cfg ⟨.register, [0x20, 0, 0, 0, 1, 0x08, 0x00, 0x08, 0x00]⟩ =
      .ok (.regWrite (.write 32 0x00080008)) ∧
    decode cfg ⟨.register, [0x20, 0, 0, 0, 3, 64, 0x80, 0x02]⟩ = .ok (.regWrite (.write 64 0x100)) := by decide

/-- The offsets are parameters (R8, R72): with READ moved to 0x40 it is no longer at 0. -/
theorem test_decode_moved_register :
    let p := { cfg with offRead := 0x40#32 }
    decode p ⟨.register, [0x40, 0, 0, 0, 0]⟩ = .ok (.regRead (.read 32)) ∧
    decode p ⟨.register, [0x00, 0, 0, 0, 0]⟩ = .error (.unknownOffset 0x00) := by decide

/-- R59's default map. -/
theorem test_register_addresses :
    cfg.registerAddr .read = 0x3F00B880 ∧ cfg.registerAddr .status = 0x3F00B898 ∧
    cfg.registerAddr .write = 0x3F00B8A0 := by decide

/-- R50, R56: registers past 2^32 and at an address that is not 4-aligned are no parameters. -/
theorem test_wf_register_past_the_space : ¬ { cfg with mboxBase := 0xFFFFFFF0#32 }.Wf :=
  fun h => absurd (h.regInSpace .write) (by decide)
theorem test_wf_register_not_aligned : ¬ { cfg with mboxBase := 0x3F00B881#32 }.Wf :=
  fun h => absurd (h.regAligned .read) (by decide)

/-- R25's bits: FULL is bit 31, EMPTY bit 30. -/
theorem test_decode_status_bits :
    decode cfg ⟨.statusBit, [0, 0, 0, 0x80]⟩ = .ok .statusFull ∧
    decode cfg ⟨.statusBit, [0, 0, 0, 0x40]⟩ = .ok .statusEmpty := by decide

/-- R74, R77: bits 3:0 are the channel, for every channel; the address is bits 31:4. -/
theorem test_decode_mailbox_words :
    decode cfg ⟨.mailboxWord, [0xF0, 0, 0, 0, 0]⟩ = .ok (.mboxWordCh0 .toCop 15#28) ∧
    decode cfg ⟨.mailboxWord, [0x71, 0x56, 0x34, 0x12, 1, 0]⟩ = .ok (.mboxWordCh1 (.toCpu []) 0x1234567#28) ∧
    decode cfg ⟨.mailboxWord, [0x02, 0, 0, 0, 0]⟩ = .ok (.mboxWordCh2 .toCop 0#28) ∧
    decode cfg ⟨.mailboxWord, [0x03, 0, 0, 0, 0]⟩ = .ok (.mboxWordCh3 .toCop 0#28) ∧
    decode cfg ⟨.mailboxWord, [0x04, 0, 0, 0, 0]⟩ = .ok (.mboxWordCh4 .toCop 0#28) ∧
    decode cfg ⟨.mailboxWord, [0x05, 0, 0, 0, 0]⟩ = .ok (.mboxWordCh5 .toCop 0#28) ∧
    decode cfg ⟨.mailboxWord, [0x06, 0, 0, 0, 0]⟩ = .ok (.mboxWordCh6 .toCop 0#28) ∧
    decode cfg ⟨.mailboxWord, [0x07, 0, 0, 0, 0]⟩ = .ok (.mboxWordCh7 .toCop 0#28) := by decide

theorem test_decode_mailbox_words_from_channel_eight :
    decode cfg ⟨.mailboxWord, [0x08, 0x00, 0x08, 0x00, 1, 2, 0, 1, 1, 0, 0, 0]⟩ =
      .ok (.mboxWordCh8 (.toCpu [none, some 1#32]) 0x0008000#28) ∧
    decode cfg ⟨.mailboxWord, [0x09, 0, 0, 0, 0]⟩ = .ok (.mboxWordCh9 .toCop 0#28) ∧
    decode cfg ⟨.mailboxWord, [0x0A, 0, 0, 0, 0]⟩ = .ok (.mboxWordCh10 .toCop 0#28) ∧
    decode cfg ⟨.mailboxWord, [0x0B, 0, 0, 0, 0]⟩ = .ok (.mboxWordCh11 .toCop 0#28) ∧
    decode cfg ⟨.mailboxWord, [0x0C, 0, 0, 0, 0]⟩ = .ok (.mboxWordCh12 .toCop 0#28) ∧
    decode cfg ⟨.mailboxWord, [0x0D, 0, 0, 0, 0]⟩ = .ok (.mboxWordCh13 .toCop 0#28) ∧
    decode cfg ⟨.mailboxWord, [0x0E, 0, 0, 0, 0]⟩ = .ok (.mboxWordCh14 .toCop 0#28) ∧
    decode cfg ⟨.mailboxWord, [0x0F, 0, 0, 0, 0]⟩ = .ok (.mboxWordCh15 .toCop 0#28) := by decide

/-- R82's identifiers. -/
theorem test_decode_tags_without_request :
    decode cfg ⟨.tagBlock, [0, 0, 0, 0]⟩ = .ok .tagEnd ∧
    decode cfg ⟨.tagBlock, [0x01, 0, 0, 0]⟩ = .ok .tagGetFirmwareRevision ∧
    decode cfg ⟨.tagBlock, [0x01, 0, 0x01, 0]⟩ = .ok .tagGetBoardModel ∧
    decode cfg ⟨.tagBlock, [0x02, 0, 0x01, 0]⟩ = .ok .tagGetBoardRevision ∧
    decode cfg ⟨.tagBlock, [0x03, 0, 0x01, 0]⟩ = .ok .tagGetBoardMacAddress ∧
    decode cfg ⟨.tagBlock, [0x04, 0, 0x01, 0]⟩ = .ok .tagGetBoardSerial ∧
    decode cfg ⟨.tagBlock, [0x05, 0, 0x01, 0]⟩ = .ok .tagGetArmMemory ∧
    decode cfg ⟨.tagBlock, [0x06, 0, 0x01, 0]⟩ = .ok .tagGetVcMemory ∧
    decode cfg ⟨.tagBlock, [0x08, 0, 0x04, 0]⟩ = .ok .tagGetPitch := by decide

theorem test_decode_tags_with_request :
    decode cfg ⟨.tagBlock, [0x02, 0, 0x03, 0, 3, 0, 0, 0]⟩ = .ok (.tagGetClockRate 3#32) ∧
    decode cfg ⟨.tagBlock, [0x02, 0x80, 0x03, 0, 3, 0, 0, 0, 0x80, 0xB2, 0xE6, 0x0E, 1, 0, 0, 0]⟩ =
      .ok (.tagSetClockRate 3#32 250000000#32 1#32) ∧
    decode cfg ⟨.tagBlock, [0x01, 0, 0x04, 0, 16, 0, 0, 0]⟩ = .ok (.tagAllocateBuffer 16#32) ∧
    decode cfg ⟨.tagBlock, [0x03, 0x80, 0x04, 0, 0, 5, 0, 0, 0xD0, 2, 0, 0]⟩ = .ok (.tagSetPhysicalSize 1280#32 720#32) ∧
    decode cfg ⟨.tagBlock, [0x04, 0x80, 0x04, 0, 0, 5, 0, 0, 0xD0, 2, 0, 0]⟩ = .ok (.tagSetVirtualSize 1280#32 720#32) ∧
    decode cfg ⟨.tagBlock, [0x05, 0x80, 0x04, 0, 32, 0, 0, 0]⟩ = .ok (.tagSetDepth 32#32) ∧
    decode cfg ⟨.tagBlock, [0x09, 0x80, 0x04, 0, 1, 0, 0, 0, 2, 0, 0, 0]⟩ = .ok (.tagSetVirtualOffset 1#32 2#32) := by decide

/-- R83: bit 31 alone decides. -/
theorem test_decode_response_codes :
    decode cfg ⟨.responseCode, [1, 0, 0, 0x80]⟩ = .ok .respSuccess ∧
    decode cfg ⟨.responseCode, [0, 0, 0, 0x80]⟩ = .ok .respSuccess ∧
    decode cfg ⟨.responseCode, [0xFF, 0xFF, 0xFF, 0x7F]⟩ = .ok .respFailure := by decide

/-- R85: a selector outside R71, an offset outside R72. What is no operand is refused by name as well. -/
theorem test_decode_rejects :
    decode cfg ⟨.operation, [0x04]⟩ = .error (.unknownSelector 0x04) ∧
    decode cfg ⟨.operation, [0x25]⟩ = .error (.unknownSelector 0x25) ∧
    decode cfg ⟨.register, [0x04, 0, 0, 0, 0]⟩ = .error (.unknownOffset 0x04) ∧
    decode cfg ⟨.tagBlock, [0x07, 0, 0x01, 0]⟩ = .error (.unknownTag 0x00010007) ∧
    decode cfg ⟨.operation, [0x11, 8, 0]⟩ = .error .truncated ∧
    decode cfg ⟨.register, [0x18, 0, 0, 0, 6]⟩ = .error .badOperand ∧
    decode cfg ⟨.operation, [0x20, 1]⟩ = .error .trailing := by decide

/-- The numbering of opcode_table.json. -/
theorem test_table_words :
    decodeTableWord 8 0x22 = some .pmFinish ∧
    decodeTableWord 8 0x31 = some (.fbInit 0 0 0) ∧
    decodeTableWord 8 0x18 = some (.regStatus (.read 32)) ∧
    decodeTableWord 32 0x00048005 = some (.tagSetDepth 0) ∧
    decodeTableWord 32 0x40000000 = some .statusEmpty := by decide

/-- The very next step runs what withFetchWord placed: `finish` with no build is refused (V38). -/
theorem test_withFetchWord_runs_first :
    (next (step (State.reset.withFetchWord 8 0x22))).map (fun t => (t.refused, t.pos)) = some (some .pmPhase, 1) := by
  decide

/-! ## Register accesses (V1 to V10) -/

/-- V2. -/
theorem test_rd_status_full : after .mmioRdStatus fullOut (fun t => (t.drawn, t.pos)) = some (1, 1) := by decide
/-- V5. -/
theorem test_rd_read_pops : after .mmioRdRead (queues [] [0x00080008, 0x00000001]) (fun t => (t.results, t.dev.inq)) =
    some ([.word 0x00080008], [0x00000001]) := by decide
/-- V4. -/
theorem test_rd_read_empty : after .mmioRdRead idle (·.refused) = some (some .readEmpty) := by decide
/-- V10: the address part is not checked. -/
theorem test_wr_write_appends : after (.mmioWrWrite 0x00000008) idle (·.dev.out) = some [0x00000008] := by decide
/-- V7, V8, V9. -/
theorem test_wr_write_refusals :
    after (.mmioWrWrite 0x00080009) idle (·.refused) = some (some .channel) ∧
    after (.mmioWrWrite 0x00080007) idle (·.refused) = some (some .channelUnmodelled) ∧
    after (.mmioWrWrite 0x00080008) fullOut (·.refused) = some (some .writeFull) := by decide
/-- R26, R57, R173: a write to READ, a narrow or a wide read, are none of R100 to R102. -/
theorem test_reg_read_other_access :
    after (.regRead (.write 32 0)) (queues [] [8]) (fun t => (t.refused, t.dev.inq)) = some (some .mmioOther, [8]) ∧
    after (.regRead (.read 8)) (queues [] [8]) (fun t => (t.refused, t.dev.inq)) = some (some .mmioOther, [8]) ∧
    after (.regRead (.read 64)) (queues [] [8]) (fun t => (t.refused, t.dev.inq)) = some (some .mmioOther, [8]) := by
  decide
/-- R25: "Writes to STATUS are refused". -/
theorem test_reg_status_write : after (.regStatus (.write 32 0)) idle (·.refused) = some (some .mmioOther) := by decide
/-- R173: a 64-bit write of WRITE whose low word is a channel-8 word is refused for its width. -/
theorem test_reg_write_wide :
    after (.regWrite (.write 64 0x00080008)) idle (fun t => (t.refused, t.dev.out)) = some (some .mmioOther, []) := by
  decide
/-- R27: "A read of WRITE is refused". -/
theorem test_reg_write_read : after (.regWrite (.read 32)) idle (·.refused) = some (some .mmioOther) := by decide

/-! ## Mailbox words -/

/-- A channel-1 word of the coprocessor's arrives (V22's IN). -/
theorem test_word_ch1_arrives : after (.mboxWordCh1 (.toCpu []) 0x1234567) idle (·.dev.inq) = some [0x12345671] := by decide
/-- A channel-15 word arrives too (V23: a word of a channel above 8 in IN). -/
theorem test_word_ch15_arrives : after (.mboxWordCh15 (.toCpu []) 0) idle (·.dev.inq) = some [0x0000000F] := by decide
/-- A channel-9 word is refused on the send side. -/
theorem test_word_ch9_refused : after (.mboxWordCh9 .toCop 0) idle (·.refused) = some (some .channel) := by decide
/-- V29: words 1..6 may change, word 0 stays 28, IN gains 0x00080008. -/
theorem test_word_ch8_answers :
    after (.mboxWordCh8 (.toCpu (List.replicate 9 (some 5))) 0x8000)
      { idle with cop := ⟨[⟨8, 0x00080000⟩]⟩, mem := stored 0x00080000 [28, 0, 0, 0, 0, 0, 0, 9] }
      (fun t => (words 8 t, t.dev.inq, t.cop.pending)) =
    some ([28, 5, 5, 5, 5, 5, 5, 9], [0x00080008], []) := by decide

/-! ## Transport (V11 to V28) -/

/-- V13. -/
theorem test_send_top_address : after (.mbSend 8 0xFFFFFFF0) idle (·.dev.out) = some [0xFFFFFFF8] := by decide
/-- V14, V17: the channel is checked before the alignment. -/
theorem test_send_checks :
    after (.mbSend 9 0x4) idle (fun t => (t.fault, t.refused)) = some (none, some .channel) ∧
    after (.mbSend 8 0x00080004) idle (fun t => (t.fault, t.refused)) =
      some (some (.misalignedMboxAddr 0x00080004), none) := by decide
/-- V23. -/
theorem test_receive_discards : after (.mbReceive 8) (queues [] [0x0000000F, 0x00000003, 0x00080008])
    (fun t => (t.results, t.dev.inq)) = some ([.word 0x00080000], []) := by decide
/-- V26: discards the unsolicited word, then waits. -/
theorem test_receive_hangs_after_noise :
    after (.mbReceive 8) { idle with sched := [.cop (.unsolicited 0x00000021)] } (fun t => (t.cpu, t.dev.inq, t.pos)) =
    some ([.pollEmpty 8 .result], [], 0) := by decide
/-- V27. -/
theorem test_call_success : after (.mbCall 8 0x00080000) { finished12 with sched := reply [some 0xFFFFFFFF] }
    (fun t => (t.results, t.dev)) = some ([.flag true], ⟨[], []⟩) := by decide
theorem test_call_failure : after (.mbCall 8 0x00080000) { finished12 with sched := reply [some 0x7FFFFFFF] }
    (fun t => (t.results, t.dev)) = some ([.flag false], ⟨[], []⟩) := by decide

/-! ## Codec (V30 to V51) -/

/-- V30. -/
theorem test_begin : after .pmBegin finished12 (fun t => (t.pm, t.word 1)) = some (⟨.building, 2⟩, 0) := by decide
/-- V31: 6 bytes take two value words. -/
theorem test_add_tag_rounds_up : after (.pmAddTag 0x00010003 6 []) (building 2)
    (fun t => ((words 7 t).drop 2, t.results, t.pm.cursor)) = some ([0x00010003, 6, 0, 0, 0], [.offset 5], 7) := by decide
/-- V42: nothing of the block is written. -/
theorem test_add_tag_overflow : after (.pmAddTag 0x00001234 132 []) (building 2) (fun t => (t.fault, t.mem)) =
    some (some (.msgOverflow 2 36), ⟨[]⟩) := by decide
/-- V44. -/
theorem test_finish_last_word : after .pmFinish (building 35) (fun t => (t.word 35, t.word 0, t.pm)) =
    some (0, 144, ⟨.finished, 36⟩) := by decide
/-- V43. -/
theorem test_finish_overflow : after .pmFinish (building 36) (fun t => (t.fault, t.mem)) =
    some (some (.msgOverflow 36 1), ⟨[]⟩) := by decide
/-- V48. -/
theorem test_pm_call_channel : after (.pmCall 7) finished12 (fun t => (t.refused, t.pm.phase)) =
    some (some .channelUnmodelled, .finished) := by decide
/-- P2, step 3: an unsolicited word between the request and its answer is discarded. -/
theorem test_pm_call_with_noise :
    after (.pmCall 8) { finished12 with sched :=
        [.cpu, .cop .consume, .cop (.unsolicited 0x00000021), .cop (.answer 0x00080000 [some 0x80000000])] }
      (fun t => (t.results, t.pm, words 3 t, t.dev)) =
    some ([.flag true], ⟨.idle, 3⟩, [12, 0x80000000, 0], ⟨[], []⟩) := by decide
/-- V49, V50. -/
theorem test_pm_read_bounds :
    after (.pmRead 36) idle (·.refused) = some (some .pmIndex) ∧
    after (.pmRead 2) finished12 (·.results) = some [.word 0] := by decide
/-- V33 through its tag row. -/
theorem test_tag_set_clock_rate : after (.tagSetClockRate 3 250000000 0) (building 2)
    (fun t => ((words 8 t).drop 2, t.results, t.pm.cursor)) =
    some ([0x00038002, 12, 0, 3, 0x0EE6B280, 0], [.offset 5], 8) := by decide
/-- R82: the two-word tags whose request has one word. -/
theorem test_tag_allocate_buffer : after (.tagAllocateBuffer 16) (building 2) (fun t => (words 7 t).drop 2) =
    some [0x00040001, 8, 0, 16, 0] := by decide
/-- R83. -/
theorem test_resp_rows :
    after .respSuccess finished12 (·.results) = some [.flag false] ∧
    after .respFailure finished12 (·.results) = some [.flag true] := by decide

/-- R80: every row's value buffer holds its request and its response payload. -/
theorem test_tag_rows_hold_their_payloads :
    ∀ row ∈ [Config.tagGetFirmwareRevision, Config.tagGetBoardModel, Config.tagGetBoardRevision,
             Config.tagGetBoardMacAddress, Config.tagGetBoardSerial, Config.tagGetArmMemory, Config.tagGetVcMemory,
             Config.tagGetClockRate, Config.tagSetClockRate, Config.tagAllocateBuffer, Config.tagGetPitch,
             Config.tagSetPhysicalSize, Config.tagSetVirtualSize, Config.tagSetDepth, Config.tagSetVirtualOffset],
      (row.request.map Config.Field.byteCount).sum ≤ row.vbuf.toNat ∧
      (row.response.map Config.Field.byteCount).sum ≤ row.vbuf.toNat := by decide
/-- R82: 6 bytes of a MAC address; the serial's low word first. -/
theorem test_tag_responses :
    let s := { idle with mem := stored 0x00080014 [0x33221100, 0x00005544] }
    s.response Config.tagGetBoardMacAddress 5 = some [(.macAddress, .bytes [0x00, 0x11, 0x22, 0x33, 0x44, 0x55])] ∧
    s.response Config.tagGetBoardSerial 5 = some [(.serial, .wide 0x0000554433221100)] ∧
    s.response Config.tagGetClockRate 5 = some [(.clockId, .word 0x33221100), (.rate, .word 0x5544)] := by decide

/-! ## Framebuffer (V52 to V80, P1) -/

/-- V52. -/
theorem test_bus_to_cpu : after (.fbBusToCpu 0xC1234560) idle (·.results) = some [.word 0x01234560] := by decide
set_option maxRecDepth 8000 in
/-- P1: the end of FB_INIT. -/
theorem test_init_ready :
    after (.fbInit 4 2 32) { idle with sched := initReply (initAnswer 0x80000000 0xC0100000 32 16) }
      (fun t => (t.results, t.fb, t.pm, t.dev)) =
    some ([.flag true], ⟨.ready, ⟨4, 2, 16, 32, 0x00100000, 32⟩⟩, ⟨.idle, 31⟩, ⟨[], []⟩) := by decide
set_option maxRecDepth 8000 in
/-- V60, V61: a zero bus address fails, an address that the mask makes 0 does not. -/
theorem test_init_zero_address :
    after (.fbInit 1280 720 32) { idle with sched := initReply (initAnswer 0x80000000 0 0 0) }
      (fun t => (t.results, t.fb.state)) = some ([.flag false], .uninit) ∧
    after (.fbInit 1280 720 32) { idle with sched := initReply (initAnswer 0x80000000 0xC0000000 4096 64) }
      (fun t => (t.results, t.fb.desc.buffer)) = some ([.flag true], 0) := by decide
set_option maxRecDepth 8000 in
/-- R107 between the read-backs of R141: a second answer lands after the bus address is read; size and pitch are its. -/
theorem test_init_answer_between_read_backs :
    after (.fbInit 4 2 32)
      { idle with
        cop := ⟨[⟨8, 0x00080000⟩]⟩
        sched := initReply (initAnswer 0x80000000 0xC0100000 32 16) ++ [.cpu, .cpu, .cpu,
          .cop (.answer 0x00080000 (initAnswer 0x80000000 0xC0200000 64 8))] }
      (fun t => (t.results, t.fb)) = some ([.flag true], ⟨.ready, ⟨4, 2, 8, 32, 0x00100000, 64⟩⟩) := by decide
/-- R107 between the pixels of R144: the answer arrives with one pixel drawn and the other still to draw (R22). -/
theorem test_fill_rect_answer_between_pixels :
    after (.fbFillRect 0 0 2 1 colour)
      { small with
        cop := ⟨[⟨8, 0x00080000⟩]⟩
        sched := List.replicate 5 .cpu ++ [.cop (.answer 0x00080000 []), .pause] }
      (fun t => (t.cpu, t.dev.inq, t.mem.cells.length, t.pos)) =
    some ([.pixels [⟨1, 0, colour⟩], .ret .none], [0x00080008], 4, 0) := by decide
/-- P1, step 2: V66's byte order. -/
theorem test_put_pixel_bytes : after (.fbPutPixel 1 1 colour) small (bytesAt 0x00100014 4) =
    some [0x33, 0x22, 0x11, 0x44] := by decide
/-- V69, V71. -/
theorem test_put_pixel_region :
    after (.fbPutPixel 1279 719 colour) screen (fun t => (t.fault, bytesAt 0x02383FFC 4 t)) =
      some (none, [0x33, 0x22, 0x11, 0x44]) ∧
    after (.fbPutPixel 1279 719 colour) (ready 1280 720 5120 32 0x02000000 3686396) (fun t => (t.fault, t.mem)) =
      some (some (.fbOutOfRegion 1279 719 3686396), ⟨[]⟩) := by decide
/-- V74: clipped to two pixels. -/
theorem test_fill_rect_clips : after (.fbFillRect 1278 719 10 10 colour) screen
    (fun t => (t.mem.cells.length, t.pixel 1278 719, t.pixel 1279 719)) = some (8, colour, colour) := by decide
/-- V80: a fault after three pixels, which stay written. -/
theorem test_fill_rect_faults_midway : after (.fbFillRect 0 0 2 2 colour) (ready 2 2 8 32 0x00100000 12)
    (fun t => (t.fault, t.mem.cells.length)) = some (some (.fbOutOfRegion 1 1 12), 12) := by decide
/-- V78: row padding is not written. -/
theorem test_clear_skips_padding : after (.fbClear colour) (ready 2 2 12 32 0x00100000 24)
    (fun t => t.mem.cells.map (·.1 - 0x00100000)) =
    some [0, 1, 2, 3, 4, 5, 6, 7, 12, 13, 14, 15, 16, 17, 18, 19] := by decide

/-! ## Text (V81 to V92) -/

/-- V81, V82. -/
theorem test_glyph_range :
    [31, 127, 0x0A, 255].map (glyphOf cfg) = List.replicate 4 fallback ∧
    glyphOf cfg 32 = font[0] ∧ glyphOf cfg 126 = font[94] := by decide
set_option maxRecDepth 8000 in
/-- V83: row 0 of 'A' has columns 3 and 4 in the foreground. -/
theorem test_draw_char_row : after (.fbDrawChar 0 0 0x41 white black) (ready 8 1 32 32 0x00100000 32)
    (fun t => (List.range 8).map fun i => t.pixel i 0) =
    some [black, black, black, white, white, black, black, black] := by decide
set_option maxRecDepth 8000 in
/-- V87: the character after a newline is 10 rows down, at the origin's column; here 'B' is painted at (0, 10). -/
theorem test_draw_string_newline : after (.fbDrawString 0 0 [0x0A, 0x42] white black) (ready 8 11 32 32 0x00100000 352)
    (fun t => (t.mem.cells.length, (List.range 8).map fun i => t.pixel i 10)) =
    some (32, [black, white, white, white, white, white, black, black]) := by decide
/-- V90. -/
theorem test_draw_string_nul : after (.fbDrawString 0 0 [0x41, 0x00, 0x42] white black) small
    (fun t => (t.refused, t.mem)) = some (some .textNul, ⟨[]⟩) := by decide

/-! ## The machine -/

/-- R57, R173: a raw access at 0x04 is none of R100 to R102. -/
theorem test_unknown_offset_refused :
    (next (step { idle with ops := [⟨.register, [0x04, 0, 0, 0, 0]⟩] })).map (·.refused) = some (some .mmioOther) := by
  decide
/-- P5: after the fault the second operation does not run. -/
theorem test_fault_stops_the_run :
    step { idle with ops := [encode cfg (.mbSend 8 0x00080000)], fault := some (.misalignedMboxAddr 0x00080004) } =
    .fault (.misalignedMboxAddr 0x00080004) := rfl

/-! ## Witnesses: the hypotheses of every obligation that has some are met together -/

/-- The configuration meets R8's constraints. -/
theorem witness_cfg : cfg.Wf where
  fifo := by decide
  capacity := by decide
  aligned := by decide
  inSpace := by decide
  apart r := by cases r <;> decide
  regAligned r := by cases r <;> decide
  regInSpace r := by cases r <;> decide
  regApart := by decide

theorem witness_ReadRegisterPopsInQueue_word : (queues [] [0x00080008, 1]).dev.inq = 0x00080008 :: [1] := by decide
theorem witness_ReadRegisterPopsInQueue_empty :
    idle.dev.inq = [] ∧ idle.fault = none ∧ idle.refused = none := by decide

/-- One place is left in `dev.OUT`. -/
theorem witness_WriteRegisterAppendsToOut :
    let s := queues [8, 8, 8, 8, 8, 8, 8] []
    (0xFFFFFFF8 : Word) &&& 0xF#32 = 8#32 ∧ s.dev.out.length ≠ s.cfg.fifoDepth := by decide

theorem witness_WriteRegisterRefusals_above :
    let v : Word := 0x00080009
    idle.fault = none ∧ idle.refused = none ∧ (v &&& 0xF#32).toNat > 8 := by decide
theorem witness_WriteRegisterRefusals_below :
    let v : Word := 0x00080007
    idle.fault = none ∧ idle.refused = none ∧ ¬ (v &&& 0xF#32).toNat > 8 ∧ v &&& 0xF#32 ≠ 8#32 := by decide
theorem witness_WriteRegisterRefusals_full :
    let v : Word := 0x00080008
    fullOut.fault = none ∧ fullOut.refused = none ∧ ¬ (v &&& 0xF#32).toNat > 8 ∧ ¬ v &&& 0xF#32 ≠ 8#32 ∧
    fullOut.dev.out.length = fullOut.cfg.fifoDepth := by decide

theorem witness_OtherRawAccessRefused_read : idle.fault = none ∧ idle.refused = none ∧
    RawAccess.read 64 ≠ .read 32 ∧ RawAccess.write 32 0 ≠ .read 32 := by decide
theorem witness_OtherRawAccessRefused_write : idle.fault = none ∧ idle.refused = none ∧
    (∀ v, RawAccess.read 32 ≠ .write 32 v) ∧ ∀ v, RawAccess.write 8 0xFF ≠ .write 32 v := by
  simp [idle, State.launch]

theorem witness_MailboxWordSplitsAsAssembled :
    (0xFFFFFFF0 : Word) &&& 0xF#32 = 0#32 ∧ (15#32 : Word).toNat ≤ 15 := by decide

/-- A request of 28 bytes is pending (V29). -/
def pending28 : State :=
  { idle with cop := ⟨[⟨8, 0x00080000⟩]⟩, mem := stored 0x00080000 [28, 0, 0, 0, 0, 0, 0] }

/-- No place is left in `dev.IN`. -/
def fullIn : State := queues [] [1, 1, 1, 1, 1, 1, 1, 1]

theorem witness_AnswerRewritesOnlyTheMessage :
    (⟨8#32, 0x00080000⟩ : Request) ∈ pending28.cop.pending ∧ pending28.dev.inq.length < pending28.cfg.fifoDepth ∧
    ((pending28.mem.readWord 0x00080000).toNat + 3) / 4 = 7 ∧ 0x00080000 + 4 * 6 + 4 ≤ 2 ^ 32 := by decide
theorem witness_ReplyWordAnswersItsRequest_pending :
    (⟨8#32, 0x0008000#28 ++ 0#4⟩ : Request) ∈ pending28.cop.pending ∧
    pending28.dev.inq.length < pending28.cfg.fifoDepth := by decide
theorem witness_ReplyWordAnswersItsRequest_none :
    (⟨8#32, 0x0008001#28 ++ 0#4⟩ : Request) ∉ pending28.cop.pending ∧
    fullIn.cfg.fifoDepth ≤ fullIn.dev.inq.length := by decide

theorem witness_ConsumeMovesHeadToPending_word : (queues [0x00080008] []).dev.out = 0x00080008 :: [] := by decide
theorem witness_ConsumeMovesHeadToPending_empty : idle.dev.out = [] := by decide
/-- A channel-8 word that arrives was pending: the premise of the inner clause. -/
theorem witness_CoprocessorKeepsToItsSide :
    (copStep (.answer 0x00080000 []) pending28).dev.inq = pending28.dev.inq ++ [0x00080008] ∧
    (0x00080008 : Word) &&& 0xF#32 = 8#32 := by decide
theorem witness_CoprocessorKeepsToItsSide_no_step :
    (⟨8#32, 0x00080010⟩ : Request) ∉ pending28.cop.pending ∧ fullIn.cfg.fifoDepth ≤ fullIn.dev.inq.length ∧
    (0x00000018 : Word) &&& 0xF#32 = 8#32 := by decide

theorem witness_SendWritesAssembledWord_idle :
    (0xFFFFFFF0 : Word) &&& 0xF#32 = 0#32 ∧ idle.dev.out.length ≠ idle.cfg.fifoDepth ∧ idle.sched = [] := by decide
theorem witness_SendWritesAssembledWord_scheduled :
    let s := { idle with sched := [.cpu, .cop .consume] }
    (0#32 : Word) &&& 0xF#32 = 0#32 ∧ s.dev.out.length ≠ s.cfg.fifoDepth ∧ s.sched = .cpu :: [.cop .consume] := by decide
theorem witness_SendWritesAssembledWord_full :
    let s := { fullOut with sched := [.cpu, .cop .consume] }
    (0x00080000 : Word) &&& 0xF#32 = 0#32 ∧ s.dev.out = 0x08 :: [0x18, 0x28, 0x38, 0x48, 0x58, 0x68, 0x78] ∧
    s.dev.out.length = s.cfg.fifoDepth ∧ s.sched = [.cpu, .cop .consume] := by decide
/-- An execution in which the CPU is fair and the coprocessor takes no step. -/
theorem witness_fair : FairCpu (fun _ => .cpu) := fun n => ⟨n, Nat.le_refl n, rfl⟩
theorem witness_SendHangsWhileFull :
    (0x00080000 : Word) &&& 0xF#32 = 0#32 ∧ fullOut.dev.out.length = fullOut.cfg.fifoDepth ∧ fullOut.Unmarked ∧
    fullOut.sched = [] := by decide
theorem witness_SendHangsWhileFull_execution :
    FairCpu (fun _ => .cpu) ∧ ∀ n : Nat, (fun _ => Turn.cpu) n ≠ .cop .consume := ⟨witness_fair, fun _ => nofun⟩

/-- The clauses of `send`, `call` and the property `call` at channels 9, 7 and 8, and that of `receive` at 9. -/
theorem witness_TransportChecksInOrder :
    idle.fault = none ∧ idle.refused = none ∧ (9#32 : Word).toNat > 8 ∧ (7#32 : Word).toNat < 8 ∧
    (8#32 : Word).toNat = 8 ∧ (0x00080001 : Word) &&& 0xF#32 ≠ 0#32 := by decide
theorem witness_TransportChecksInOrder_property :
    finished12.fault = none ∧ finished12.refused = none ∧ finished12.pm.phase = .finished ∧
    (0x00080000 : Word) = finished12.cfg.msgBufAddr := by decide
/-- A message buffer that is not aligned meets the last clause (no parameters of R8's do). -/
theorem witness_TransportChecksInOrder_misaligned :
    let s := { finished12 with cfg := { cfg with msgBufAddr := 0x00080004#32 } }
    s.pm.phase = .finished ∧ (8#32 : Word).toNat = 8 ∧ s.cfg.msgBufAddr &&& 0xF#32 ≠ 0#32 := by decide

theorem witness_ReceiveReturnsFirstMatch :
    let s := queues [] [0x0000000F, 0x00000003, 0x00080008, 1]
    (8#32 : Word).toNat ≤ 8 ∧ s.sched = [] ∧ s.dev.inq = [0x0000000F, 0x00000003] ++ 0x00080008 :: [1] ∧
    (∀ v ∈ [0x0000000F, (0x00000003 : Word)], v &&& 0xF#32 ≠ 8#32) ∧ (0x00080008 : Word) &&& 0xF#32 = 8#32 := by
  simp [queues, idle, State.launch]
theorem witness_ReceiveHangsWithoutMatch :
    let s := queues [] [0x0000000F]
    (8#32 : Word).toNat ≤ 8 ∧ s.sched = [] ∧ (∀ v ∈ s.dev.inq, v &&& 0xF#32 ≠ 8#32) ∧ s.Unmarked ∧
    ∀ r ∈ s.cop.pending, r.addr &&& 0xF#32 = 0#32 :=
  ⟨by decide, rfl, by simp [queues], ⟨rfl, rfl⟩, nofun⟩
/-- A coprocessor that puts a word of channel 1 on `dev.IN` for ever, between steps of a fair CPU. -/
theorem witness_ReceiveHangsWithoutMatch_execution :
    let σ : Nat → Turn := fun n => if n % 2 = 0 then .cpu else .cop (.unsolicited 0x00000021)
    FairCpu σ ∧ (∀ n w, σ n = .cop (.unsolicited w) → w &&& 0xF#32 ≠ 8#32) ∧ ∀ n a draws, σ n ≠ .cop (.answer a draws) := by
  refine ⟨fun n => ⟨2 * n, by omega, if_pos (by omega)⟩, fun n w h => ?_, fun n a draws h => ?_⟩ <;>
    dsimp only at h <;> split at h
  · nomatch h
  · cases h; decide
  · nomatch h
  · nomatch h
theorem witness_ReceiveUnderEverySchedule : (0#32 : Word).toNat ≤ 8 ∧ (8#32 : Word).toNat ≤ 8 := by decide

theorem witness_CallReturnsBit31OfTheReply :
    let s := { finished12 with sched := reply [some 0x80000001] }
    (0x00080000 : Word) &&& 0xF#32 = 0#32 ∧ 1 ≤ s.cfg.fifoDepth ∧ s.dev = ⟨[], []⟩ ∧ s.cop.pending = [] ∧
    4 < (s.mem.readWord (0x00080000 : Word).toNat).toNat ∧
    s.sched = [.cpu, .cop .consume, .cop (.answer 0x00080000 (some 0x80000001 :: []))] := by decide
theorem witness_CallUnderEverySchedule : (0xFFFFFFF0 : Word) &&& 0xF#32 = 0#32 := by decide

/-- The reply comes at the 4th, 8th, … turn, if a request is pending; a consume step at the 2nd, 6th, …; the CPU has the
others: a fair schedule of a coprocessor that serves. -/
def serving : Nat → Turn := fun n =>
  if n % 4 = 1 then .cop .consume else if n % 4 = 3 then .cop (.answer 0x00080000 [some 0x80000000]) else .cpu

theorem witness_CallReturnsWhenServed_state :
    (0x00080000 : Word) &&& 0xF#32 = 0#32 ∧ 1 ≤ finished12.cfg.fifoDepth ∧ finished12.Unmarked := by decide
theorem witness_CallReturnsWhenServed_schedule :
    FairCpu serving ∧ ∀ s, CoprocFiniteNoise serving s := by
  refine ⟨fun n => ⟨4 * n, by omega, ?_⟩, fun s => ⟨0, fun m _ w h => ?_⟩⟩
  · simp only [serving]; rw [if_neg (by omega), if_neg (by omega)]
  · revert h; simp only [serving]; split
    · nofun
    · split <;> nofun

theorem witness_BeginStartsMessage : idle.cfg.Wf ∧ idle.sched = [] := ⟨witness_cfg, rfl⟩

/-- The block ends at the buffer's last word (V43). -/
theorem witness_AddTagWritesBlock :
    let s := building 2
    let g : TagRequest := ⟨0x00001234, 124, [1, 2]⟩
    s.cfg.Wf ∧ s.sched = [] ∧ s.pm.phase = .building ∧ g.Admitted ∧
    s.pm.cursor + 3 + g.valueCount = s.cfg.msgCapWords := ⟨witness_cfg, by decide⟩
/-- A block of four words and one of six end at the buffer's last word. -/
theorem witness_TagRowsWriteTheirBlocks :
    idle.cfg.Wf ∧ (building 32).sched = [] ∧ (building 32).pm.phase = .building ∧
    (building 32).pm.cursor + 3 + [(0 : Word)].length = (building 32).cfg.msgCapWords ∧
    (building 30).pm.cursor + 3 + [(1 : Word), 2, 3].length = (building 30).cfg.msgCapWords :=
  ⟨witness_cfg, by decide⟩
theorem witness_AddTagChecksInOrder_phase : idle.fault = none ∧ idle.refused = none ∧ idle.pm.phase ≠ .building := by
  decide
theorem witness_AddTagChecksInOrder_zero :
    let g : TagRequest := ⟨0, 4, []⟩
    (building 2).fault = none ∧ (building 2).refused = none ∧ (building 2).pm.phase = .building ∧ g.id = 0#32 := by decide
theorem witness_AddTagChecksInOrder_request :
    let g : TagRequest := ⟨0x00010002, 4, [1, 2]⟩
    (building 2).fault = none ∧ (building 2).refused = none ∧ (building 2).pm.phase = .building ∧ g.id ≠ 0#32 ∧
    g.valueCount < g.req.length := by decide
/-- One word more than V43's block. -/
theorem witness_AddTagChecksInOrder_overflow :
    let g : TagRequest := ⟨0x00001234, 125, []⟩
    (building 2).fault = none ∧ (building 2).refused = none ∧ (building 2).pm.phase = .building ∧ g.Admitted ∧
    (building 2).cfg.msgCapWords < (building 2).pm.cursor + 3 + g.valueCount := by decide

/-- The END word is the buffer's last (V44). -/
theorem witness_FinishWritesEndAndSize :
    let s := building 35
    s.cfg.Wf ∧ s.sched = [] ∧ s.pm.phase = .building ∧ 1 ≤ s.pm.cursor ∧ s.pm.cursor + 1 = s.cfg.msgCapWords :=
  ⟨witness_cfg, by decide⟩
theorem witness_CodecStopsOutOfOrder_phase :
    finished12.fault = none ∧ finished12.refused = none ∧ finished12.pm.phase ≠ .building := by decide
theorem witness_CodecStopsOutOfOrder_overflow :
    let s := building 36
    s.fault = none ∧ s.refused = none ∧ s.pm.phase = .building ∧ s.cfg.msgCapWords < s.pm.cursor + 1 := by decide
/-- The smallest block of the table, with room for one word less. -/
theorem witness_CodecStopsOutOfOrder_row :
    let s := building 33
    s.fault = none ∧ s.refused = none ∧ s.pm.phase = .building ∧ s.cfg.msgCapWords + 1 = s.pm.cursor + 3 + 1 := by decide
theorem witness_CodecStopsOutOfOrder_call :
    (building 2).fault = none ∧ (building 2).refused = none ∧ (building 2).pm.phase ≠ .finished := by decide
theorem witness_CodecStopsOutOfOrder_read : idle.fault = none ∧ idle.refused = none ∧ idle.cfg.msgCapWords ≤ 36 := by
  decide
theorem witness_ReadBackReturnsTheWord : 35 < idle.cfg.msgCapWords := by decide
theorem witness_PropertyCallConsumesTheMessage :
    let s := { finished12 with sched := reply [some 0x80000000] }
    s.cfg.Wf ∧ s.pm.phase = .finished ∧ s.dev = ⟨[], []⟩ ∧ s.cop.pending = [] ∧
    4 < (s.mem.readWord s.cfg.msgBufAddr.toNat).toNat ∧
    s.sched = [.cpu, .cop .consume, .cop (.answer s.cfg.msgBufAddr (some 0x80000000 :: []))] :=
  ⟨witness_cfg, by decide⟩
/-- Two tags, one of them with two zero-filled words; then a message that fills the buffer. -/
theorem witness_EncodedMessageDecodesToItsTags :
    let gs : List TagRequest := [⟨0x00010002, 4, []⟩, ⟨0x00010003, 6, []⟩]
    idle.cfg.Wf ∧ idle.sched = [] ∧ idle.Unmarked ∧ (∀ g ∈ gs, g.Admitted) ∧ messageWords gs ≤ idle.cfg.msgCapWords :=
  ⟨witness_cfg, by decide⟩
theorem witness_EncodedMessageDecodesToItsTags_full :
    let gs : List TagRequest := [⟨0x00001234, 120, []⟩]
    idle.cfg.Wf ∧ idle.sched = [] ∧ idle.Unmarked ∧ (∀ g ∈ gs, g.Admitted) ∧ messageWords gs = idle.cfg.msgCapWords :=
  ⟨witness_cfg, by decide⟩

theorem witness_InitializeMessageWordByWord :
    idle.cfg.Wf ∧ idle.fb.state = .uninit ∧ idle.pm.phase ≠ .building ∧
    idle.dev.out.length ≠ idle.cfg.fifoDepth ∧ idle.dev.inq = [] ∧ idle.sched = [] := ⟨witness_cfg, by decide⟩
/-- The answer of V58: with it `initialize` returns true. With V60's bus address 0 it returns false. -/
theorem witness_InitializeFollowsTheReply_true :
    let ds := initAnswer 0x80000000 0xC2000000 3686400 5120
    let s := { idle with sched := initReply ds }
    s.cfg.Wf ∧ s.fb.state = .uninit ∧ s.pm.phase ≠ .building ∧ s.dev = ⟨[], []⟩ ∧ s.cop.pending = [] ∧ 40 ≤ 40 ∧
    s.sched = List.replicate 40 .cpu ++ [.cop .consume, .cop (.answer s.cfg.msgBufAddr ds)] ∧
    ds[0]? = some (some 0x80000000) ∧ ds[23]? = some (some 0xC2000000#32) ∧
    ds[24]? = some (some 3686400#32) ∧ ds[28]? = some (some 5120#32) :=
  ⟨witness_cfg, rfl, nofun, rfl, rfl, by decide, rfl, rfl, rfl, rfl, rfl⟩
theorem witness_InitializeFollowsTheReply_false :
    let ds := initAnswer 0x80000000 0 0 0
    let s := { idle with sched := initReply ds }
    s.cfg.Wf ∧ s.fb.state = .uninit ∧ s.pm.phase ≠ .building ∧ s.dev = ⟨[], []⟩ ∧ s.cop.pending = [] ∧ 40 ≤ 40 ∧
    s.sched = List.replicate 40 .cpu ++ [.cop .consume, .cop (.answer s.cfg.msgBufAddr ds)] ∧
    ds[0]? = some (some 0x80000000) ∧ ds[23]? = some (some 0) ∧ ds[24]? = some (some 0) ∧ ds[28]? = some (some 0) :=
  ⟨witness_cfg, rfl, nofun, rfl, rfl, by decide, rfl, rfl, rfl, rfl, rfl⟩
/-- The answer of R147 (V58). -/
theorem witness_InitializeEndToEndCase :
    let ds := initAnswer 0x80000000 0xC2000000 3686400 5120
    let s := { idle with sched := initReply ds }
    s.cfg.Wf ∧ s.fb.state = .uninit ∧ s.pm.phase ≠ .building ∧ 40 ≤ 40 ∧ s.dev = ⟨[], []⟩ ∧ s.cop.pending = [] ∧
    (0x80000000 : Word).getLsbD 31 = true ∧
    s.sched = List.replicate 40 .cpu ++ [.cop .consume, .cop (.answer s.cfg.msgBufAddr ds)] ∧
    ds[0]? = some (some 0x80000000) ∧ ds[23]? = some (some 0xC2000000#32) ∧ ds[24]? = some (some 3686400#32) ∧
    ds[28]? = some (some 5120#32) :=
  ⟨witness_cfg, rfl, nofun, by decide, rfl, rfl, rfl, rfl, rfl, rfl, rfl, rfl⟩
theorem witness_InitializeUnderEverySchedule :
    idle.cfg.Wf ∧ idle.fb.state = .uninit ∧ idle.pm.phase ≠ .building ∧
    idle.dev.out = [] ∧ idle.cop.pending = [] ∧ ∀ v ∈ idle.dev.inq, v &&& 0xF#32 ≠ 8#32 :=
  ⟨witness_cfg, rfl, nofun, rfl, rfl, by simp [idle, State.launch]⟩

/-- The last pixel of the screen: its bytes end the region (V69). -/
theorem witness_PutPixelWritesBGRA :
    screen.Drawable ∧ screen.sched = [] ∧ 1279 < screen.fb.desc.width.toNat ∧ 719 < screen.fb.desc.height.toNat ∧
    719 * screen.fb.desc.pitch.toNat + 4 * 1279 + 4 = screen.fb.desc.size.toNat ∧
    screen.fb.desc.buffer.toNat + (719 * screen.fb.desc.pitch.toNat + 4 * 1279) + 4 ≤ 2 ^ 32 := by decide
theorem witness_PutPixelOutOfBoundsOrRegion_bounds :
    screen.Drawable ∧ screen.sched = [] ∧ (-1 : Int) < 0 ∧ (screen.fb.desc.width.toNat : Int) ≤ 1280 ∧
    (screen.fb.desc.height.toNat : Int) ≤ 720 := by decide
/-- The same pixel with a region one pixel smaller (V71). -/
theorem witness_PutPixelOutOfBoundsOrRegion_region :
    let s := ready 1280 720 5120 32 0x02000000 3686396
    s.Drawable ∧ s.sched = [] ∧ s.fault = none ∧ s.refused = none ∧ (1279 : Int) < (s.fb.desc.width.toNat : Int) ∧
    (719 : Int) < (s.fb.desc.height.toNat : Int) ∧
    3686396 = (719 : Int).toNat * s.fb.desc.pitch.toNat + 4 * (1279 : Int).toNat ∧
    s.fb.desc.size.toNat < 3686396 + 4 := by decide
theorem witness_DriverRefusals_uninit : idle.fault = none ∧ idle.refused = none ∧ idle.fb.state = .uninit := by decide
theorem witness_DriverRefusals_depth :
    let s := ready 4 2 16 16 0x00100000 32
    s.fault = none ∧ s.refused = none ∧ s.fb.state = .ready ∧ s.fb.desc.depth ≠ 32#32 := by decide
theorem witness_DriverRefusals_nul :
    small.fault = none ∧ small.refused = none ∧ small.Drawable ∧ (0#8 : Byte) ∈ [0x41#8, 0#8, 0x42#8] := by decide
theorem witness_DriverRefusals_building :
    (building 2).fault = none ∧ (building 2).refused = none ∧ (building 2).fb.state = .uninit ∧
    (building 2).pm.phase = .building := by decide
/-- The drawing operations may draw, every pixel is in the region, rows do not overlap, and the last pixel is hit. -/
theorem witness_FillRectPaintsIntersection :
    small.Drawable ∧ small.fb.desc.Fits ∧ small.sched = [] ∧
    4 * small.fb.desc.width.toNat ≤ small.fb.desc.pitch.toNat ∧
    3 < small.fb.desc.width.toNat ∧ 1 < small.fb.desc.height.toNat ∧
    (2 : Int) ≤ ((3 : Nat) : Int) ∧ ((3 : Nat) : Int) < 2 + 10 ∧
    (-5 : Int) ≤ ((1 : Nat) : Int) ∧ ((1 : Nat) : Int) < -5 + 7 := by decide
theorem witness_ClearPaintsEveryPixel :
    screen.Drawable ∧ screen.fb.desc.Fits ∧ screen.sched = [] ∧
    4 * screen.fb.desc.width.toNat ≤ screen.fb.desc.pitch.toNat ∧
    1279 < screen.fb.desc.width.toNat ∧ 719 < screen.fb.desc.height.toNat := by decide
/-- The character's left half is clipped (column 4 is the buffer's first). -/
theorem witness_DrawCharPaintsGlyph :
    small.Drawable ∧ small.fb.desc.Fits ∧ small.sched = [] ∧
    4 * small.fb.desc.width.toNat ≤ small.fb.desc.pitch.toNat ∧
    (((0 : Nat) : Int) = -4 + ((4 : Fin 8) : Int)) ∧ (((1 : Nat) : Int) = 1 + ((0 : Fin 8) : Int)) ∧
    0 < small.fb.desc.width.toNat ∧ 1 < small.fb.desc.height.toNat := by decide
theorem witness_DrawStringDrawsEachCharacter :
    small.Drawable ∧ small.fb.desc.Fits ∧ small.sched = [] ∧ small.Unmarked ∧
    (0#8 : Byte) ∉ [0x41#8, 0x0A#8, 0x42#8] := by decide
theorem witness_DrawingStaysInTheRegion : small.sched = [] ∧ small.RegionsDisjoint :=
  ⟨rfl, by decide, fun r => by cases r <;> decide⟩
theorem witness_DrawingIsItsPixels :
    small.Drawable ∧ small.sched = [] ∧ small.Unmarked ∧ (0#8 : Byte) ∉ [0x41#8, 0x0A#8, 0x42#8] := by decide
/-- V80's rectangle: the three pixels ahead of (1, 1) draw, and its bytes leave the region. -/
theorem witness_DrawingIsItsPixels_fault :
    let s := ready 2 2 8 32 0x00100000 12
    let q : Pixel := ⟨1, 1, colour⟩
    rectPixels 0 2 0 2 colour = [⟨0, 0, colour⟩, ⟨1, 0, colour⟩, ⟨0, 1, colour⟩] ++ q :: [] ∧
    (putEach [⟨0, 0, colour⟩, ⟨1, 0, colour⟩, ⟨0, 1, colour⟩] s).fault = none ∧
    0 ≤ q.x ∧ q.x < (s.fb.desc.width.toNat : Int) ∧ 0 ≤ q.y ∧ q.y < (s.fb.desc.height.toNat : Int) ∧
    s.fb.desc.size.toNat < q.y.toNat * s.fb.desc.pitch.toNat + 4 * q.x.toNat + 4 := by decide

theorem witness_StepRunsTheDecodedInstruction :
    let s := { idle with ops := [⟨.operation, [0x20]⟩] }
    s.Unmarked ∧ s.cpu = [] ∧ s.ops[s.pos]? = some ⟨.operation, [0x20]⟩ ∧
    decode s.cfg ⟨.operation, [0x20]⟩ = .ok .pmBegin ∧ s.sched = [] := by decide
theorem witness_StepRunsTheDecodedInstruction_scheduled :
    let s := { idle with ops := [⟨.operation, [0x20]⟩], sched := [.cpu, .cop .consume] }
    s.Unmarked ∧ s.cpu = [] ∧ s.ops[s.pos]? = some ⟨.operation, [0x20]⟩ ∧
    decode s.cfg ⟨.operation, [0x20]⟩ = .ok .pmBegin ∧ s.sched = .cpu :: [.cop .consume] := by decide
theorem witness_StepFollowsTheSchedule_coprocessor :
    ({ idle with sched := [.cop .consume, .cpu] } : State).sched = .cop .consume :: [.cpu] := by decide
theorem witness_StepFollowsTheSchedule_fault :
    let s := { idle with fault := some (.msgOverflow 2 36) }
    s.sched = [] ∧ s.fault = some (.msgOverflow 2 36) := by decide
theorem witness_StepFollowsTheSchedule_refused :
    let s := { idle with refused := some .textNul, sched := [.cpu] }
    s.sched = .cpu :: [] ∧ s.fault = none ∧ s.refused = some .textNul := by decide
/-- An operation of two turns of the CPU with a turn of the coprocessor between them. -/
theorem witness_OperationsAreTheirTurns :
    let s := { small with sched := [.cpu, .cop (.unsolicited 0x00000021), .cpu] }
    s.Unmarked ∧ (next (exec (.fbPutPixel 0 0 colour) s)).isSome := by decide
theorem witness_BuffersAreWrittenBesideTheCoprocessor :
    let s := { small with sched := [.cpu, .cop (.unsolicited 0x00000021), .cpu] }
    localOperation (.fbPutPixel 0 0 colour) = true ∧ .pause ∉ s.sched ∧ s.dev.out = [] ∧ s.cop.pending = [] := by decide
/-- A step of the coprocessor after a fault, and an operation after a refusal. -/
theorem witness_MarksAreSticky_fault :
    let s := { idle with fault := some (.msgOverflow 2 36), sched := [.cop .consume] }
    step s = .next { s with sched := [] } ∧ s.fault = some (.msgOverflow 2 36) := ⟨rfl, rfl⟩
theorem witness_MarksAreSticky_refused :
    let s := { idle with refused := some .textNul }
    exec .pmFinish s = .next { s with pos := 1 } ∧ s.refused = some .textNul := ⟨rfl, rfl⟩

/-- The invariant holds of a machine with a ready framebuffer. -/
theorem witness_inv : small.Inv where
  params   := witness_cfg
  memory   := by decide
  outBound := by decide
  inBound  := by decide
  outWords := nofun
  requests := nofun
  cursor   := by decide
  buffer   := by decide
  oneMark  := .inl rfl
  position := nofun
theorem witness_ReadyDescriptorIsImmutable : small.Inv ∧ step small = .next small ∧ small.fb.state = .ready :=
  ⟨witness_inv, rfl, rfl⟩
theorem witness_EveryStepKeepsTheInvariant : small.Inv ∧ step small = .next small := ⟨witness_inv, rfl⟩
theorem witness_ParametersAndProgramAreFixed :
    let s := { idle with ops := [⟨.operation, [0x04]⟩] }
    step s = .next { s with refused := some (.unknownOp 0x04), pos := 1 } := rfl
set_option maxRecDepth 8000 in
/-- P1's first operation. -/
theorem witness_OnlyInitializeMakesReady :
    let s := { idle with sched := initReply (initAnswer 0x80000000 0xC0100000 32 16) }
    s.fb.state = .uninit ∧ (next (exec (.fbInit 4 2 32) s)).map (·.fb.state) = some .ready := by decide
theorem witness_UnknownItemsAreRefused_selector :
    let s := { idle with ops := [⟨.operation, [0x42, 0]⟩], sched := [.cpu] }
    s.Unmarked ∧ s.cpu = [] ∧ s.sched = .cpu :: [] ∧ s.ops[s.pos]? = some ⟨.operation, 0x42 :: [0]⟩ ∧
    (0x42 : Byte).toNat ∉ [0x01, 0x02, 0x03, 0x10, 0x11, 0x12, 0x20, 0x21, 0x22, 0x23, 0x24, 0x30, 0x31, 0x32, 0x33,
                           0x34, 0x40, 0x41] := by decide
theorem witness_UnknownItemsAreRefused_offset :
    let s := { idle with ops := [⟨.register, [0x04, 0, 0, 0, 0]⟩] }
    s.Unmarked ∧ s.cpu = [] ∧ s.sched = [] ∧ s.ops[s.pos]? = some ⟨.register, bytesOfWord 0x04 ++ [0]⟩ ∧
    (0x04 : Word) ∉ [s.cfg.offRead, s.cfg.offStatus, s.cfg.offWrite] := by decide
theorem witness_DecodeInvertsEncode :
    cfg.Wf ∧ (Instr.fbFillRect (-5) 1278 10 (-3) colour).WellFormed = true ∧
    (Instr.regWrite (.write 8 0xFF)).WellFormed = true := ⟨witness_cfg, by decide⟩

end Sys2Proof.Tests
end

section
/-! SUPPORT. Everything one CPU step inside an operation can do, said once (`cpuTick_cases`): the access it makes
(`Micro.Access`), the pieces of work it leaves (`Micro.Leaves`), and the two other ends, a mark (R176) and a driver made
READY (R141). What a step keeps of marks, driver and work is read off these cases. -/

namespace Sys2Proof.Machine

/-- The pieces a piece of work can leave in its place: itself, pieces of a build or of drawing (a record of the builder
moves its cursor up inside the buffer), and the next pieces of `call` and FB_INIT, with the same parameters. -/
inductive Micro.Leaves (s : State) : Micro → Micro → Prop where
  | self (m : Micro) : Leaves s m m
  | buffer (m n : Micro) (hn : n.isLocal = true)
    (hb : ∀ p, n = .builder p → s.pm.phase = .building ∧ s.pm.cursor ≤ p.cursor ∧ p.cursor ≤ s.cfg.msgCapWords) :
    Leaves s m n
  | pollFull (m : Micro) (a : Word) (ha : a &&& 0xF#32 = 0#32) : Leaves s m (.pollFull 8#32 a)
  | pollEmpty (m : Micro) (use : ReplyUse) : Leaves s m (.pollEmpty 8#32 use)
  | verify (c b : Word) (task : Task) : Leaves s (.propertyCall c task) (.verify b task)
  | pitchTag (w h d : Word) (oA : Nat) : Leaves s (.allocTag w h d) (.pitchTag w h d oA)
  | propertyCall (w h d c : Word) (oA oP : Nat) :
    Leaves s (.pitchTag w h d oA) (.propertyCall c (.fbInit w h d oA oP))
  | readBus (b w h d : Word) (oA oP : Nat) : Leaves s (.verify b (.fbInit w h d oA oP)) (.readBus w h d oA oP)
  | readSize (w h d bus : Word) (oA oP : Nat) : Leaves s (.readBus w h d oA oP) (.readSize w h d bus oA oP)
  | readPitch (w h d bus size : Word) (oA oP : Nat) :
    Leaves s (.readSize w h d bus oA oP) (.readPitch w h d bus size oP)

/-- The access a piece of work makes (R58, R60), with the phase IDLE that the success test leaves (R123). -/
inductive Micro.Access (s : State) : Micro → State → Prop where
  | none (m : Micro) : Access s m s
  | send (c a : Word) (room : s.dev.out.length ≠ s.cfg.fifoDepth) :
    Access s (.pollFull c a) (s.withOut (s.dev.out ++ [assemble a c]))
  | take (m : Micro) (w : Word) (rest : List Word) (h : s.dev.inq = w :: rest) : Access s m (s.withIn rest)
  | write (m : Micro) (m' : Memory) (h : s.mem.wf → m'.wf) : Access s m (s.withMem m')
  | idle (m : Micro) (n : Nat) : Access s m (s.withPm ⟨.idle, n⟩)

/-- Everything one CPU step of the piece `m`, with the pieces `ms` after it, can lead to. -/
inductive Ticks (s : State) (m : Micro) (ms : List Micro) : State → Prop where
  | refuse (r : Refusal) : Ticks s m ms (s.markRefused r).ended
  | raise (f : Fault) : Ticks s m ms (s.markFault f).ended
  | work (u : State) (ha : m.Access s u) (ns : List Micro) (hn : ∀ n ∈ ns, n ∈ ms ∨ m.Leaves s n) :
    Ticks s m ms (settle ns u)
  | ready (w h d bus size pitch : Word) (oP : Nat) (hm : m = .readPitch w h d bus size oP) :
    Ticks s m ms ((s.withFb ⟨.ready, ⟨w, h, pitch, d, busToCpu bus, size⟩⟩).returned (.flag true))

/-- A piece that is no record of the builder's is left without a condition. -/
theorem Micro.Leaves.ofLocal {s : State} (m : Micro) {n : Micro} (hn : n.isLocal = true) (hb : ∀ p, n ≠ .builder p) :
    m.Leaves s n := .buffer m n hn fun p h => absurd h (hb p)

/-- A record of the builder's is left in a build, with the cursor not moved back and in the buffer. -/
theorem Micro.Leaves.ofBuilder {s : State} (m : Micro) {phase : Phase} {c : Nat} (hb : s.pm.phase = .building)
    (lo : s.pm.cursor ≤ c) (hi : c ≤ s.cfg.msgCapWords) : m.Leaves s (.builder ⟨phase, c⟩) :=
  .buffer m _ rfl fun p h => by obtain rfl := Micro.builder.inj h; exact ⟨hb, lo, hi⟩

/-- After checks: a mark, or their work with what was after the piece. -/
theorem ticks_enter {s : State} {m : Micro} {ms : List Micro} {P : List Micro → Prop} {r : Res (List Micro)}
    (h : Checked s P r) (rest : List Micro) (hP : ∀ ns, P ns → ∀ n ∈ ns, m.Leaves s n)
    (hr : ∀ n ∈ rest, n ∈ ms ∨ m.Leaves s n) : Ticks s m ms (enter r rest) := by
  cases h with
  | refuse r => exact .refuse r
  | raise f => exact .raise f
  | ok ns h => exact .work s (.none m) _ fun n hn => (List.mem_append.mp hn).elim (fun hn => .inr (hP ns h n hn)) (hr n)

theorem ticks_addTag {s : State} {m : Micro} {ms : List Micro} (id vbuf : Word) (req : List Word) (rest : List Micro)
    (hr : ∀ n ∈ rest, n ∈ ms ∨ m.Leaves s n) : Ticks s m ms (enter (addTagWork id vbuf req s) rest) := by
  refine ticks_enter (checked_addTagWork id vbuf req s) rest (fun ns h n hn => ?_) hr
  obtain ⟨hb, -, -, hc, rfl⟩ := h
  rcases List.mem_append.mp hn with hn | hn
  · obtain ⟨_, _, rfl⟩ := mem_wordWrites hn
    exact .ofLocal m rfl nofun
  · obtain rfl := List.mem_singleton.mp hn
    exact .ofBuilder m hb (by omega) hc

theorem ticks_finish {s : State} {m : Micro} {ms : List Micro} : Ticks s m ms (enter (finishWork s) ms) := by
  refine ticks_enter (checked_finishWork s) ms (fun ns h n hn => ?_) fun n hn => .inl hn
  obtain ⟨hb, hc, rfl⟩ := h
  simp only [List.mem_cons, List.not_mem_nil, or_false] at hn
  rcases hn with rfl | rfl | rfl | rfl
  · exact .ofLocal m rfl nofun
  · exact .ofBuilder m hb (by omega) hc
  · exact .ofLocal m rfl nofun
  · exact .ofBuilder m hb (by omega) hc

theorem ticks_propertyCall {s : State} {ms : List Micro} (c : Word) (task : Task) :
    Ticks s (.propertyCall c task) ms (enter (pmCallWork c task s) ms) := by
  refine ticks_enter (checked_pmCallWork c task s) ms (fun ns h n hn => ?_) fun n hn => .inl hn
  obtain ⟨-, -, ha, rfl⟩ := h
  simp only [List.mem_cons, List.not_mem_nil, or_false] at hn
  rcases hn with rfl | rfl | rfl
  · exact .pollFull _ _ ha
  · exact .pollEmpty _ _
  · exact .verify _ _ _

theorem ticks_pixel {s : State} {m : Micro} {ms : List Micro} (p : Pixel) (ps : List Pixel) :
    Ticks s m ms (enter (pixelWork p s) (.pixels ps :: ms)) := by
  refine ticks_enter (checked_pixelWork p s) _ (fun ns h n hn => ?_) fun n hn => ?_
  · rcases h with rfl | ⟨-, -, rfl⟩
    · cases hn
    · simp only [pixelBytes, List.mem_cons, List.not_mem_nil, or_false] at hn
      rcases hn with rfl | rfl | rfl | rfl <;> exact .ofLocal m rfl nofun
  · rcases List.mem_cons.mp hn with rfl | hn
    · exact .inr (.ofLocal m rfl nofun)
    · exact .inl hn

/-- The rest of the work, after an access. -/
theorem ticks_settle {s u : State} {m : Micro} {ms : List Micro} (ha : m.Access s u) : Ticks s m ms (settle ms u) :=
  .work u ha ms fun _ hn => .inl hn

/-- A return, after an access. -/
theorem ticks_returned {s u : State} {m : Micro} {ms : List Micro} (r : Result) (ha : m.Access s u) :
    Ticks s m ms (u.returned r) :=
  .work u ha [.ret r] fun n hn => by
    obtain rfl := List.mem_singleton.mp hn
    exact .inr (.ofLocal m rfl nofun)

/-- The operation goes on with one piece, after an access. -/
theorem ticks_goesOn {s u : State} {m n : Micro} {ms : List Micro} (ha : m.Access s u) (hl : m.Leaves s n)
    (hn : settle [n] u = u.withCpu [n]) : Ticks s m ms (u.withCpu [n]) :=
  hn ▸ .work u ha [n] fun n' hn' => by obtain rfl := List.mem_singleton.mp hn'; exact .inr hl

/-- A poll that goes on polling, after an access. -/
theorem ticks_polls {s u : State} {m : Micro} {ms : List Micro} (ha : m.Access s u) (hc : u.cpu = m :: ms)
    (hm : settle (m :: ms) u = u.withCpu (m :: ms)) : Ticks s m ms u := by
  have h : settle (m :: ms) u = u := by rw [hm, ← hc]; rfl
  exact h ▸ .work u ha (m :: ms) fun n hn => (List.mem_cons.mp hn).elim (fun h => .inr (h ▸ .self n)) .inl

theorem ticks_verify {s : State} {ms : List Micro} (b : Word) (task : Task) :
    Ticks s (.verify b task) ms (afterVerify b task s) := by
  cases task with
  | call => exact ticks_returned _ (.none _)
  | pmCall => exact ticks_returned _ (.idle _ _)
  | fbInit w h d oA oP =>
    simp only [afterVerify]
    split
    · exact ticks_goesOn (.idle _ _) (.readBus _ _ _ _ _ _) rfl
    · exact ticks_returned _ (.idle _ _)

theorem ticks_text {s : State} {m : Micro} {ms : List Micro} (x : Int) (fg bg : Color) (ch : Byte) (t : List Byte)
    (cx cy : Int) : Ticks s m ms (settle (textWork x fg bg ch t cx cy s ++ ms) s) := by
  refine .work s (.none m) _ fun n hn => ?_
  rcases List.mem_append.mp hn with hn | hn
  · right
    unfold textWork at hn
    split at hn <;> simp only [List.mem_cons, List.not_mem_nil, or_false] at hn
    · obtain rfl := hn; exact .ofLocal m rfl nofun
    · rcases hn with rfl | rfl <;> exact .ofLocal m rfl nofun
  · exact .inl hn

theorem cpuTick_cases {s : State} {m : Micro} {ms : List Micro} (hc : s.cpu = m :: ms) : Ticks s m ms (cpuTick s) := by
  rw [cpuTick_cons hc]
  cases m with
  | word i v => exact ticks_settle (.write _ _ fun h => Memory.writeWord_wf h _ _)
  | builder p =>
    exact .work s (.none _) (.builder p :: ms) fun n hn =>
      (List.mem_cons.mp hn).elim (fun h => .inr (h ▸ .self _)) .inl
  | addTag id v r => exact ticks_addTag id v r ms fun n hn => .inl hn
  | allocTag w h d =>
    exact ticks_addTag _ _ _ _ fun n hn => (List.mem_cons.mp hn).elim (fun e => .inr (e ▸ .pitchTag w h d _)) .inl
  | pitchTag w h d oA =>
    refine ticks_addTag _ _ _ _ fun n hn => ?_
    rcases List.mem_cons.mp hn with rfl | hn
    · exact .inr (.ofLocal _ rfl nofun)
    · exact (List.mem_cons.mp hn).elim (fun e => .inr (e ▸ .propertyCall w h d _ oA _)) .inl
  | finish => exact ticks_finish
  | propertyCall c task => exact ticks_propertyCall c task
  | pollFull c a =>
    simp only [doMicro]
    split
    · exact ticks_polls (.none _) hc rfl
    · rename_i hf; exact ticks_settle (.send c a (by simpa [State.full] using hf))
  | pollEmpty c use =>
    simp only [doMicro]
    split
    · exact ticks_polls (.none _) hc rfl
    · rename_i w rest hq
      split
      · cases use with
        | result => exact ticks_returned _ (.take _ w rest hq)
        | drop => exact ticks_settle (.take _ w rest hq)
      · exact ticks_polls (.take _ w rest hq) hc rfl
  | verify b task => exact ticks_verify b task
  | readBus w h d oA oP => exact ticks_goesOn (.none _) (.readSize w h d _ oA oP) rfl
  | readSize w h d bus oA oP => exact ticks_goesOn (.none _) (.readPitch w h d bus _ oA oP) rfl
  | readPitch w h d bus size oP =>
    simp only [doMicro, endInit]
    split
    · exact ticks_returned _ (.none _)
    · exact .ready w h d bus size _ oP rfl
  | pixels ps => cases ps with
    | nil => exact ticks_settle (.none _)
    | cons p ps => exact ticks_pixel p ps
  | byte a b => exact ticks_settle (.write _ _ fun h => Memory.writeByte_wf h _ _)
  | text x fg bg t cx cy => cases t with
    | nil => exact ticks_settle (.none _)
    | cons ch t => exact ticks_text x fg bg ch t cx cy
  | ret r => exact ticks_returned r (.none _)

/-- An access writes neither driver, parameters nor marks. -/
theorem Micro.Access.frame {s u : State} {m : Micro} (h : m.Access s u) :
    u.fb = s.fb ∧ u.cfg = s.cfg ∧ u.fault = s.fault ∧ u.refused = s.refused := by
  cases h <;> exact ⟨rfl, rfl, rfl, rfl⟩

/-- A CPU step that records a mark ends the operation (R174, R176). -/
theorem Ticks.unmarked {s t : State} {m : Micro} {ms : List Micro} (h : Ticks s m ms t) (hu : s.Unmarked) :
    t.Unmarked ∨ t.cpu = [] := by
  cases h with
  | refuse r => exact .inr rfl
  | raise f => exact .inr rfl
  | work u ha ns _ =>
    obtain ⟨-, -, hf, hr⟩ := ha.frame
    exact .inl ⟨by rw [settle_fault, hf, hu.1], by rw [settle_refused, hr, hu.2]⟩
  | ready => exact .inr rfl

end Sys2Proof.Machine
end

section
/-! SUPPORT. The invariant of the machine: what an update of one field has to keep, that work begun under it is legal, and
that it and a READY driver are kept by the CPU's steps, the coprocessor's, and operations. -/

namespace Sys2Proof.Machine

/-! ## Legal work -/

/-- Whether a piece is legal depends on the driver and the parameters alone. -/
theorem Micro.legal_congr {s t : State} (hf : t.fb = s.fb) (hc : t.cfg = s.cfg) (m : Micro) : m.Legal t ↔ m.Legal s := by
  have task : ∀ k : Task, k.Legal t ↔ k.Legal s := fun k => by cases k <;> simp only [Task.Legal, hf]
  cases m <;> simp only [Micro.Legal, hf, hc, task]

/-- A legal piece leaves legal pieces. -/
theorem Micro.Leaves.legal {s : State} {m n : Micro} (h : m.Leaves s n) (inv : s.Inv) (hm : m.Legal s) :
    n.Legal s := by
  cases h with
  | self => exact hm
  | buffer _ _ hn hb =>
    cases n with
    | builder p =>
      obtain ⟨hp, hlo, hhi⟩ := hb p rfl
      exact ⟨(inv.cursor (by simp [hp])).1.trans hlo, hhi⟩
    | word | addTag | finish | pixels | byte | text | ret => trivial
    | _ => cases hn
  | pollFull _ a ha => exact ⟨rfl, ha⟩
  | pollEmpty _ use => exact le_refl 8
  | verify | pitchTag | propertyCall | readBus | readSize | readPitch => exact hm

/-- Work that is begun under the invariant is legal. -/
theorem Begun.legal {i : Instr} {s : State} {ms : List Micro} (h : Begun i s ms) (inv : s.Inv) :
    ∀ m ∈ ms, m.Legal s := by
  have call (a : Word) (ha : a &&& 0xF#32 = 0#32) (task : Task) (ht : task.Legal s) :
      ∀ m ∈ [Micro.pollFull 8#32 a, .pollEmpty 8#32 .drop, .verify a task], m.Legal s := by
    simp [Micro.Legal, Config.propertyChannel, Config.chanMax, ha, ht]
  cases h with
  | send a ha => simp [Micro.Legal, Config.propertyChannel, ha]
  | receive c hc => simpa [Micro.Legal, Config.chanMax] using hc
  | call a ha => exact call a ha .call trivial
  | pmCall hp ha => exact call _ ha .pmCall trivial
  | init w h d hf =>
    have : 2 ≤ s.cfg.msgCapWords := le_trans (by decide) inv.params.capacity
    simp [beginWork, Micro.Legal, hf, this]
  | buffer _ _ _ hl => exact hl inv

/-! ## Updates of one field -/

namespace State.Inv
variable {s : State} (h : s.Inv)
include h

theorem position_congr {t : State} (hf : t.fb = s.fb) (hc : t.cfg = s.cfg) : ∀ m ∈ s.cpu, m.Legal t :=
  fun m hm => (m.legal_congr hf hc).mpr (h.position m hm)

theorem withCpu {c : List Micro} (hc : ∀ m ∈ c, m.Legal s) : (s.withCpu c).Inv :=
  { h with position := fun m hm => (m.legal_congr rfl rfl).mpr (hc m hm) }

theorem withSched (ts : List Turn) : (s.withSched ts).Inv := { h with position := h.position_congr rfl rfl }

theorem withDrawn (n : Nat) : (s.withDrawn n).Inv := { h with position := h.position_congr rfl rfl }

theorem withPm {p : Builder} (hp : p.phase ≠ .idle → 2 ≤ p.cursor ∧ p.cursor ≤ s.cfg.msgCapWords) :
    (s.withPm p).Inv := { h with cursor := hp, position := h.position_congr rfl rfl }

theorem withMem {m : Memory} (hm : m.wf) : (s.withMem m).Inv :=
  { h with memory := hm, position := h.position_congr rfl rfl }

theorem withIn {q : List Word} (hq : q.length ≤ s.cfg.fifoDepth) : (s.withIn q).Inv :=
  { h with inBound := hq, position := h.position_congr rfl rfl }

theorem withOut {q : List Word} (hq : q.length ≤ s.cfg.fifoDepth) (hw : ∀ w ∈ q, chanOf w = Config.propertyChannel) :
    (s.withOut q).Inv :=
  { h with outBound := hq, outWords := hw, position := h.position_congr rfl rfl }

theorem withPending {p : List Request}
    (hp : ∀ r ∈ p, r.channel = Config.propertyChannel ∧ r.addr &&& 0xF#32 = 0#32) : (s.withPending p).Inv :=
  { h with requests := hp, position := h.position_congr rfl rfl }

theorem returned (r : Result) : (s.returned r).Inv := { h with position := nofun }

theorem ended : s.ended.Inv := { h with position := nofun }

theorem markRefused (r : Refusal) : (s.markRefused r).Inv := by
  unfold State.markRefused
  split
  · exact h
  · rename_i hn
    exact { h with oneMark := .inl (by simp at hn; exact hn.1), position := h.position_congr rfl rfl }

theorem markFault (f : Fault) : (s.markFault f).Inv := by
  unfold State.markFault
  split
  · exact h
  · rename_i hn
    exact { h with oneMark := .inr (by simp at hn; exact hn.2), position := h.position_congr rfl rfl }

/-- A channel-8 word may be sent while FULL is 0 (R102, R103). -/
theorem send {w : Word} (hw : chanOf w = 8#32) (room : s.dev.out.length ≠ s.cfg.fifoDepth) :
    (s.withOut (s.dev.out ++ [w])).Inv := by
  have := h.outBound
  refine h.withOut (by simp; omega) fun v hv => ?_
  rcases List.mem_append.mp hv with hv | hv
  · exact h.outWords v hv
  · rw [List.mem_singleton.mp hv]; exact hw

/-- The head of `dev.IN` may be taken (R101, R104). -/
theorem take {w : Word} {rest : List Word} (hq : s.dev.inq = w :: rest) : (s.withIn rest).Inv := by
  have := h.inBound
  exact h.withIn (by rw [hq] at this; exact (Nat.le_succ _).trans this)

/-- A word may arrive while there is room (R107, R108). -/
theorem arrive (w : Word) (room : s.dev.inq.length < s.cfg.fifoDepth) : (s.withIn (s.dev.inq ++ [w])).Inv :=
  h.withIn (by simpa using room)

/-! ## Steps -/

/-- Every step of the coprocessor keeps the invariant (R106 to R108). -/
theorem copStep (e : CopStep) : (copStep e s).Inv := by
  cases e with
  | consume =>
    rcases copConsume_cases s with ⟨-, e⟩ | ⟨w, rest, hq, e⟩ <;> rw [Machine.copStep, e]
    · exact h
    · have hout : (s.withOut rest).Inv :=
        h.withOut (by have := h.outBound; rw [hq] at this; exact (Nat.le_succ _).trans this)
          fun v hv => h.outWords v (by simp [hq, hv])
      refine hout.withPending fun r hr => ?_
      rcases List.mem_append.mp hr with hr | hr
      · exact h.requests r hr
      · rw [List.mem_singleton.mp hr]
        exact ⟨h.outWords w (by simp [hq]), addrOf_aligned w⟩
  | answer a ds =>
    rcases copAnswer_cases a ds s with e | ⟨-, room, e⟩ <;> rw [Machine.copStep, e]
    · exact h
    · exact ((h.withMem (rewriteMessage_wf h.memory _ _ _ ds)).withPending
        fun r hr => h.requests r (List.mem_of_mem_erase hr)).arrive _ room
  | unsolicited w =>
    rcases copUnsolicited_cases w s with e | ⟨-, room, e⟩ <;> rw [Machine.copStep, e]
    · exact h
    · exact h.arrive w room

/-- Settling legal work keeps the invariant. -/
theorem settle {ms : List Micro} (hl : ∀ m ∈ ms, m.Legal s) : (settle ms s).Inv := by
  induction ms generalizing s with
  | nil => exact h.returned _
  | cons m ms ih =>
    have here : (s.withCpu (m :: ms)).Inv := h.withCpu hl
    have rest : ∀ n ∈ ms, n.Legal s := fun n hn => hl n (List.mem_cons_of_mem _ hn)
    cases m with
    | builder p =>
      exact ih (h.withPm fun _ => hl _ List.mem_cons_self) fun n hn => (n.legal_congr rfl rfl).mpr (rest n hn)
    | ret r => exact h.returned r
    | pixels ps => cases ps with
      | nil => exact ih h rest
      | cons p ps => exact here
    | text x fg bg t cx cy => cases t with
      | nil => exact ih h rest
      | cons ch t => exact here
    | _ => exact here

/-- The access of a legal piece keeps the invariant. -/
theorem access {m : Micro} {u : State} (ha : m.Access s u) (hm : m.Legal s) : u.Inv := by
  cases ha with
  | none => exact h
  | send c a room =>
    obtain ⟨rfl, -⟩ := hm
    exact h.send (chanOf_assemble (by decide)) room
  | take _ w rest hq => exact h.take hq
  | write _ m' hw => exact h.withMem (hw h.memory)
  | idle _ n => exact h.withPm fun hp => absurd rfl hp

/-- Every CPU step inside an operation keeps the invariant and a READY driver (R38). -/
theorem cpuTick : (cpuTick s).Inv ∧ (s.fb.state = .ready → (cpuTick s).fb = s.fb) := by
  rcases hc : s.cpu with _ | ⟨m, ms⟩
  · rw [cpuTick_nil hc]; exact ⟨h, fun _ => rfl⟩
  have hl : ∀ n ∈ m :: ms, n.Legal s := hc ▸ h.position
  have hm : m.Legal s := hl m List.mem_cons_self
  have ht := cpuTick_cases hc
  generalize Machine.cpuTick s = t at ht
  cases ht with
  | refuse r => exact ⟨(h.markRefused r).ended, fun _ => by simp⟩
  | raise f => exact ⟨(h.markFault f).ended, fun _ => by simp⟩
  | work u ha ns hn =>
    obtain ⟨hfb, hcfg, -, -⟩ := ha.frame
    refine ⟨(h.access ha hm).settle fun n hin => (n.legal_congr hfb hcfg).mpr ?_, fun _ => by rw [settle_fb, hfb]⟩
    rcases hn n hin with hin | hlv
    · exact hl n (List.mem_cons_of_mem _ hin)
    · exact hlv.legal h hm
  | ready w d e bus size pitch oP hp =>
    subst hp
    refine ⟨{ h with buffer := fun _ => ?_, position := nofun }, fun hr => ?_⟩
    · show (busToCpu bus).toNat < 2 ^ 30
      unfold busToCpu Config.busAliasMask
      rw [BitVec.toNat_and]
      exact lt_of_le_of_lt Nat.and_le_right (by decide)
    · rw [show s.fb.state = .uninit from hm] at hr; cases hr

/-- A run keeps the invariant and a READY driver. -/
theorem drive (ts : List Turn) : (drive ts s).Inv ∧ (s.fb.state = .ready → (drive ts s).fb = s.fb) := by
  refine drive_induct (P := fun u => u.Inv ∧ (s.fb.state = .ready → u.fb = s.fb)) (fun u ⟨hu, hf⟩ => ?_)
    (fun e u _ ⟨hu, hf⟩ => ⟨hu.copStep e, fun hr => by rw [copStep_fb, hf hr]⟩)
    (fun u ts ⟨hu, hf⟩ => ⟨hu.withSched ts, hf⟩) ts s ⟨h, fun _ => rfl⟩
  obtain ⟨hi, hk⟩ := hu.cpuTick
  exact ⟨hi, fun hr => (hk (by rw [hf hr, hr])).trans (hf hr)⟩

/-! ## Accesses -/

theorem readRead : (readRead s).state.Inv := by
  rcases readRead_cases s with ⟨-, e⟩ | ⟨w, rest, hq, e⟩ <;> rw [e]
  · exact h.markRefused _
  · exact h.take hq

theorem writeWrite (v : Word) : (noResult (writeWrite v s)).state.Inv := by
  rcases writeWrite_cases v s with ⟨r, e⟩ | ⟨hv, room, e⟩ <;> rw [e]
  · exact h.markRefused r
  · exact h.send hv room

theorem mailboxWord (k : BitVec 4) (m : WordMove) (a : BitVec 28) : (mailboxWord k m a s).state.Inv := by
  rcases mailboxWord_cases k m a s with e | ⟨c, e⟩ <;> rw [e]
  · exact h.writeWrite _
  · exact h.copStep c

theorem readIndex (i : Nat) : (readIndex i s).state.Inv := by
  unfold Machine.readIndex
  split
  · exact h.markRefused _
  · exact h

end State.Inv

theorem Res.andThen_ok_state {α β : Type} (r : Res α) (f : α → β) :
    (r.andThen fun a s => .ok (f a) s).state = r.state := by
  cases r <;> rfl

/-- Everything the end of an access can be: it returned, or a mark ended it. -/
theorem conclude_cases {t : State} {r : Res Result} (e : conclude r = .next t) :
    t = r.state.ended ∨ ∃ a, t = r.state.returned a := by
  cases r with
  | ok a u => exact .inr ⟨a, (Host.Outcome.next.inj e).symm⟩
  | stop u => exact .inl (Host.Outcome.next.inj e).symm

theorem conclude_inv {t : State} {r : Res Result} (e : conclude r = .next t) (h : r.state.Inv) : t.Inv := by
  rcases conclude_cases e with rfl | ⟨a, rfl⟩
  · exact h.ended
  · exact h.returned a

theorem wordResult_inv {r : Res Word} (hr : r.state.Inv) : (wordResult r).state.Inv := by
  rw [wordResult, Res.andThen_ok_state]; exact hr

/-! ## Operations -/

theorem launch_inv {s t : State} {P : List Micro → Prop} {r : Res (List Micro)} (h : s.Inv) (c : Checked s P r)
    (hl : ∀ ms, P ms → ∀ m ∈ ms, m.Legal s) (e : launch r = .next t) : t.Inv := by
  rcases launch_cases c with ⟨q, e'⟩ | ⟨f, e'⟩ | ⟨ms, hP, -, e'⟩ <;>
    obtain rfl := Host.Outcome.next.inj (e'.symm.trans e)
  · exact (h.markRefused q).ended
  · exact (h.markFault f).ended
  · exact ((h.settle (hl ms hP)).drive _).1

/-- The operations of the builder and of drawing keep the invariant. -/
theorem exec_inv_of_local {i : Instr} {s t : State} (hl : localOperation i = true) (h : s.Inv)
    (e : exec i s = .next t) : t.Inv := by
  rcases exec_shape i with ⟨-, -, -, -, hn⟩ | ⟨f, he, c, -⟩
  · rw [hl] at hn; cases hn
  · exact launch_inv h (c s) (fun ms hb => hb.legal h) ((he s).symm.trans e)

/-- Every operation keeps the invariant: an access as its own lemma says, work because it is legal when it begins. -/
theorem exec_inv {i : Instr} {s t : State} (h : s.Inv) (e : exec i s = .next t) : t.Inv := by
  cases i
  case mmioRdStatus => exact conclude_inv (r := wordResult (readStatus s)) e (h.withDrawn _)
  case statusFull =>
    exact conclude_inv (r := .ok (.flag (s.statusWord.getLsbD 31)) (s.withDrawn (s.drawn + 1))) e (h.withDrawn _)
  case statusEmpty =>
    exact conclude_inv (r := .ok (.flag (s.statusWord.getLsbD 30)) (s.withDrawn (s.drawn + 1))) e (h.withDrawn _)
  case mmioRdRead => exact conclude_inv e (wordResult_inv h.readRead)
  case mmioWrWrite v => exact conclude_inv e (h.writeWrite v)
  case pmRead k => exact conclude_inv e (wordResult_inv (h.readIndex k))
  case fbBusToCpu b => exact conclude_inv (r := .ok (.word (busToCpu b)) s) e h
  case respSuccess => exact conclude_inv (r := .ok (.flag (success (s.word 1))) s) e h
  case respFailure => exact conclude_inv (r := .ok (.flag (!success (s.word 1))) s) e h
  case regRead a =>
    by_cases ha : a = .read 32
    · subst ha; exact conclude_inv e (wordResult_inv h.readRead)
    · exact conclude_inv ((execRegRead_other ha s).symm.trans e) (h.markRefused _)
  case regStatus a =>
    by_cases ha : a = .read 32
    · subst ha; exact conclude_inv (r := wordResult (readStatus s)) e (h.withDrawn _)
    · exact conclude_inv ((execRegStatus_other ha s).symm.trans e) (h.markRefused _)
  case regWrite a =>
    by_cases ha : ∃ v, a = .write 32 v
    · obtain ⟨v, rfl⟩ := ha; exact conclude_inv e (h.writeWrite _)
    · exact conclude_inv ((execRegWrite_other (fun v hv => ha ⟨v, hv⟩) s).symm.trans e) (h.markRefused _)
  case mbSend c a =>
    exact launch_inv h ((checked_sendWork c a s).returning .none) (fun _ hb => by
      obtain ⟨_, ⟨rfl, ha, rfl⟩, rfl⟩ := hb; exact (Begun.send a ha rfl).legal h) e
  case mbReceive c =>
    exact launch_inv h (checked_receiveWork c s) (fun _ hb => by
      obtain ⟨hc, rfl⟩ := hb; exact (Begun.receive c hc rfl).legal h) e
  case mbCall c a =>
    exact launch_inv h (checked_callWork c a .call s) (fun _ hb => by
      obtain ⟨rfl, ha, rfl⟩ := hb; exact (Begun.call a ha rfl).legal h) e
  case pmCall c =>
    exact launch_inv h (checked_pmCallWork c .pmCall s) (fun _ hb => by
      obtain ⟨hp, rfl, ha, rfl⟩ := hb; exact (Begun.pmCall hp ha rfl).legal h) e
  case fbInit w d k =>
    exact launch_inv h (checked_initWork w d k s) (fun _ hb => by
      obtain ⟨hf, hp, rfl⟩ := hb; exact (Begun.init w d k hf hp rfl).legal h) e
  case mboxWordCh0 | mboxWordCh1 | mboxWordCh2 | mboxWordCh3 | mboxWordCh4 | mboxWordCh5 | mboxWordCh6 | mboxWordCh7
    | mboxWordCh8 | mboxWordCh9 | mboxWordCh10 | mboxWordCh11 | mboxWordCh12 | mboxWordCh13 | mboxWordCh14
    | mboxWordCh15 => exact conclude_inv e (h.mailboxWord _ _ _)
  all_goals exact exec_inv_of_local rfl h e

/-- Every operation keeps a READY driver (R38). -/
theorem exec_fb_ready {i : Instr} {s t : State} (h : s.Inv) (e : exec i s = .next t) (hr : s.fb.state = .ready) :
    t.fb = s.fb := by
  rcases exec_next i s with ⟨r, e', hp⟩ | ⟨u, e', hu⟩ | ⟨ms, hb, e'⟩
  · rcases conclude_cases (e'.symm.trans e) with rfl | ⟨a, rfl⟩ <;> exact hp.fb
  · obtain rfl := Host.Outcome.next.inj (e'.symm.trans e)
    rcases hu with ⟨f, rfl⟩ | ⟨q, rfl⟩ <;> simp
  · obtain rfl := Host.Outcome.next.inj (e'.symm.trans e)
    rw [((h.settle (hb.legal h)).drive _).2 (by simpa using hr), settle_fb]

/-- Every step of the machine keeps the invariant and a READY driver (R38). -/
theorem step_inv {s t : State} (h : s.Inv) (e : step s = .next t) :
    t.Inv ∧ (s.fb.state = .ready → t.fb = s.fb) := by
  obtain ⟨u, hu, hR⟩ := step_rel (R := fun s t => s.Inv → t.Inv ∧ (s.fb.state = .ready → t.fb = s.fb)) s t e
    (fun _ h => ⟨h, fun _ => rfl⟩) (fun _ r h => ⟨(h.markRefused r).ended, fun _ => by simp⟩)
    (fun _ _ h => h.cpuTick) (fun c _ h => ⟨h.copStep c, fun _ => by simp⟩)
    fun _ _ _ e h => ⟨exec_inv h e, exec_fb_ready h e⟩
  rcases hu with rfl | ⟨ts, rfl⟩
  · exact hR h
  · exact hR (h.withSched ts)

end Sys2Proof.Machine
end

section
/-! SUPPORT. An operation turn by turn (R22, R60): a run under a schedule is its turns taken one at a time, and an
operation begins in the same state under every schedule. -/

namespace Sys2Proof.Machine

/-- Nothing is recorded, or the operation is over: a step of an operation that records a mark ends it (R176). -/
def State.Running (s : State) : Prop := s.Unmarked ∨ s.cpu = []

theorem State.Running.cpuTick {s : State} (h : s.Running) : (cpuTick s).Running := by
  rcases hc : s.cpu with _ | ⟨m, ms⟩
  · rw [cpuTick_nil hc]; exact h
  · exact (cpuTick_cases hc).unmarked (h.resolve_right (by simp [hc]))

theorem State.Running.copStep {s : State} (h : s.Running) (e : CopStep) : (copStep e s).Running := by
  unfold State.Running State.Unmarked at *
  simpa using h

/-- CPU steps of an operation are turns of the CPU, as many as it has until its end. -/
theorem turns_replicate_cpu (n : Nat) {s : State} (hs : s.sched = []) (h : s.Running) :
    ∃ k, turns (List.replicate k .cpu) s = cpuTicks n s := by
  induction n generalizing s with
  | zero => exact ⟨0, rfl⟩
  | succ n ih =>
    by_cases hc : s.cpu = []
    · exact ⟨0, (cpuTicks_fixed (cpuTick_nil hc) _).symm⟩
    · obtain ⟨k, hk⟩ := ih (s := Machine.cpuTick s) (by simp [hs]) h.cpuTick
      refine ⟨k + 1, ?_⟩
      rw [List.replicate_succ, turns, turnStep_cpu (h.resolve_right hc) hc, State.withSched_self (by simp [hs]), hk]
      rfl

/-- A run under a schedule is the turns it uses, one by one; where the schedule has ended, turns of the CPU (R22). -/
theorem drive_eq_turns (ts : List Turn) {s : State} (h : s.Running) :
    ∃ used k, ts = used ++ (drive ts s).sched ∧ (k = 0 ∨ (drive ts s).sched = []) ∧
      turns (used ++ List.replicate k .cpu) (s.withSched []) = (drive ts s).withSched [] := by
  induction ts generalizing s with
  | nil =>
    have hn : (alone (s.withSched [])).sched = [] := by rw [alone_withSched]; rfl
    obtain ⟨k, hk⟩ := turns_replicate_cpu (s.withSched []).fuel (s := s.withSched []) rfl h
    rw [drive_nil]
    exact ⟨[], k, by rw [hn]; rfl, .inr hn, by rw [State.withSched_self hn]; exact hk⟩
  | cons t ts ih =>
    by_cases hc : s.cpu = []
    · rw [drive_over _ hc]
      exact ⟨[], 0, rfl, .inl rfl, rfl⟩
    cases t with
    | cpu =>
      obtain ⟨used, k, hs, hk, ht⟩ := ih h.cpuTick
      rw [drive_cpu _ hc]
      refine ⟨.cpu :: used, k, congrArg _ hs, hk, ?_⟩
      rw [List.cons_append, turns, turnStep_cpu (s := s.withSched []) (h.resolve_right hc) hc, cpuTick_withSched]
      exact ht
    | cop e =>
      obtain ⟨used, k, hs, hk, ht⟩ := ih (h.copStep e)
      rw [drive_cop _ _ hc]
      refine ⟨.cop e :: used, k, congrArg _ hs, hk, ?_⟩
      rw [List.cons_append, turns, turnStep_cop, copStep_withSched]
      exact ht
    | pause =>
      rw [drive_pause _ hc]
      exact ⟨[.pause], 0, rfl, .inl rfl, rfl⟩

theorem settle_withSched (ms : List Micro) (s : State) (ts : List Turn) :
    settle ms (s.withSched ts) = (settle ms s).withSched ts := by
  have h := settle_over s s.dev s.cop s.mem ts ms
  rw [show s.withSched ts = s.over s.dev s.cop s.mem ts from rfl, h]
  simp [State.over, State.withSched]

/-- Begun under a schedule that pauses at once, an operation has done nothing but begin. -/
theorem drive_pause_begins (s : State) : (drive [.pause] s).withSched [] = s.withSched [] := by
  by_cases hc : s.cpu = []
  · rw [drive_over _ hc]; rfl
  · rw [drive_pause _ hc]; rfl

/-- Settled work is as little marked as the state was. -/
theorem running_settle {s : State} (h : s.Unmarked) (ms : List Micro) : (settle ms s).Running :=
  .inl ⟨by simpa using h.1, by simpa using h.2⟩

/-- `exec i s` is its turns one by one: what it answers is reached from where the operation begins by the turns it uses
and, where the schedule has ended, turns of the CPU. -/
def TurnByTurn (i : Instr) (s : State) : Prop :=
  ∃ (t l : State) (used : List Turn) (k : Nat),
    exec i s = .next t ∧ exec i (s.withSched [.pause]) = .next l ∧ s.sched = used ++ t.sched ∧ (k = 0 ∨ t.sched = []) ∧
    turns (used ++ List.replicate k .cpu) (l.withSched []) = t.withSched []

/-- An operation that leaves the schedule as it is takes no turn. -/
theorem turnByTurn_atOnce {i : Instr} {s t : State} (ht : t.sched = s.sched) (h : exec i s = .next t)
    (hp : exec i (s.withSched [.pause]) = .next (t.withSched [.pause])) : TurnByTurn i s :=
  ⟨t, _, [], 0, h, hp, ht.symm, .inl rfl, rfl⟩

theorem exec_turnByTurn (i : Instr) {s : State} (hu : s.Unmarked) : TurnByTurn i s := by
  rcases exec_shape i with ⟨f, he, -, hfree, -⟩ | ⟨f, he, -, hapart⟩
  case access =>
    obtain ⟨t, h1, h2⟩ := hfree s [.pause]
    obtain ⟨u, h3, h4⟩ := hfree s s.sched
    have ht : t = u.withSched s.sched := Host.Outcome.next.inj (h1.symm.trans h4)
    exact turnByTurn_atOnce (by rw [ht]; rfl) ((he s).trans h1) ((he _).trans h2)
  case work =>
    rcases hapart s with ⟨r, h⟩ | ⟨e, h⟩ | ⟨ms, h⟩
    · have h0 : f s = refuse r s := h s.sched
      exact turnByTurn_atOnce (t := (s.markRefused r).ended) (by simp) (by rw [he, h0, launch_refuse])
        (by rw [he, h, launch_refuse, State.markRefused_withSched]; rfl)
    · have h0 : f s = raise e s := h s.sched
      exact turnByTurn_atOnce (t := (s.markFault e).ended) (by simp) (by rw [he, h0, launch_raise])
        (by rw [he, h, launch_raise, State.markFault_withSched]; rfl)
    · have h0 : f s = .ok ms s := h s.sched
      obtain ⟨used, k, hs, hk, ht⟩ := drive_eq_turns s.sched (running_settle hu ms)
      refine ⟨_, _, used, k, by rw [he, h0, launch_ok], by rw [he, h, launch_ok], hs, hk, ?_⟩
      rw [State.withSched_sched, drive_pause_begins, settle_withSched]
      exact ht

end Sys2Proof.Machine
end

section
/-! SUPPORT. What every operation and every step keep (R20, R40, R41), where the position goes (R22), who makes the driver
READY (R146), and the dispatch of the decoded instruction (R13). -/

namespace Sys2Proof.Machine

/-! ## Marks, parameters and the caller's sequence -/

/-- What every step keeps: parameters, the caller's sequence, and the marks. -/
structure Kept (s t : State) : Prop where
  cfg   : t.cfg = s.cfg
  ops   : t.ops = s.ops
  marks : MarksKept s t

theorem Part.kept {s t : State} (h : Part s t) : Kept s t := ⟨h.cfg, h.ops, h.marks⟩

theorem Kept.ended {s t : State} (h : Kept s t) : Kept s t.ended :=
  ⟨h.cfg, h.ops, h.marks.trans (.of_eq rfl rfl)⟩

theorem Kept.returned {s t : State} (h : Kept s t) (r : Result) : Kept s (t.returned r) :=
  ⟨h.cfg, h.ops, h.marks.trans (.of_eq rfl rfl)⟩

theorem exec_kept {i : Instr} {s t : State} (e : exec i s = .next t) : Kept s t := by
  rcases exec_next i s with ⟨r, e', hp⟩ | ⟨u, e', hu⟩ | ⟨ms, -, e'⟩
  · rcases conclude_cases (e'.symm.trans e) with rfl | ⟨a, rfl⟩
    · exact hp.kept.ended
    · exact hp.kept.returned a
  · obtain rfl := Host.Outcome.next.inj (e'.symm.trans e)
    rcases hu with ⟨f, rfl⟩ | ⟨q, rfl⟩
    · exact (Part.mF s f).kept.ended
    · exact (Part.mR s q).kept.ended
  · obtain rfl := Host.Outcome.next.inj (e'.symm.trans e)
    have k := driven_drive s.sched (settle ms s)
    exact ⟨by simp [k.cfg], by simp [k.ops], (entered_settle ms s).marks.trans k.marks⟩

theorem step_kept {s t : State} (e : step s = .next t) : Kept s t := by
  obtain ⟨u, hu, h⟩ := step_rel (R := Kept) s t e (fun s => (Part.refl s).kept) (fun s r => (Part.mR s r).kept.ended)
    (fun s _ => ⟨by simp, by simp, (cpuTick_ticked s).marks⟩) (fun c s => (Part.cop c s).kept)
    fun _ _ _ e => exec_kept e
  rcases hu with rfl | ⟨ts, rfl⟩
  · exact h
  · exact ⟨h.cfg, h.ops, h.marks.fault, h.marks.refused, h.marks.oneMark⟩

/-! ## Who makes the driver READY -/

/-- The success test of FB_INIT is that of the instruction `i`, with its operands. -/
def Task.Of (i : Instr) : Task → Prop
  | .fbInit w h d _ _ => i = .fbInit w h d
  | .call | .pmCall => True

/-- A piece of FB_INIT that carries its operands belongs to the instruction `i`. -/
def Micro.Of (i : Instr) : Micro → Prop
  | .verify _ task | .propertyCall _ task => task.Of i
  | .allocTag w h d | .pitchTag w h d _ | .readBus w h d _ _ | .readSize w h d _ _ _ | .readPitch w h d _ _ _ =>
    i = .fbInit w h d
  | .pollFull _ _ | .pollEmpty _ _ | .builder _ | .word _ _ | .addTag _ _ _ | .finish | .pixels _ | .byte _ _
  | .text _ _ _ _ _ _ | .ret _ => True

theorem Micro.of_isLocal {m : Micro} (i : Instr) (h : m.isLocal = true) : m.Of i := by
  cases m with
  | builder | word | addTag | finish | pixels | byte | text | ret => trivial
  | _ => cases h

/-- What a piece leaves belongs to its instruction. -/
theorem Micro.Leaves.of {s : State} {m n : Micro} {i : Instr} (h : m.Leaves s n) (hm : m.Of i) : n.Of i := by
  cases h with
  | buffer _ _ hn => exact Micro.of_isLocal i hn
  | pollFull | pollEmpty => trivial
  | self | verify | pitchTag | propertyCall | readBus | readSize | readPitch => exact hm

/-- The work an instruction begins belongs to it. -/
theorem Begun.of {i : Instr} {s : State} {ms : List Micro} (h : Begun i s ms) : ∀ m ∈ ms, m.Of i := by
  cases h with
  | init w h d _ _ hi => simp [beginWork, Micro.Of, hi]
  | buffer _ _ hl => exact fun m hm => Micro.of_isLocal i (hl m hm)
  | _ => simp [Micro.Of, Task.Of]

/-- The instruction is FB_INIT, and the driver has the width, height and depth it was given, and true has been
returned (R141). -/
def MadeReady (i : Instr) (s t : State) : Prop :=
  ∃ w h d, i = .fbInit w h d ∧ t.fb.desc.width = w ∧ t.fb.desc.height = h ∧ t.fb.desc.depth = d ∧
    t.results = s.results ++ [.flag true]

/-- Either the operation `i` is under way with the driver UNINIT and nothing returned, or it is over, and where it left
the driver READY it is FB_INIT. -/
def InitRun (i : Instr) (s t : State) : Prop :=
  (t.fb.state = .uninit ∧ t.results = s.results ∧ ∀ m ∈ t.cpu, m.Of i) ∨
  (t.cpu = [] ∧ (t.fb.state = .ready → MadeReady i s t))

/-- Where an operation comes with the driver still UNINIT. -/
theorem Progress.initRun {i : Instr} {s t u : State} (h : Progress t u) (hr : t.results = s.results)
    (hf : u.fb.state = .uninit) (hm : ∀ m ∈ u.cpu, m.Of i) : InitRun i s u := by
  rcases h with ⟨-, -, hu⟩ | ⟨hc, -, -⟩
  · exact .inl ⟨hf, hu.trans hr, hm⟩
  · exact .inr ⟨hc, fun hready => by rw [hf] at hready; cases hready⟩

theorem InitRun.cpuTick {i : Instr} {s t : State} (h : InitRun i s t) : InitRun i s (cpuTick t) := by
  rcases hc : t.cpu with _ | ⟨m, ms⟩
  · rw [cpuTick_nil hc]; exact h
  rcases h with ⟨hf, hr, hm⟩ | ⟨hc', -⟩
  case inr => rw [hc] at hc'; cases hc'
  have hm : ∀ n ∈ m :: ms, n.Of i := hc ▸ hm
  have progress := cpuTick_progress (s := t) (by simp [hc])
  have ht := cpuTick_cases hc
  generalize Machine.cpuTick t = u at progress ht
  cases ht with
  | refuse r => exact .inr ⟨rfl, fun h => by simp [hf] at h⟩
  | raise f => exact .inr ⟨rfl, fun h => by simp [hf] at h⟩
  | work u ha ns hn =>
    obtain ⟨hfb, -, -, -⟩ := ha.frame
    refine progress.initRun hr (by rw [settle_fb, hfb, hf]) fun n hin => ?_
    rcases hn n (settle_cpu_mem n hin) with hin | hlv
    · exact hm n (List.mem_cons_of_mem _ hin)
    · exact hlv.of (hm m List.mem_cons_self)
  | ready w h d bus size pitch oP hp =>
    subst hp
    exact .inr ⟨rfl, fun _ => ⟨w, h, d, hm _ List.mem_cons_self, rfl, rfl, rfl, by simp [hr]⟩⟩

/-- Where the run of an operation's work stops (R22). -/
theorem drive_initRun {i : Instr} {s t : State} (ts : List Turn) (h : InitRun i s t) : InitRun i s (drive ts t) :=
  drive_induct (fun _ hu => hu.cpuTick)
    (fun e u _ hu => by
      unfold InitRun MadeReady at *
      simpa using hu)
    (fun _ _ hu => hu) ts t h

/-! ## Dispatch -/

/-- The CPU's step of a machine that is not stopped and between operations runs the instruction at its position. -/
theorem cpuStep_decoded {s : State} {item : Issue} {i : Instr} (hu : s.Unmarked) (hc : s.cpu = [])
    (hi : s.ops[s.pos]? = some item) (hd : decode s.cfg item = .ok i) : cpuStep s = exec i s := by
  obtain ⟨hf, hr⟩ := hu
  simp only [cpuStep, hf, hr, hc, List.isEmpty_nil, if_true, issue, State.fetch, hi, hd]

end Sys2Proof.Machine
end

section
/-! SUPPORT. The obligations of the machine, settled from the facts above. -/

namespace Sys2Proof.Machine

/-- Settles O55: each operation, each CPU step inside one and each coprocessor step keeps the invariant. -/
theorem everyStepKeepsTheInvariant : Obligations.EveryStepKeepsTheInvariant :=
  fun _ _ h e => (step_inv h e).1

/-- Settles O48: an access uses no turn; work is driven, and a run is its turns (`drive_eq_turns`). -/
theorem operationsAreTheirTurns : Obligations.OperationsAreTheirTurns := fun i _ hu => exec_turnByTurn i hu

/-- Settles O50: steps and operations keep what is recorded (`step_kept`, `exec_kept`). -/
theorem marksAreSticky : Obligations.MarksAreSticky := by
  intro s t e
  have h : MarksKept s t := by
    rcases e with e | ⟨i, e⟩
    · exact (step_kept e).marks
    · exact (exec_kept e).marks
  exact ⟨h.fault, h.refused⟩

/-- Settles O51: an access or a mark ends the operation; work that is driven is over or under way (`drive_progress`), and
under way only where it was paused or waits in a poll loop (`drive_waiting`). -/
theorem positionAdvancesByOneOrWaits : Obligations.PositionAdvancesByOneOrWaits := by
  intro i s
  rcases exec_next i s with ⟨r, e, hp⟩ | ⟨u, e, hu⟩ | ⟨ms, -, e⟩
  · obtain ⟨t, ht, hc, hpos⟩ := conclude_next r
    exact ⟨t, e.trans ht, .inl ⟨hc, by rw [hpos, hp.pos]⟩⟩
  · exact ⟨_, e, .inl ⟨rfl, by rcases hu with ⟨f, rfl⟩ | ⟨q, rfl⟩ <;> simp⟩⟩
  · refine ⟨_, e, ?_⟩
    have begun : Progress s (settle ms s) := settle_progress ms s
    have progress : Progress s (drive s.sched (settle ms s)) := by
      by_cases hc : (settle ms s).cpu = []
      · rw [drive_over _ hc]; exact begun
      · rcases begun with ⟨-, hpos, hres⟩ | ⟨hc', -⟩
        · exact (drive_progress _ _ hc).congr hpos hres
        · exact absurd hc' hc
    rcases progress with ⟨hc, hpos, hres⟩ | ⟨hc, hpos, -⟩
    · exact .inr ⟨hc, hpos, hres, drive_waiting _ _ hc⟩
    · exact .inl ⟨hc, hpos⟩

/-- Settles O52: under the invariant the pieces of FB_INIT, the only ones that write the driver, are under way only
while it is UNINIT. -/
theorem readyDescriptorIsImmutable : Obligations.ReadyDescriptorIsImmutable :=
  fun _ _ h e hr => (step_inv h e).2 hr

/-- Settles O53: an access and the checks leave the driver alone, and work that makes it READY is that of FB_INIT,
at its last read-back (`InitRun.cpuTick`). -/
theorem onlyInitializeMakesReady : Obligations.OnlyInitializeMakesReady := by
  intro i s t e hs ht
  have other : t.fb ≠ s.fb := fun h => by rw [h, hs] at ht; cases ht
  rcases exec_next i s with ⟨r, e', hp⟩ | ⟨u, e', hu⟩ | ⟨ms, hb, e'⟩
  · rcases conclude_cases (e'.symm.trans e) with rfl | ⟨a, rfl⟩ <;> exact absurd hp.fb other
  · obtain rfl := Host.Outcome.next.inj (e'.symm.trans e)
    rcases hu with ⟨f, rfl⟩ | ⟨q, rfl⟩ <;> simp at other
  · obtain rfl := Host.Outcome.next.inj (e'.symm.trans e)
    have begun : InitRun i s (settle ms s) :=
      (settle_progress ms s).initRun rfl (by rw [settle_fb, hs]) fun m hm => hb.of m (settle_cpu_mem m hm)
    rcases drive_initRun s.sched begun with ⟨hf, -, -⟩ | ⟨-, made⟩
    · rw [hf] at ht; cases ht
    · exact made ht

/-- Settles O54: steps and operations keep parameters and sequence (`step_kept`). -/
theorem parametersAndProgramAreFixed : Obligations.ParametersAndProgramAreFixed :=
  fun _ _ e => ⟨(step_kept e).cfg, (step_kept e).ops⟩

/-- Settles O6: bits 31 and 30 of a STATUS read are FULL and EMPTY, and the success flag is bit 31 of word 1. -/
theorem flagRowsTestTheirFlags : Obligations.FlagRowsTestTheirFlags := by
  intro s
  refine ⟨fun p hp => ?_, fun p hp => ?_⟩ <;> simp only [List.mem_cons, List.not_mem_nil, or_false] at hp <;>
    rcases hp with rfl | rfl
  · show conclude (.ok (.flag (s.statusWord.getLsbD 31)) (s.withDrawn (s.drawn + 1))) = _
    rw [statusWord_bit31, State.full_eq]; rfl
  · show conclude (.ok (.flag (s.statusWord.getLsbD 30)) (s.withDrawn (s.drawn + 1))) = _
    rw [statusWord_bit30, State.empty_eq]; rfl
  · show conclude (.ok (.flag (success (s.word 1))) s) = _
    simp only [success_eq_bit31, beq_true]; rfl
  · show conclude (.ok (.flag (!success (s.word 1))) s) = _
    simp only [success_eq_bit31, beq_false]; rfl

/-- Settles O46: on the CPU's turn the step is the CPU's, which dispatches the decoded instruction. -/
theorem stepRunsTheDecodedInstruction : Obligations.StepRunsTheDecodedInstruction := by
  intro s item i hu hc hi hd
  refine ⟨fun hs => ?_, fun rest hs => ?_⟩
  · simp only [step, hs, cpuStep_decoded hu hc hi hd]
  · simp only [step, hs]
    exact cpuStep_decoded (s := s.withSched rest) hu hc hi hd

end Sys2Proof.Machine
end

section
/-! SUPPORT. What a drawing operation leaves of the state (R51, R143, R175): every drawing operation ends at a refusal of
its checks or where one run of pixels ends (`drawing_ends`), and either end changes the framebuffer region alone. -/

namespace Sys2Proof.Machine

variable {s : State}

/-! ## What a mark leaves -/

theorem State.markFault_frame (f : Fault) : s.markFault f = { s with fault := (s.markFault f).fault } := by
  unfold State.markFault; split <;> rfl

theorem State.markRefused_frame (r : Refusal) : s.markRefused r = { s with refused := (s.markRefused r).refused } := by
  unfold State.markRefused; split <;> rfl

/-! ## Where drawing ends -/

/-- Where a drawing operation ends when the coprocessor takes no step: at a refusal of its checks, or where a run of
pixels ends, with its first fault if it has one. -/
inductive DrawingEnds (s : State) : State → Prop where
  | refused (r : Refusal) : DrawingEnds s (s.markRefused r).ended
  | pixels (ps : List Pixel) : DrawingEnds s (s.drew (painted s.fb.desc ps s.mem) [.ret .none])

theorem paint_ends (hs : s.sched = []) (ps : List Pixel) : ∃ t, paint ps s = .next t ∧ DrawingEnds s t := by
  rcases checkDrawable_cases s with ⟨r, h⟩ | ⟨hd, -⟩
  · exact ⟨_, by simp [paint, paintWork, h], .refused r⟩
  · exact ⟨_, paint_alone hd hs ps, .pixels ps⟩

theorem execFbDrawString_ends (hs : s.sched = []) (x y : Int) (text : List Byte) (fg bg : Color) :
    ∃ t, execFbDrawString x y text fg bg s = .next t ∧ DrawingEnds s t := by
  rcases checkDrawable_cases s with ⟨r, h⟩ | ⟨hd, h⟩
  · exact ⟨_, by simp [execFbDrawString, drawStringWork, h], .refused r⟩
  by_cases hn : 0#8 ∈ text
  · exact ⟨_, by simp [execFbDrawString, drawStringWork, h, hn], .refused .textNul⟩
  · exact ⟨_, execFbDrawString_alone hd hs x y hn fg bg, .pixels _⟩

/-- Four of the five drawing operations are pixel loops, and the fifth a character loop. -/
theorem drawing_ends (hs : s.sched = []) (x y w h : Int) (ch : Byte) (text : List Byte) (c d : Color) :
    ∀ i ∈ [Instr.fbPutPixel x y c, Instr.fbFillRect x y w h c, Instr.fbClear c, Instr.fbDrawChar x y ch c d,
           Instr.fbDrawString x y text c d], ∃ t, exec i s = .next t ∧ DrawingEnds s t := by
  simp only [List.forall_mem_cons]
  exact ⟨paint_ends hs _, paint_ends hs _, paint_ends hs _, paint_ends hs _, execFbDrawString_ends hs x y text c d,
    List.forall_mem_nil _⟩

/-! ## What it has changed there -/

/-- Beside memory only marks, position and results differ. -/
theorem DrawingEnds.frame {t : State} (h : DrawingEnds s t) :
    t = { s with mem := t.mem, fault := t.fault, refused := t.refused, cpu := [], pos := s.pos + 1,
                 results := t.results } := by
  cases h with
  | refused r => rw [State.markRefused_frame]; rfl
  | pixels ps =>
    cases hp : (painted s.fb.desc ps s.mem).2 with
    | none => rw [State.drew_none hp]; rfl
    | some f => rw [State.drew_some hp, State.markFault_frame]; rfl

theorem State.drew_mem (r : Memory × Option Fault) : (s.drew r [.ret .none]).mem = r.1 := by
  cases h : r.2 with
  | none => simp [State.drew_none h]
  | some f => simp [State.drew_some h]

/-- No byte outside the region is written, at a fault neither (R51, R175). -/
theorem DrawingEnds.readByte_other {t : State} (h : DrawingEnds s t) (a : Nat)
    (ha : a < s.fb.desc.buffer.toNat ∨ s.fb.desc.buffer.toNat + s.fb.desc.size.toNat ≤ a) :
    t.mem.readByte a = s.mem.readByte a := by
  cases h with
  | refused r => simp
  | pixels ps =>
    rw [State.drew_mem]
    exact readByte_painted_region _ ps _ a ha

/-- The message words are apart from the region where R59 holds. -/
theorem DrawingEnds.word {t : State} (h : DrawingEnds s t) (hd : s.RegionsDisjoint) {k : Nat}
    (hk : k < s.cfg.msgCapWords) : t.word k = s.word k := by
  have hcfg : t.cfg = s.cfg := by rw [h.frame]
  obtain ⟨apart, -⟩ := hd
  unfold Config.Params.bufferBytes at apart
  unfold State.word State.wordAddr
  rw [hcfg]
  exact Memory.readWord_congr _ fun b h1 h2 => h.readByte_other b (by omega)

end Sys2Proof.Machine
end

section
/-! SUPPORT. The obligations of memory (spec/20_memory.md): which bytes drawing may write, and which raw accesses are none
of the block's. -/

namespace Sys2Proof.Machine

/-- Settles O44: drawing ends at a refusal or where a run of pixels does (`drawing_ends`), and either leaves every byte
outside the region alone (`DrawingEnds.readByte_other`). -/
theorem drawingStaysInTheRegion : Obligations.DrawingStaysInTheRegion := by
  intro s x y w h ch text c d hs i hi
  obtain ⟨t, ht, ends⟩ := drawing_ends hs x y w h ch text c d i hi
  exact ⟨t, ht, ends.frame, ends.readByte_other, fun hd _ hk => ends.word hd hk⟩

/-- Settles O5: each register refuses every access but its own (`execRegRead_other` and its like). -/
theorem otherRawAccessRefused : Obligations.OtherRawAccessRefused := by
  intro s hf hr i hi
  have refused : exec i s = conclude (refuse .mmioOther s) := by
    rcases hi with ⟨a, ha, rfl | rfl⟩ | ⟨a, ha, rfl⟩
    · exact execRegRead_other ha s
    · exact execRegStatus_other ha s
    · exact execRegWrite_other ha s
  rw [refused, conclude_refuse, State.markRefused_of_unmarked s _ hf hr]
  rfl

end Sys2Proof.Machine
end

section
/-! SUPPORT. Encoded items read back (spec/30_encoding.md R70 to R76, R82): the decoder of an item's level, given the
item's bytes and any bytes after them, gives the instruction and those bytes; what no table has is an error by name. -/

namespace Sys2Proof

/-! ## Encoded items -/

/-- A list of words, read back. -/
theorem getList_putWords (ws : List Word) (rest : List Byte) :
    getList getWord (putNat ws.length ++ (putWords ws ++ rest)) = .ok (ws, rest) :=
  getList_put getWord_put ws rest

/-- A mailbox word's item names the row of its channel (R74, R77). -/
theorem decodeMailboxWord_wordIssue (k : BitVec 4) (m : WordMove) (a : BitVec 28) (rest : List Byte) :
    decodeMailboxWord ((wordIssue k m a).bytes ++ rest) = .ok (mailboxInstr k m a, rest) := by
  rw [wordIssue, List.append_assoc, decodeMailboxWord, Parsed.andThen_ok (getWord_put _ _),
    Parsed.andThen_ok (getMove_put _ _), chanField_wordOfFields, addrField_wordOfFields]

/-- The row of a raw access by its register (R72). -/
def registerInstr : Config.Register → RawAccess → Instr
  | .read => .regRead
  | .status => .regStatus
  | .write => .regWrite

/-- A raw access's item names the register at its offset (R72). -/
theorem decodeRegister_registerIssue {p : Config.Params} (hp : p.Wf) (r : Config.Register) {a : RawAccess}
    (ha : a.WellFormed = true) (rest : List Byte) :
    decodeRegister p ((registerIssue (p.offset r) a).bytes ++ rest) = .ok (registerInstr r a, rest) := by
  rw [registerIssue, List.append_assoc, decodeRegister, Parsed.andThen_ok (getWord_put _ _), registerAt_offset hp]
  cases r <;> exact Parsed.andThen_ok (getAccess_put a ha rest) _

/-- Every instruction's bytes, with any bytes after them, are read back at their level (R70). -/
theorem decodeAt_encode {p : Config.Params} (hp : p.Wf) {i : Instr} (hi : i.WellFormed = true) (rest : List Byte) :
    decodeAt p (encode p i).level ((encode p i).bytes ++ rest) = .ok (i, rest) := by
  cases i with
  | regRead a => exact decodeRegister_registerIssue hp .read hi rest
  | regStatus a => exact decodeRegister_registerIssue hp .status hi rest
  | regWrite a => exact decodeRegister_registerIssue hp .write hi rest
  | mboxWordCh0 m a | mboxWordCh1 m a | mboxWordCh2 m a | mboxWordCh3 m a | mboxWordCh4 m a | mboxWordCh5 m a
  | mboxWordCh6 m a | mboxWordCh7 m a | mboxWordCh8 m a | mboxWordCh9 m a | mboxWordCh10 m a | mboxWordCh11 m a
  | mboxWordCh12 m a | mboxWordCh13 m a | mboxWordCh14 m a | mboxWordCh15 m a =>
    exact decodeMailboxWord_wordIssue _ m a rest
  | statusFull | statusEmpty | respSuccess | respFailure | tagEnd | tagGetFirmwareRevision | tagGetBoardModel
  | tagGetBoardRevision | tagGetBoardMacAddress | tagGetBoardSerial | tagGetArmMemory | tagGetVcMemory | tagGetPitch
  | mmioRdStatus | mmioRdRead | pmBegin | pmFinish => rfl
  | tagGetClockRate _ | tagSetClockRate _ _ _ | tagAllocateBuffer _ | tagSetPhysicalSize _ _ | tagSetVirtualSize _ _
  | tagSetDepth _ | tagSetVirtualOffset _ _ =>
    simp [encode, decodeAt, tagIssue, putWords, decodeTag, getWord_put, Config.tagEnd, Config.tagGetFirmwareRevision,
      Config.tagGetBoardModel, Config.tagGetBoardRevision, Config.tagGetBoardMacAddress, Config.tagGetBoardSerial,
      Config.tagGetArmMemory, Config.tagGetVcMemory, Config.tagGetClockRate, Config.tagSetClockRate,
      Config.tagAllocateBuffer, Config.tagGetPitch, Config.tagSetPhysicalSize, Config.tagSetVirtualSize,
      Config.tagSetDepth, Config.tagSetVirtualOffset]
  | mmioWrWrite _ | mbSend _ _ | mbReceive _ | mbCall _ _ | pmAddTag _ _ _ | pmCall _ | pmRead _ | fbBusToCpu _
  | fbInit _ _ _ | fbPutPixel _ _ _ | fbFillRect _ _ _ _ _ | fbClear _ | fbDrawChar _ _ _ _ _
  | fbDrawString _ _ _ _ _ =>
    simp [encode, decodeAt, opIssue, decodeOperation, getWord_put, getNat_put, getInt_put, getColor_put,
      getList_putWords, getList_putBytes]

/-! ## Items outside the tables -/

/-- A selector that is none of R71's is an error, whatever follows it. -/
theorem decodeOperation_unknown {sel : Byte} (operands : List Byte) (h : sel.toNat ∉
    [0x01, 0x02, 0x03, 0x10, 0x11, 0x12, 0x20, 0x21, 0x22, 0x23, 0x24, 0x30, 0x31, 0x32, 0x33, 0x34, 0x40, 0x41]) :
    decodeOperation (sel :: operands) = .error (.unknownSelector sel) := by
  rw [decodeOperation, getByte_cons, Parsed.ok_andThen]
  split <;> simp_all

/-- An offset at which no register stands is an error, whatever follows it (R72). -/
theorem decodeRegister_unknown {p : Config.Params} {off : Word} (access : List Byte)
    (h : off ∉ [p.offRead, p.offStatus, p.offWrite]) :
    decodeRegister p (bytesOfWord off ++ access) = .error (.unknownOffset off) := by
  rw [decodeRegister, Parsed.andThen_ok (getWord_put _ _), registerAt_none h]

/-- What a level's decoder rejects is no item's instruction. -/
theorem decode_of_error {p : Config.Params} {iss : Issue} {e : DecodeError}
    (h : decodeAt p iss.level iss.bytes = .error e) : decode p iss = .error e := by
  unfold decode
  rw [h]

/-! ## The parts of a mailbox word -/

/-- The address part of a word keeps its ADDR field (R74, R76). -/
theorem addrField_addrOf (w : Word) : addrField (addrOf w) = addrField w := by
  apply BitVec.eq_of_getLsbD_eq; intro i hi
  simp only [addrField, addrOf, BitVec.getLsbD_extractLsb', BitVec.getLsbD_and,
    Machine.highMask_getLsbD (4 + i) (by omega)]
  simp

/-- The channel part of a word keeps its CHAN field (R74, R76). -/
theorem chanField_chanOf (w : Word) : chanField (chanOf w) = chanField w := by
  apply BitVec.eq_of_getLsbD_eq; intro i hi
  simp only [chanField, chanOf, BitVec.getLsbD_extractLsb', BitVec.getLsbD_and,
    Machine.lowMask_getLsbD (0 + i) (by omega)]
  simp [hi]

/-- A word is its address part and its channel part put together (R75, R76). -/
theorem assemble_addrOf_chanOf (w : Word) : assemble (addrOf w) (chanOf w) = w := by
  rw [Machine.assemble_aligned _ (Machine.addrOf_aligned w), addrOf, chanOf, ← BitVec.and_or_distrib_left]
  exact BitVec.and_allOnes

end Sys2Proof
end

section
/-! SUPPORT. The tag table in the buffer (R82): the block that `add_tag` leaves (R79, R121), and the response words a
caller reads back (R124). -/

namespace Sys2Proof.Machine

variable {s : State}

/-! ## The tag blocks -/

/-- `add_tag` in a build with room for its block (R79, R121): the block stands in the buffer, and no byte beside it
changes. -/
theorem addTag_block {id vbuf : Word} {req values : List Word} (hw : s.cfg.Wf) (hs : s.sched = [])
    (hp : s.pm.phase = .building) (hid : id ≠ 0#32) (hr : req.length ≤ ceilDiv4 vbuf.toNat)
    (hv : valueWords (ceilDiv4 vbuf.toNat) req = values)
    (hf : s.pm.cursor + 3 + values.length ≤ s.cfg.msgCapWords) :
    ∃ m : Memory,
      addTag id vbuf req s = .next { s with
        mem := m, pm := ⟨.building, s.pm.cursor + 3 + values.length⟩, cpu := [], pos := s.pos + 1,
        results := s.results ++ [.offset (s.pm.cursor + 3)] } ∧
      (∀ k, k < 3 + values.length → (id :: vbuf :: 0#32 :: values)[k]? =
        some (m.readWord (s.cfg.msgBufAddr.toNat + 4 * (s.pm.cursor + k)))) ∧
      ∀ b, b < s.cfg.msgBufAddr.toNat + 4 * (s.pm.cursor + 0) ∨
          s.cfg.msgBufAddr.toNat + 4 * (s.pm.cursor + (3 + values.length)) ≤ b →
        m.readByte b = s.mem.readByte b := by
  have hn : ceilDiv4 vbuf.toNat = values.length := by rw [← hv, length_valueWords hr]
  have hblock : (id :: vbuf :: 0#32 :: values).length = 3 + values.length := by simp; omega
  refine ⟨(s.setWords s.pm.cursor (id :: vbuf :: 0#32 :: values)).mem, ?_, fun k hk => ?_, fun b hb => ?_⟩
  · rw [addTag_alone hs hp hid hr (by omega), hv, hn]
    rfl
  · rw [List.getElem?_eq_getElem (by omega), ← word_setWords hw (i := s.pm.cursor) (by omega) (by omega)]
    rfl
  · exact Memory.readByte_writeWords_other _ _ _ _ (by unfold State.wordAddr; omega)

/-! ## The responses -/

/-- An entry of a payload that is a word is the word its bytes spell (R54, R82). -/
theorem readField_word {f : Config.Field} (hf : f.byteCount = 4) (v : Word) (rest : List Byte) :
    readField f (bytesOfWord v ++ rest) = some (.word v, rest) := by
  have h : some (FieldValue.word (wordOfBytes (byteOf v 0) (byteOf v 1) (byteOf v 2) (byteOf v 3)), rest) =
    some (.word v, rest) := by rw [wordOfBytes_byteOf]
  cases f with
  | macAddress | serial => cases hf
  | _ => exact h

/-- Entries that are words are the payload's first words, in order (R82). -/
theorem readFields_words {fs : List Config.Field} (hf : ∀ f ∈ fs, f.byteCount = 4) {vs : List Word}
    (hl : fs.length ≤ vs.length) :
    readFields fs (vs.flatMap bytesOfWord) = some (fs.zip (vs.map .word)) := by
  induction fs generalizing vs with
  | nil => rfl
  | cons f fs ih =>
    obtain ⟨hf1, hfs⟩ := List.forall_mem_cons.mp hf
    cases vs with
    | nil => cases hl
    | cons v vs =>
      rw [List.flatMap_cons, readFields, readField_word hf1]
      simp [ih hfs (Nat.le_of_succ_le_succ hl)]

/-- The response of a row whose entries are all words (R82, R124). -/
theorem response_words {row : Config.TagRow} (hf : ∀ f ∈ row.response, f.byteCount = 4)
    (hl : row.response.length ≤ ceilDiv4 row.vbuf.toNat) (s : State) (o : Nat) :
    s.response row o = some (row.response.zip
      (((List.range (ceilDiv4 row.vbuf.toNat)).map fun k => s.word (o + k)).map .word)) :=
  readFields_words hf (by simpa using hl)

/-- The payload of a row of two value words is their eight bytes (R54, R79). -/
theorem response_twoWords {row : Config.TagRow} (hn : ceilDiv4 row.vbuf.toNat = 2) (s : State) (o : Nat) :
    s.response row o = readFields row.response (bytesOfWord (s.word o) ++ bytesOfWord (s.word (o + 1))) := by
  rw [State.response, readResponse, hn]
  simp [List.range_succ]

/-- The 6 bytes of the MAC address are the first 6 of its two value words, in memory order (R82). -/
theorem response_macAddress (s : State) (o : Nat) :
    s.response Config.tagGetBoardMacAddress o = some [(.macAddress, .bytes
      ((List.range 6).map fun k => s.mem.readByte (s.cfg.msgBufAddr.toNat + 4 * o + k)))] := by
  rw [response_twoWords rfl, State.word, State.word, bytesOfWord_readWord, bytesOfWord_readWord]
  rfl

/-- The serial's low word is the first of its two value words (R82). -/
theorem response_serial (s : State) (o : Nat) :
    s.response Config.tagGetBoardSerial o = some [(.serial, .wide (s.word (o + 1) ++ s.word o))] := by
  rw [response_twoWords rfl, ← wordOfBytes_byteOf (s.word o), ← wordOfBytes_byteOf (s.word (o + 1)),
    bytesOfWord_wordOfBytes, bytesOfWord_wordOfBytes]
  rfl

end Sys2Proof.Machine
end

section
/-! SUPPORT. The pixels of a drawing operation (R143 to R145, R161, R162): where their bytes stand at depth 32, that a
pixel loop is `put_pixel` of one pixel after another, and what a character's cells hold. -/

namespace Sys2Proof.Machine

variable {s : State}

/-! ## Pixels in bounds -/

/-- The offset of a pixel at depth 32 (R143). -/
theorem Descriptor.offset_depth32 {d : Descriptor} (h : d.depth = 32#32) (x y : Int) :
    d.offset x y = y.toNat * d.pitch.toNat + 4 * x.toNat := by
  rw [Descriptor.offset, h, Nat.mul_comm 4]
  rfl

/-- A region that holds every pixel faults at none (R143, R201). -/
theorem Descriptor.Fits.inside {d : Descriptor} (hf : d.Fits) (hd : d.depth = 32#32) {x y : Int}
    (hc : d.contains x y = true) : d.outside (d.offset x y) = false := by
  obtain ⟨hsize, hspace⟩ := hf
  obtain ⟨hx0, hx, hy0, hy⟩ := Descriptor.contains_iff.mp hc
  have rows : y.toNat * d.pitch.toNat ≤ (d.height.toNat - 1) * d.pitch.toNat := Nat.mul_le_mul_right _ (by omega)
  rw [Descriptor.outside_eq_false, Descriptor.offset_depth32 hd]
  omega

/-- Two different pixels have no byte in common, where the pitch keeps rows apart (R143). -/
theorem pixel_apart {W P i j k l : Nat} (hw : 4 * W ≤ P) (hi : i < W) (hk : k < W) (hne : ¬ (i = k ∧ j = l)) :
    j * P + 4 * i + 4 ≤ l * P + 4 * k ∨ l * P + 4 * k + 4 ≤ j * P + 4 * i := by
  rcases Nat.lt_trichotomy j l with h | rfl | h
  · have := Nat.mul_le_mul_right P (show j + 1 ≤ l from h)
    rw [Nat.succ_mul] at this; omega
  · omega
  · have := Nat.mul_le_mul_right P (show l + 1 ≤ j from h)
    rw [Nat.succ_mul] at this; omega

/-- An in-bounds pixel at natural coordinates (R143). -/
theorem Descriptor.contains_nat {d : Descriptor} {i j : Nat} :
    d.contains i j = true ↔ i < d.width.toNat ∧ j < d.height.toNat := by
  rw [Descriptor.contains_iff]; omega

/-! ## One pixel after another -/

/-- A pixel loop returns where it does not fault, and ends the operation at its fault otherwise (R174, R175). -/
theorem drew_unmarked (hu : s.Unmarked) (r : Memory × Option Fault) :
    s.drew r [.ret .none] = { s with
      mem := r.1, fault := r.2, cpu := [], pos := s.pos + 1,
      results := s.results ++ if r.2 = none then [.none] else [] } := by
  obtain ⟨hf, hr⟩ := hu
  cases h : r.2 with
  | none =>
    rw [State.drew_none h]
    simp [State.returned, State.withMem, hf]
  | some f =>
    rw [State.drew_some h, State.markFault_of_unmarked (s.withMem r.1) f hf hr]
    simp [State.ended, State.withMem]

/-- One pixel as an operation (R143). -/
theorem exec_putPixel (hd : s.Drawable) (hs : s.sched = []) (p : Pixel) :
    exec (.fbPutPixel p.x p.y p.color) s = .next (s.drew (painted s.fb.desc [p] s.mem) [.ret .none]) :=
  paint_alone hd hs [p]

/-- `put_pixel` of one pixel after another leaves the memory and the fault of the pixel loop (R174, R175). -/
theorem putEach_painted (ps : List Pixel) (hd : s.Drawable) (hs : s.sched = []) (hu : s.Unmarked) :
    (putEach ps s).mem = (painted s.fb.desc ps s.mem).1 ∧ (putEach ps s).fault = (painted s.fb.desc ps s.mem).2 := by
  induction ps generalizing s with
  | nil => exact ⟨rfl, hu.1⟩
  | cons p ps ih =>
    rw [← List.singleton_append, painted_append, List.singleton_append, putEach, exec_putPixel hd hs,
      drew_unmarked hu]
    cases hp : (painted s.fb.desc [p] s.mem).2 with
    | none =>
      have rest := ih (s := (s.withMem (painted s.fb.desc [p] s.mem).1).returned .none) hd hs hu
      simpa [State.returned, State.withMem, hu.1, hu.2] using rest
    | some f => simp [hp]

/-- Where the pixels ahead of one do not fault and that one is outside the region, a run faults there (R143, R174). -/
theorem painted_faults_at {d : Descriptor} {pre post : List Pixel} {q : Pixel} {m : Memory}
    (hpre : (painted d pre m).2 = none) (hc : d.contains q.x q.y = true) (ho : d.outside (d.offset q.x q.y) = true) :
    painted d (pre ++ q :: post) m =
      ((painted d pre m).1, some (.fbOutOfRegion q.x q.y (d.offset q.x q.y))) := by
  rw [painted_append, if_pos hpre, painted, if_pos hc, if_pos ho]

/-- `clear` is the pixel loop over the whole extent (R145). -/
theorem execFbClear_paint (c : Color) :
    execFbClear c s = paint (rectPixels 0 s.fb.desc.width.toNat 0 s.fb.desc.height.toNat c) s := by
  simp [execFbClear, fillRect]

/-! ## A character's cells -/

/-- The glyph of a character is FONT's for the codes 32 to 126 (R89, R160). -/
theorem glyphOf_eq (p : Config.Params) (ch : Byte) :
    glyphOf p ch = if h : 32 ≤ ch.toNat ∧ ch.toNat ≤ 126 then p.font[ch.toNat - 32] else p.fallback := by
  unfold glyphOf Config.glyphFirst Config.glyphLast
  split
  · rename_i hc
    rw [Vector.getElem?_eq_getElem (by omega), Option.getD_some]
  · rfl

/-- Row `r` of a glyph, as the pixel loop reads it (R90). -/
theorem glyphRow_eq (g : Glyph) (r : Fin 8) : g.toList.getD r 0#8 = g[r] := by
  rw [List.getD_eq_getElem _ _ (by simp)]
  simp

/-- An in-bounds cell of a character just painted has the colour of its glyph bit, where rows do not overlap (R161). -/
theorem colorAt_paintedChar {d : Descriptor} (hf : d.Fits) (hd : d.depth = 32#32)
    (hp : 4 * d.width.toNat ≤ d.pitch.toNat) (g : Glyph) {x y : Int} (fg bg : Color) (m : Memory) (row col : Fin 8)
    {i j : Nat} (hx : (i : Int) = x + col) (hy : (j : Int) = y + row) (hi : i < d.width.toNat) (hj : j < d.height.toNat) :
    (painted d (charPixels g x y fg bg) m).1.colorAt (d.buffer.toNat + (j * d.pitch.toNat + 4 * i)) =
      if g[row].getLsbD (7 - col) then fg else bg := by
  have hc : d.contains i j = true := Descriptor.contains_nat.mpr ⟨hi, hj⟩
  have hin := Descriptor.outside_eq_false.mp (hf.inside hd hc)
  have hoff : d.offset i j = j * d.pitch.toNat + 4 * i := Descriptor.offset_depth32 hd _ _
  rw [← glyphRow_eq]
  refine colorAt_painted d _ m _ _ (by omega) (painted_no_fault m fun p _ h => hf.inside hd h) (fun p hp' hpc => ?_)
    (.inr ⟨⟨i, j, _⟩, mem_charPixels.mpr ⟨row, col, row.isLt, col.isLt, hx, hy, rfl⟩, hc, by rw [hoff]⟩)
  obtain ⟨r, c, hr, hc8, hpx, hpy, hcol⟩ := mem_charPixels.mp hp'
  have hoffp := Descriptor.offset_depth32 hd p.x p.y
  obtain ⟨hx0, hxW, hy0, hyH⟩ := Descriptor.contains_iff.mp hpc
  by_cases same : p.x.toNat = i ∧ p.y.toNat = j
  · obtain ⟨hxi, hyj⟩ := same
    obtain rfl : r = row := by omega
    obtain rfl : c = col := by omega
    exact .inl ⟨by rw [hoffp, hxi, hyj], hcol⟩
  · have := pixel_apart (i := i) (j := j) (k := p.x.toNat) (l := p.y.toNat) hp hi (by omega) (by omega)
    exact .inr (by omega)

/-- A byte outside the in-bounds cells of a character keeps its value (R161). -/
theorem readByte_paintedChar_other {d : Descriptor} (hd : d.depth = 32#32) (g : Glyph) {x y : Int} (fg bg : Color)
    (m : Memory) (a : Nat)
    (h : ∀ i j : Nat, i < d.width.toNat → j < d.height.toNat →
      x ≤ (i : Int) → (i : Int) < x + 8 → y ≤ (j : Int) → (j : Int) < y + 8 →
      a < d.buffer.toNat + (j * d.pitch.toNat + 4 * i) ∨ d.buffer.toNat + (j * d.pitch.toNat + 4 * i) + 4 ≤ a) :
    (painted d (charPixels g x y fg bg) m).1.readByte a = m.readByte a := by
  refine readByte_painted_other d _ m a fun p hp hc _ => ?_
  obtain ⟨r, c, hr, hc8, hpx, hpy, -⟩ := mem_charPixels.mp hp
  obtain ⟨hx0, hxW, hy0, hyH⟩ := Descriptor.contains_iff.mp hc
  rw [Descriptor.offset_depth32 hd]
  exact h p.x.toNat p.y.toNat (by omega) (by omega) (by omega) (by omega) (by omega) (by omega)

end Sys2Proof.Machine
end

section
/-! SUPPORT. The CPU's turn at an item that decodes to nothing, and the obligations of the encoding
(spec/30_encoding.md). -/

namespace Sys2Proof.Machine

/-- An item that decodes to no instruction is refused on the CPU's turn, and the position moves on (R22, R173). -/
theorem cpuStep_undecoded {s : State} {item : Issue} {e : DecodeError} (hu : s.Unmarked) (hc : s.cpu = [])
    (hi : s.ops[s.pos]? = some item) (hd : decode s.cfg item = .error e) :
    cpuStep s = .next { s with refused := some (decodeRefusal e), pos := s.pos + 1 } := by
  obtain ⟨hf, hr⟩ := hu
  simp only [cpuStep, hf, hr, hc, List.isEmpty_nil, if_true, issue, State.fetch, hi, hd, conclude_refuse,
    State.markRefused_of_unmarked s _ hf hr, State.ended]

/-- On the CPU's turn the step is the CPU's, with the turn taken from the schedule (R13). -/
theorem step_cpuTurn {s : State} (h : s.sched = [] ∨ ∃ rest, s.sched = .cpu :: rest) :
    step s = cpuStep (s.withSched s.sched.tail) := by
  rcases h with h | ⟨rest, h⟩
  · simp only [step, h, List.tail_nil]
    rw [show s.withSched [] = s by rw [← h]; rfl]
  · simp only [step, h, List.tail_cons]

/-- Settles O59: every item's bytes are read back at its level with nothing left over (`decodeAt_encode`). -/
theorem decodeInvertsEncode : Obligations.DecodeInvertsEncode :=
  fun _ _ hp hi => decode_of (by simpa using decodeAt_encode hp hi [])

/-- Settles O7: the parts of the assembled word are those it was assembled from, and so are their fields. -/
theorem mailboxWordSplitsAsAssembled : Obligations.MailboxWordSplitsAsAssembled := by
  refine ⟨fun a c ha hc => ?_, fun w => ⟨assemble_addrOf_chanOf w, addrOf_aligned w, chanOf_toNat_le w⟩⟩
  have addr : addrOf (assemble a c) = a := addrOf_assemble ha hc
  have chan : chanOf (assemble a c) = c := chanOf_assemble hc
  refine ⟨chan, addr, ?_, ?_⟩
  · exact (addrField_addrOf _).symm.trans (congrArg addrField addr)
  · exact (chanField_chanOf _).symm.trans (congrArg chanField chan)

/-- Settles O24: each row is `add_tag` of the table's constants, and `add_tag` leaves its block (`addTag_block`). -/
theorem tagRowsWriteTheirBlocks : Obligations.TagRowsWriteTheirBlocks := by
  intro s u v w
  refine ⟨?_, ?_⟩
  · simp only [List.forall_mem_cons]
    exact ⟨rfl, rfl, rfl, rfl, rfl, rfl, rfl, rfl, rfl, rfl, rfl, rfl, rfl, rfl, rfl, List.forall_mem_nil _⟩
  · dsimp only
    simp only [List.forall_mem_cons]
    refine ⟨?_, ?_, ?_, ?_, ?_, ?_, ?_, ?_, ?_, ?_, ?_, ?_, ?_, ?_, ?_, List.forall_mem_nil _⟩ <;>
      exact fun hw hs hp => addTag_block hw hs hp (by decide) (Nat.le_of_ble_eq_true rfl) rfl

/-- Settles O31: all entries but the MAC address and the serial are words, read off in order (`response_words`). -/
theorem tagResponsesFollowTheTable : Obligations.TagResponsesFollowTheTable := by
  intro s o
  dsimp only
  simp only [List.forall_mem_cons]
  refine ⟨?_, ?_, ?_, response_macAddress s o, response_serial s o, ?_, ?_, ?_, ?_, ?_, ?_, ?_, ?_, ?_, ?_,
    List.forall_mem_nil _⟩ <;> exact response_words (by decide) (by decide) s o

/-- Settles O37: the pixel is in bounds and in the region, so the loop of one pixel writes its four bytes. -/
theorem putPixelWritesBGRA : Obligations.PutPixelWritesBGRA := by
  intro s x y c hd hs hx hy off hsize hspace
  have hoff : s.fb.desc.offset x y = off := Descriptor.offset_depth32 hd.2 x y
  have hc : s.fb.desc.contains x y = true := Descriptor.contains_iff.mpr (by omega)
  have ho : s.fb.desc.outside off = false := Descriptor.outside_eq_false.mpr ⟨hsize, hspace⟩
  have hp : painted s.fb.desc [⟨x, y, c⟩] s.mem = (s.mem.writePixel (s.fb.desc.buffer.toNat + off) c, none) := by
    simp [painted, hc, hoff, ho]
  have bytes := Memory.colorAt_writePixel_same s.mem _ c hspace
  refine ⟨s.mem.writePixel (s.fb.desc.buffer.toNat + off) c, ?_, congrArg Color.b bytes, congrArg Color.g bytes,
    congrArg Color.r bytes, congrArg Color.a bytes, fun a ha => Memory.readByte_writePixel_other _ _ _ _ ha⟩
  rw [exec_putPixel hd hs ⟨x, y, c⟩, hp, State.drew_none rfl]
  rfl

/-- Settles O42: no cell faults where the region holds every pixel, and the cells hold the glyph
(`colorAt_paintedChar`). -/
theorem drawCharPaintsGlyph : Obligations.DrawCharPaintsGlyph := by
  intro s x y ch fg bg hd hfit hs
  dsimp only
  rw [← glyphOf_eq]
  have noFault := painted_no_fault (ps := charPixels (glyphOf s.cfg ch) x y fg bg) s.mem
    fun p _ hc => hfit.inside hd.2 hc
  refine ⟨_, (paint_alone hd hs _).trans (congrArg _ (State.drew_none noFault)), rfl, fun hp row col i j => ?_,
    readByte_paintedChar_other hd.2 _ fg bg s.mem⟩
  exact colorAt_paintedChar hfit hd.2 hp _ fg bg s.mem row col

/-- Settles O45: each operation is the pixel loop over its pixels, and so is `put_pixel` of one after another
(`putEach_painted`). -/
theorem drawingIsItsPixels : Obligations.DrawingIsItsPixels := by
  intro s x y w h ch text c d hd hs hu hn
  dsimp only
  intro p hp
  have loop : exec p.1 s = .next (s.drew (painted s.fb.desc p.2 s.mem) [.ret .none]) := by
    revert p
    simp only [List.forall_mem_cons, max_self, zero_add, min_self]
    exact ⟨paint_alone hd hs _, (execFbClear_paint c).trans (paint_alone hd hs _), paint_alone hd hs _,
      execFbDrawString_alone hd hs x y hn c d, List.forall_mem_nil _⟩
  obtain ⟨hmem, hfault⟩ := putEach_painted p.2 hd hs hu
  refine ⟨by rw [loop, drew_unmarked hu, hmem, hfault], fun pre q post e hpre hx0 hx hy0 hy ho => ?_⟩
  obtain ⟨hmemPre, hfaultPre⟩ := putEach_painted pre hd hs hu
  have hoff := Descriptor.offset_depth32 hd.2 q.x q.y
  have ends := painted_faults_at (m := s.mem) (post := post) (hfaultPre.symm.trans hpre)
    (Descriptor.contains_iff.mpr ⟨hx0, hx, hy0, hy⟩) (by rw [hoff]; exact decide_eq_true ho)
  rw [hmem, hfault, hmemPre, e, ends, hoff]
  exact ⟨rfl, rfl⟩

/-- Settles O58: both items fail to decode, with errors whose refusals are REF_UNKNOWN_OP and REF_MMIO_OTHER. -/
theorem unknownItemsAreRefused : Obligations.UnknownItemsAreRefused := by
  intro s hu hc turn
  have refused {item : Issue} {e : DecodeError} (hi : s.ops[s.pos]? = some item)
      (hd : decodeAt s.cfg item.level item.bytes = .error e) :
      step s = .next { s with refused := some (decodeRefusal e), pos := s.pos + 1, sched := s.sched.tail } :=
    (step_cpuTurn turn).trans (cpuStep_undecoded hu hc hi (decode_of_error hd))
  exact ⟨fun _ operands hi hsel => refused hi (decodeOperation_unknown operands hsel),
    fun _ access hi hoff => refused hi (decodeRegister_unknown access hoff)⟩

/-- Settles O60: the decoder evaluates each item, written out byte by byte, to its row. -/
theorem wordsFromTheTablesDecode : Obligations.WordsFromTheTablesDecode :=
  ⟨rfl, rfl, rfl, rfl, rfl, rfl, rfl, rfl⟩

end Sys2Proof.Machine
end

section
/-! SUPPORT. The obligations of the registers and of the words that cross the mailbox (spec/40_mailbox_transport.md R100 to
R102, R106 to R108). -/

namespace Sys2Proof.Machine

/-! ## Mailbox words -/

/-- The row of a channel's mailbox word is that word crossing the mailbox (R77). -/
theorem exec_mailboxInstr (k : BitVec 4) (m : WordMove) (a : BitVec 28) (s : State) :
    exec (mailboxInstr k m a) s = conclude (mailboxWord k m a s) := by
  obtain ⟨⟨n, hn⟩⟩ := k
  interval_cases n <;> rfl

/-- Towards the coprocessor the mailbox word of the fields of `v` is R102's write of `v`. -/
theorem mailboxWord_toCop_fields (v : Word) (s : State) :
    mailboxWord (v.extractLsb' 0 4) .toCop (v.extractLsb' 4 28) s = noResult (writeWrite v s) := by
  rw [mailboxWord, wordOfFields_split]

/-- A CHAN field is 8 where the channel of the word is (R74, R76). -/
theorem chanField_eq_8 {v : Word} (h : v &&& 0xF#32 = 8#32) : v.extractLsb' 0 4 = 8#4 :=
  BitVec.eq_of_toNat_eq (by rw [chanField_toNat, h]; rfl)

/-- A word made of fields is of channel 8 only if its CHAN field is 8 (R74, R76). -/
theorem chanOf_wordOfFields_ne {k : BitVec 4} (hk : k ≠ 8#4) (a : BitVec 28) : chanOf (wordOfFields a k) ≠ 8#32 := by
  rw [chanOf_wordOfFields]
  revert k
  decide

/-- A word with the CHAN field 8 is the reply at the address with its low bits clear (R75, R107). -/
theorem wordOfFields_reply (a : BitVec 28) : wordOfFields a 0#4 ||| 8#32 = wordOfFields a 8#4 := by
  show (a ++ 0#4) ||| (0#28 ++ 8#4) = a ++ 8#4
  rw [BitVec.or_append]
  simp

/-! ## Steps of the coprocessor that do nothing -/

/-- An answer that is not enabled does nothing (R107). -/
theorem copAnswer_disabled {s : State} {a : Word} (ds : List (Option Word))
    (h : (⟨8#32, a⟩ : Request) ∉ s.cop.pending ∨ s.cfg.fifoDepth ≤ s.dev.inq.length) : copAnswer a ds s = s := by
  rcases copAnswer_cases a ds s with e | ⟨hp, room, -⟩
  · exact e
  · exact h.elim (fun h => absurd hp h) fun h => absurd room (Nat.not_lt.mpr h)

/-- A word of channel 8, or one for which there is no room, does not arrive unsolicited (R108). -/
theorem copUnsolicited_disabled {s : State} {w : Word}
    (h : w &&& 0xF#32 = 8#32 ∨ s.cfg.fifoDepth ≤ s.dev.inq.length) : copUnsolicited w s = s := by
  rcases copUnsolicited_cases w s with e | ⟨hc, room, -⟩
  · exact e
  · exact h.elim (fun h => absurd h hc) fun h => absurd room (Nat.not_lt.mpr h)

/-- A word of another channel than 8 arrives where there is room (R108). -/
theorem copUnsolicited_eq {s : State} {w : Word} (hw : chanOf w ≠ 8#32) :
    copUnsolicited w s =
      s.withIn (if s.dev.inq.length < s.cfg.fifoDepth then s.dev.inq ++ [w] else s.dev.inq) := by
  by_cases room : s.dev.inq.length < s.cfg.fifoDepth
  · rw [if_pos room]
    exact if_pos ⟨hw, decide_eq_true room⟩
  · rw [if_neg room, copUnsolicited_disabled (.inr (Nat.le_of_not_lt room))]
    rfl

/-! ## What a step of the coprocessor can do to the queues -/

/-- No step of the coprocessor appends to `dev.OUT` (R106, R110). -/
theorem copStep_out (e : CopStep) (s : State) : ∃ pre, s.dev.out = pre ++ (copStep e s).dev.out := by
  cases e with
  | consume =>
    rcases copConsume_cases s with ⟨-, e⟩ | ⟨w, rest, hq, e⟩ <;> rw [copStep, e]
    · exact ⟨[], rfl⟩
    · exact ⟨[w], hq⟩
  | answer a ds => rcases copAnswer_cases a ds s with e | ⟨-, -, e⟩ <;> rw [copStep, e] <;> exact ⟨[], rfl⟩
  | unsolicited w => rcases copUnsolicited_cases w s with e | ⟨-, -, e⟩ <;> rw [copStep, e] <;> exact ⟨[], rfl⟩

/-- What a step of the coprocessor puts on `dev.IN`: an unsolicited word of another channel than 8, or the reply word of
a pending request (R107, R108). -/
inductive Brings (s : State) : CopStep → Word → Prop where
  | reply (a : Word) (ds : List (Option Word)) (h : (⟨8#32, a⟩ : Request) ∈ s.cop.pending) :
    Brings s (.answer a ds) (a ||| 8#32)
  | unsolicited (w : Word) (h : chanOf w ≠ 8#32) : Brings s (.unsolicited w) w

/-- A step of the coprocessor leaves `dev.IN` as it is, or appends one word within the depth (R107, R108, R110). -/
theorem copStep_in (e : CopStep) (s : State) : (copStep e s).dev.inq = s.dev.inq ∨
    ∃ w, (copStep e s).dev.inq = s.dev.inq ++ [w] ∧ s.dev.inq.length < s.cfg.fifoDepth ∧ Brings s e w := by
  cases e with
  | consume => rcases copConsume_cases s with ⟨-, e⟩ | ⟨_, _, -, e⟩ <;> rw [copStep, e] <;> exact .inl rfl
  | answer a ds =>
    rcases copAnswer_cases a ds s with e | ⟨hp, room, e⟩ <;> rw [copStep, e]
    · exact .inl rfl
    · exact .inr ⟨_, rfl, room, .reply a ds hp⟩
  | unsolicited w =>
    rcases copUnsolicited_cases w s with e | ⟨hw, room, e⟩ <;> rw [copStep, e]
    · exact .inl rfl
    · exact .inr ⟨w, rfl, room, .unsolicited w hw⟩

/-! ## The obligations -/

/-- Settles O4: R102's verdict on the channel of `v`, then on FULL, is what `writeWrite` is refused with; the three
instructions are that write. -/
theorem writeRegisterRefusals : Obligations.WriteRegisterRefusals := by
  intro s v r hf hr hv
  have refused : writeWrite v s = refuse r s := by
    unfold writeWrite
    split_ifs at hv with above other
    · rw [sendChannelRefusal_above (c := chanOf v) above, hv]
    · rw [sendChannelRefusal_other (c := chanOf v) above other, hv]
    · obtain ⟨full, rfl⟩ := hv
      rw [show chanOf v = 8#32 from not_not.mp other, sendChannelRefusal_property]
      exact if_pos (decide_eq_true full)
  have ends : conclude (noResult (writeWrite v s)) =
      .next { s with refused := some r, cpu := [], pos := s.pos + 1 } := by
    rw [refused, noResult, refuse_andThen, conclude_refuse, State.markRefused_of_unmarked s r hf hr]
    rfl
  simp only [List.forall_mem_cons]
  exact ⟨ends, (execRegWrite_word v s).trans ends,
    (exec_mailboxInstr _ _ _ s).trans ((congrArg conclude (mailboxWord_toCop_fields v s)).trans ends),
    List.forall_mem_nil _⟩

/-- Settles O8: the fifteen rows are an unsolicited word of their channel, and none of them is 8. -/
theorem unsolicitedWordsArrive : Obligations.UnsolicitedWordsArrive := by
  intro s draws addr p hp
  have row : exec p.1 s = conclude (mailboxWord p.2 (.toCpu draws) addr s) ∧ p.2 ≠ 8#4 := by
    revert p
    simp only [List.forall_mem_cons]
    refine ⟨?_, ?_, ?_, ?_, ?_, ?_, ?_, ?_, ?_, ?_, ?_, ?_, ?_, ?_, ?_, List.forall_mem_nil _⟩ <;>
      exact ⟨rfl, by decide⟩
  obtain ⟨he, hk⟩ := row
  rw [he, mailboxWord, if_neg hk, copStep, copUnsolicited_eq (chanOf_wordOfFields_ne hk addr)]
  rfl

/-- Settles O9: the memory of the answer is the rewritten message (`readByte_rewriteMessage_other`,
`readWord_rewriteMessage`). -/
theorem answerRewritesOnlyTheMessage : Obligations.AnswerRewritesOnlyTheMessage := by
  intro s a draws hp room n
  refine ⟨rewriteMessage a.toNat n 1 draws s.mem, copAnswer_enabled draws hp room, fun b hb => ?_, fun i h1 hi ha => ?_⟩
  · exact readByte_rewriteMessage_other _ _ _ _ _ _ (by omega)
  · exact readWord_rewriteMessage _ _ _ _ _ _ h1 hi ha

/-- Settles O10: the row is the answer step at its address, and that step needs the entry and room. -/
theorem replyWordAnswersItsRequest : Obligations.ReplyWordAnswersItsRequest := by
  intro s draws addr
  have row : exec (.mboxWordCh8 (.toCpu draws) addr) s =
      conclude (.ok .none (copAnswer (wordOfFields addr 0#4) draws s)) := rfl
  refine ⟨fun hp room => ?_, fun h => ?_⟩
  · refine ⟨s.mem.answered (wordOfFields addr 0#4) draws, ?_, fun b hb => ?_⟩
    · rw [row, copAnswer_enabled (a := wordOfFields addr 0#4) draws hp room, wordOfFields_reply]
      rfl
    · exact readByte_rewriteMessage_other _ _ _ _ _ _ hb
  · rw [row, copAnswer_disabled (a := wordOfFields addr 0#4) draws h]
    rfl

/-- Settles O12: what a step can do to the queues (`copStep_out`, `copStep_in`), that it writes nothing else
(`copStep_frame`), and the steps that are not enabled. -/
theorem coprocessorKeepsToItsSide : Obligations.CoprocessorKeepsToItsSide := by
  intro s e t
  refine ⟨copStep_out e s, ?_, copStep_frame e s, fun a ds he h => ?_, fun w he h => ?_⟩
  · refine (copStep_in e s).imp_right ?_
    rintro ⟨w, hin, room, hb⟩
    refine ⟨w, hin, room, fun hw => ?_⟩
    cases hb with
    | reply a ds hp => exact ⟨_, hp, rfl, rfl⟩
    | unsolicited _ hc => exact absurd hw hc
  · subst he; exact copAnswer_disabled ds h
  · subst he; exact copUnsolicited_disabled h

/-- Settles O1: the value read is the STATUS word, whose bits 31 and 30 are FULL and EMPTY. -/
theorem statusReadReportsQueueFlags : Obligations.StatusReadReportsQueueFlags := by
  intro s
  refine ⟨s.statusWord, by rw [statusWord_bit31, State.full_eq], by rw [statusWord_bit30, State.empty_eq], ?_⟩
  simp only [List.forall_mem_cons]
  exact ⟨rfl, rfl, List.forall_mem_nil _⟩

/-- Settles O2: both instructions are R101's read, which answers the head or is refused. -/
theorem readRegisterPopsInQueue : Obligations.ReadRegisterPopsInQueue := by
  intro s i hi
  have read : exec i s = conclude (wordResult (readRead s)) := by
    revert i
    simp only [List.forall_mem_cons]
    exact ⟨rfl, rfl, List.forall_mem_nil _⟩
  refine ⟨fun w rest hq => ?_, fun hq hf hr => ?_⟩
  · simp only [read, readRead, hq]
    rfl
  · simp only [read, readRead, hq, wordResult, refuse_andThen, conclude_refuse,
      State.markRefused_of_unmarked s _ hf hr]
    rfl

/-- Settles O3: the three instructions are R102's write, which appends a channel-8 word while FULL is 0. -/
theorem writeRegisterAppendsToOut : Obligations.WriteRegisterAppendsToOut := by
  intro s v hv hf
  have appends : conclude (noResult (writeWrite v s)) = .next { s with
      dev := { s.dev with out := s.dev.out ++ [v] }, cpu := [], pos := s.pos + 1,
      results := s.results ++ [.none] } := by
    rw [writeWrite_ok hv hf]
    rfl
  have row : exec (.mboxWordCh8 .toCop (v.extractLsb' 4 28)) s = conclude (noResult (writeWrite v s)) := by
    rw [← mailboxWord_toCop_fields, chanField_eq_8 hv]
    rfl
  simp only [List.forall_mem_cons]
  exact ⟨appends, (execRegWrite_word v s).trans appends, row.trans appends, List.forall_mem_nil _⟩

/-- Settles O11: the two cases of R106. -/
theorem consumeMovesHeadToPending : Obligations.ConsumeMovesHeadToPending := by
  intro s
  refine ⟨fun w rest hq => ?_, fun hq => ?_⟩ <;> simp only [copStep, copConsume, hq]
  rfl

end Sys2Proof.Machine
end

section
/-! SUPPORT. `send`, `receive` and `call` from their first poll on (spec/40_mailbox_transport.md R103 to R105): what each
begins, what its checks end it with, and the obligations about a given schedule. -/

namespace Sys2Proof.Machine

variable {s : State} {a c : Word}

/-! ## What they begin -/

theorem exec_mbSend (ha : a &&& 0xF#32 = 0#32) :
    exec (.mbSend 8#32 a) s = .next (drive s.sched (s.withCpu [.pollFull 8#32 a, .ret .none])) := by
  show launch ((sendWork 8#32 a s).returning .none) = _
  rw [sendWork_property ha, returning_ok, launch_ok]
  rfl

theorem exec_mbReceive (hc : c.toNat ≤ 8) :
    exec (.mbReceive c) s = .next (drive s.sched (s.withCpu [.pollEmpty c .result])) := by
  show launch (receiveWork c s) = _
  rw [receiveWork_admitted hc, launch_ok]
  rfl

theorem exec_mbCall (ha : a &&& 0xF#32 = 0#32) :
    exec (.mbCall 8#32 a) s =
      .next (drive s.sched (s.withCpu [.pollFull 8#32 a, .pollEmpty 8#32 .drop, .verify a .call])) := by
  show launch (callWork 8#32 a .call s) = _
  rw [callWork_property .call ha, launch_ok]
  rfl

/-! ## What their checks end them with -/

theorem sendWork_refused {r : Refusal} (h : sendChannelRefusal c = some r) : sendWork c a s = refuse r s := by
  rw [sendWork, h]

theorem sendWork_misaligned (h : a &&& 0xF#32 ≠ 0#32) : sendWork 8#32 a s = raise (.misalignedMboxAddr a) s := by
  simp [sendWork, aligned16, h]

/-- `send` of `address` on `channel`, `call` with that buffer, and in FINISHED the property `call` where that is the
buffer's own address: the operations that begin with the checks of `send` (R103, R105, R123). -/
def SendsFirst (channel address : Word) (s : State) (i : Instr) : Prop :=
  i = .mbSend channel address ∨ i = .mbCall channel address ∨
    i = .pmCall channel ∧ s.pm.phase = .finished ∧ address = s.cfg.msgBufAddr

/-- They are launched with what `send` checks, and with work of their own only behind it. -/
theorem SendsFirst.exec_eq {i : Instr} (h : SendsFirst c a s i) :
    ∃ f : List Micro → State → Res (List Micro), exec i s = launch ((sendWork c a s).andThen f) := by
  rcases h with rfl | rfl | ⟨rfl, hp, rfl⟩
  · exact ⟨_, rfl⟩
  · exact ⟨_, rfl⟩
  · have finished : pmCallWork c .pmCall s = callWork c s.cfg.msgBufAddr .pmCall s := if_neg (not_not.mpr hp)
    exact ⟨_, congrArg launch finished⟩

theorem SendsFirst.refused {i : Instr} {r : Refusal} (h : SendsFirst c a s i) (hc : sendChannelRefusal c = some r) :
    exec i s = .next (s.markRefused r).ended := by
  obtain ⟨f, e⟩ := h.exec_eq
  rw [e, sendWork_refused hc, refuse_andThen, launch_refuse]

theorem SendsFirst.misaligned {i : Instr} (h : SendsFirst 8#32 a s i) (ha : a &&& 0xF#32 ≠ 0#32) :
    exec i s = .next (s.markFault (.misalignedMboxAddr a)).ended := by
  obtain ⟨f, e⟩ := h.exec_eq
  rw [e, sendWork_misaligned ha, raise_andThen, launch_raise]

/-! ## The obligations -/

/-- Settles O13: the first poll that sees FULL = 0 writes the word (`cpuTick_pollFull_room`); before it a full queue lets
one poll pass and the consume step makes room. -/
theorem sendWritesAssembledWord : Obligations.SendWritesAssembledWord := by
  intro s a ha
  have sends (u : State) (room : u.dev.out.length ≠ u.cfg.fifoDepth) :
      cpuTick (u.withCpu [.pollFull 8#32 a, .ret .none]) =
        (u.withOut (u.dev.out ++ [assemble a 8#32])).returned .none :=
    cpuTick_pollFull_room (s := u.withCpu [.pollFull 8#32 a, .ret .none]) rfl room
  refine ⟨fun room hs => ?_, fun w q hq full hs => ?_⟩
  · rw [exec_mbSend ha]
    rcases hs with hs | ⟨rest, hs⟩
    · rw [hs, drive_nil, ← alone_cpuTick, alone_nil (by rw [cpuTick_withSched, sends s room]; rfl), cpuTick_withSched,
        sends s room]
      rfl
    · rw [hs, drive_cpu _ (by simp), sends s room, drive_over _ rfl]
      rfl
  · have consumes : copStep .consume (s.withCpu [.pollFull 8#32 a, .ret .none]) =
        ((s.withOut q).withPending (s.cop.pending ++ [⟨chanOf w, addrOf w⟩])).withCpu
          [.pollFull 8#32 a, .ret .none] := by
      simp only [copStep, copConsume, State.withCpu_dev, hq]
      rfl
    have room : q.length ≠ s.cfg.fifoDepth := by
      rw [hq, List.length_cons] at full
      omega
    rw [exec_mbSend ha, hs, drive_cpu _ (by simp), cpuTick_pollFull_full rfl (by exact full), drive_cop _ _ (by simp),
      consumes, drive_nil, ← alone_cpuTick, cpuTick_withSched, sends _ (by exact room), alone_nil (by rfl)]
    rfl

/-- Settles O15: the three operations begin with the checks of `send` (`SendsFirst.exec_eq`). -/
theorem transportChecksInOrder : Obligations.TransportChecksInOrder := by
  intro s c a hf hr
  have refuses (r : Refusal) : (s.markRefused r).ended =
      { s with refused := some r, cpu := [], pos := s.pos + 1 } := by
    rw [State.markRefused_of_unmarked s r hf hr]
    rfl
  refine ⟨fun i hi => ?_, fun hc => ?_⟩
  · have hi : SendsFirst c a s i := hi
    refine ⟨fun hc => ?_, fun hc => ?_, fun hc ha => ?_⟩
    · rw [hi.refused (sendChannelRefusal_above hc), refuses]
    · rw [hi.refused (sendChannelRefusal_other (by omega) (by rintro rfl; simp at hc)), refuses]
    · obtain rfl : c = 8#32 := BitVec.eq_of_toNat_eq hc
      rw [hi.misaligned ha, State.markFault_of_unmarked s _ hf hr]
      rfl
  · show launch (receiveWork c s) = _
    rw [receiveWork, receiveChannelRefusal_above hc]
    exact (launch_refuse _ _).trans (congrArg _ (refuses _))

/-- Settles O16: the discard loop ends at the first match (`alone_receive_match`). -/
theorem receiveReturnsFirstMatch : Obligations.ReceiveReturnsFirstMatch := by
  intro s c w pre post hc hs hin hpre hw
  rw [exec_mbReceive hc, hs, drive_nil, alone_receive_match ((s.withCpu [.pollEmpty c .result]).withSched []) c w pre
    post .result [] rfl hin hpre hw, afterMatch, alone_returned]
  rfl

/-- Settles O19: after the first poll the request is sent, taken and answered (`drive_call_reply`), and the success test
reads the answered code word (`code_of_answer`). -/
theorem callReturnsBit31OfTheReply : Obligations.CallReturnsBit31OfTheReply := by
  intro s a c ds ha hd hdev hp hsize hs
  have hout : s.dev.out = [] := by rw [hdev]
  have sends : cpuTick (s.withCpu [.pollFull 8#32 a, .pollEmpty 8#32 .drop, .verify a .call]) =
      (s.withCpu [.pollEmpty 8#32 .drop, .verify a .call]).withOut [assemble a 8#32] := by
    rw [cpuTick_pollFull_room rfl (by simp [hout]; omega)]
    simp only [State.withCpu_dev, hout]
    rfl
  refine ⟨s.mem.answered a (some c :: ds), ?_, fun b hb => readByte_rewriteMessage_other _ _ _ _ _ _ hb⟩
  rw [exec_mbCall ha, hs, drive_cpu _ (by simp), sends,
    drive_call_reply (s := s.withCpu [.pollEmpty 8#32 .drop, .verify a .call]) .call (some c :: ds) ha hd hdev hp rfl,
    afterVerify, alone_returned]
  simp only [State.withSched_mem, State.withMem_mem, State.withCpu_mem, code_of_answer c ds ha hsize, success_eq_bit31]
  rfl

end Sys2Proof.Machine
end

section
/-! SUPPORT. `receive` and `call` under every schedule (spec/40_mailbox_transport.md R104, R105, R110, R111): what holds
wherever they are, kept by every step of the CPU and of the coprocessor while they are under way. And the operations of
the builder and of drawing beside the coprocessor. -/

namespace Sys2Proof.Machine

variable {s t : State} {a c : Word}

/-- Builder, driver and marks are those of `s`. -/
def Untouched (s t : State) : Prop :=
  t.pm = s.pm ∧ t.fb = s.fb ∧ t.fault = s.fault ∧ t.refused = s.refused

theorem Untouched.copStep (h : Untouched s t) (e : CopStep) : Untouched s (copStep e t) := by
  simpa [Untouched] using h

/-! ## `receive` -/

/-- The schedule can put the word on `dev.IN` (R107, R108). -/
def Arriving (ts : List Turn) (w : Word) : Prop :=
  .cop (.unsolicited w) ∈ ts ∨ ∃ a ds, .cop (.answer a ds) ∈ ts ∧ w = a ||| 8#32

theorem Brings.arriving {e : CopStep} {w : Word} {ts : List Turn} (h : Brings t e w) (he : .cop e ∈ ts) :
    Arriving ts w := by
  cases h with
  | reply a ds => exact .inr ⟨a, ds, he, rfl⟩
  | unsolicited _ => exact .inl he

/-- Where `receive` can be: still in the discard loop, with no other words in `dev.IN` than those that were there or
arrived; or over, with the address part of such a word of its channel (R104). -/
def Receiving (s : State) (c : Word) (t : State) : Prop :=
  (t.cpu = [.pollEmpty c .result] ∧ t.pos = s.pos ∧ t.results = s.results ∧
    ∀ w ∈ t.dev.inq, w ∈ s.dev.inq ∨ Arriving s.sched w) ∨
  (t.cpu = [] ∧ t.pos = s.pos + 1 ∧
    ∃ w, chanOf w = c ∧ t.results = s.results ++ [.word (addrOf w)] ∧ (w ∈ s.dev.inq ∨ Arriving s.sched w))

/-- A poll finds nothing, discards a word, or returns one that was there or arrived. -/
theorem Receiving.cpuTick (h : Receiving s c t) (k : Untouched s t) (ho : t.dev.out <:+ s.dev.out) :
    Receiving s c (cpuTick t) ∧ Untouched s (cpuTick t) ∧ (cpuTick t).dev.out <:+ s.dev.out := by
  rcases id h with ⟨hc, hpos, hres, hin⟩ | ⟨hc, -⟩
  case inr => rw [cpuTick_nil hc]; exact ⟨h, k, ho⟩
  cases hq : t.dev.inq with
  | nil => rw [cpuTick_pollEmpty_empty hc hq]; exact ⟨h, k, ho⟩
  | cons w rest =>
    rw [hq] at hin
    obtain ⟨hw, hrest⟩ := List.forall_mem_cons.mp hin
    rw [cpuTick_pollEmpty_cons hc hq]
    split
    · rename_i hcw
      exact ⟨.inr ⟨rfl, by simp [afterMatch, hpos], w, hcw, by simp [afterMatch, hres], hw⟩, k, ho⟩
    · exact ⟨.inl ⟨hc, hpos, hres, hrest⟩, k, ho⟩

/-- A scheduled step of the coprocessor brings nothing but a word that arrives. -/
theorem Receiving.copStep (h : Receiving s c t) {e : CopStep} (he : .cop e ∈ s.sched) :
    Receiving s c (copStep e t) := by
  rcases h with ⟨hc, hpos, hres, hin⟩ | h
  · refine .inl ⟨by simp [hc], by simp [hpos], by simp [hres], ?_⟩
    rcases copStep_in e t with hq | ⟨w, hq, -, hb⟩ <;> rw [hq]
    · exact hin
    · exact List.forall_mem_append.mpr ⟨hin, by simpa using .inr (hb.arriving he)⟩
  · exact .inr (by simpa using h)

/-- Settles O18: every step keeps where `receive` can be (`Receiving.cpuTick`, `Receiving.copStep`). -/
theorem receiveUnderEverySchedule : Obligations.ReceiveUnderEverySchedule := by
  intro s c hc
  obtain ⟨hr, ⟨hpm, hfb, hf, hm⟩, pre, ho⟩ := drive_induct_mem
    (P := fun t => Receiving s c t ∧ Untouched s t ∧ t.dev.out <:+ s.dev.out) s.sched
    (fun t ⟨h, k, ho⟩ => h.cpuTick k ho)
    (fun e t he _ ⟨h, k, ho⟩ => by
      obtain ⟨pre, out⟩ := copStep_out e t
      exact ⟨h.copStep he, k.copStep e, (out ▸ List.suffix_append pre _).trans ho⟩)
    (fun _ _ h => h) (s.withCpu [.pollEmpty c .result])
    ⟨.inl ⟨rfl, rfl, rfl, fun _ hw => .inl hw⟩, ⟨rfl, rfl, rfl, rfl⟩, List.suffix_refl _⟩
  refine ⟨_, exec_mbReceive hc, hpm, hfb, hf, hm, ⟨pre, ho.symm⟩, hr.imp_left ?_⟩
  rintro ⟨hcpu, hpos, hres, -⟩
  have waits := drive_waiting s.sched (s.withCpu [.pollEmpty c .result]) (by rw [hcpu]; simp)
  exact ⟨hcpu, waits.symm.imp_left And.left, hpos, hres⟩

/-! ## `call` -/

/-- What `call` has still to do, from its first poll to its success test (R105). -/
inductive CallWork (a : Word) : List Micro → Prop where
  | send : CallWork a [.pollFull 8#32 a, .pollEmpty 8#32 .drop, .verify a .call]
  | receive : CallWork a [.pollEmpty 8#32 .drop, .verify a .call]
  | verify : CallWork a [.verify a .call]

/-- Where `call` can be: under way, with nothing returned; or over, with bit 31 of the code word (R105, R83). -/
def Calling (s : State) (a : Word) (t : State) : Prop :=
  (CallWork a t.cpu ∧ t.pos = s.pos ∧ t.results = s.results) ∨
  (t.cpu = [] ∧ t.pos = s.pos + 1 ∧
    t.results = s.results ++ [.flag ((t.mem.readWord (a.toNat + 4)).getLsbD 31)])

theorem CallWork.ne_nil {ms : List Micro} (h : CallWork a ms) : ms ≠ [] := by cases h <;> simp

/-- The success test returns bit 31 of the code word (R83, R105). -/
theorem cpuTick_verify_call {ms : List Micro} (h : t.cpu = .verify a .call :: ms) :
    cpuTick t = t.returned (.flag ((t.mem.readWord (a.toNat + 4)).getLsbD 31)) := by
  rw [cpuTick_cons h, doMicro, afterVerify, success_eq_bit31]

/-- A CPU step of `call` polls on, goes on to the next piece, or returns the verdict on the code word. -/
theorem Calling.cpuTick (h : Calling s a t) (k : Untouched s t) :
    Calling s a (cpuTick t) ∧ Untouched s (cpuTick t) := by
  rcases id h with ⟨hw, hpos, hres⟩ | ⟨hc, -⟩
  case inr => rw [cpuTick_nil hc]; exact ⟨h, k⟩
  generalize hc : t.cpu = ms at hw
  cases hw with
  | send =>
    by_cases full : t.dev.out.length = t.cfg.fifoDepth
    · rw [cpuTick_pollFull_full hc full]; exact ⟨h, k⟩
    · rw [cpuTick_pollFull_room hc full]; exact ⟨.inl ⟨.receive, hpos, hres⟩, k⟩
  | receive =>
    cases hq : t.dev.inq with
    | nil => rw [cpuTick_pollEmpty_empty hc hq]; exact ⟨h, k⟩
    | cons w rest =>
      rw [cpuTick_pollEmpty_cons hc hq]
      split
      · exact ⟨.inl ⟨.verify, hpos, hres⟩, k⟩
      · exact ⟨h, k⟩
  | verify =>
    rw [cpuTick_verify_call hc]
    exact ⟨.inr ⟨rfl, by simp [hpos], by simp [hres]⟩, k⟩

/-- Settles O20: every CPU step keeps where `call` can be (`Calling.cpuTick`); the coprocessor's steps count only while it
is under way, and then the code word has not been read. -/
theorem callUnderEverySchedule : Obligations.CallUnderEverySchedule := by
  intro s a ha
  obtain ⟨hr, hpm, hfb, hf, hm⟩ := drive_induct (P := fun t => Calling s a t ∧ Untouched s t)
    (fun t ⟨h, k⟩ => h.cpuTick k)
    (fun e t hc ⟨h, k⟩ => ⟨.inl (by simpa using h.resolve_right fun ⟨hc', _⟩ => hc hc'), k.copStep e⟩)
    (fun _ _ h => h) s.sched (s.withCpu [.pollFull 8#32 a, .pollEmpty 8#32 .drop, .verify a .call])
    ⟨.inl ⟨.send, rfl, rfl⟩, rfl, rfl, rfl, rfl⟩
  refine ⟨_, exec_mbCall ha, hpm, hfb, hf, hm, hr.imp_left ?_⟩
  rintro ⟨hw, hpos, hres⟩
  exact ⟨hw.ne_nil, (drive_waiting _ _ hw.ne_nil).symm.imp_left And.left, hpos, hres⟩

/-! ## The builder and drawing -/

/-- An operation of the builder or of drawing begins local work. -/
theorem Begun.isLocal {i : Instr} {ms : List Micro} (h : Begun i s ms) (hi : localOperation i = true) :
    ∀ m ∈ ms, m.isLocal = true := by
  cases h with
  | buffer _ _ hl => exact hl
  | send | receive | call | pmCall | init => subst_vars; cases hi

/-- `exec i s` ends as with a coprocessor that takes no step, but for what the steps it uses do by themselves. -/
def BesideCoprocessor (i : Instr) (s : State) : Prop :=
  ∃ (t u : State) (used : List Turn),
    exec i s = .next t ∧ exec i (s.withSched []) = .next u ∧ s.sched = used ++ t.sched ∧
    t = { u with dev := t.dev, cop := t.cop, mem := t.mem, sched := t.sched } ∧
    t.dev = (copRun used s).dev ∧ t.cop = (copRun used s).cop ∧ (s.Undisturbed → t.mem = u.mem)

/-- An operation that ends at once uses no step. -/
theorem besideCoprocessor_atOnce {i : Instr} (hd : t.dev = s.dev) (hc : t.cop = s.cop) (hs : t.sched = s.sched)
    (h : exec i s = .next t) (h0 : exec i (s.withSched []) = .next (t.withSched [])) : BesideCoprocessor i s :=
  ⟨t, _, [], h, h0, hs.symm, rfl, hd, hc, fun _ => rfl⟩

/-- Settles O49: the checks answer the same under every schedule (`ChecksApart`), and local work ends beside the
coprocessor as it ends by itself (`drive_local`). -/
theorem buffersAreWrittenBesideTheCoprocessor : Obligations.BuffersAreWrittenBesideTheCoprocessor := by
  intro i s hi hp
  show BesideCoprocessor i s
  rcases exec_shape i with ⟨-, -, -, -, hn⟩ | ⟨f, he, checked, apart⟩
  case access => rw [hi] at hn; cases hn
  rcases apart s with ⟨r, h⟩ | ⟨e, h⟩ | ⟨ms, h⟩
  · have h0 : f s = refuse r s := h s.sched
    exact besideCoprocessor_atOnce (t := (s.markRefused r).ended) (by simp) (by simp) (by simp)
      (by rw [he, h0, launch_refuse]) (by rw [he, h, launch_refuse, State.markRefused_withSched]; rfl)
  · have h0 : f s = raise e s := h s.sched
    exact besideCoprocessor_atOnce (t := (s.markFault e).ended) (by simp) (by simp) (by simp)
      (by rw [he, h0, launch_raise]) (by rw [he, h, launch_raise, State.markFault_withSched]; rfl)
  · have h0 : f s = .ok ms s := h s.sched
    have hl : ∀ m ∈ ms, m.isLocal = true := by
      have := checked s
      rw [h0] at this
      cases this with
      | ok _ hb => exact hb.isLocal hi
    obtain ⟨used, rest, m, hsplit, hd, hm⟩ :=
      drive_local hp (s := settle ms s) fun n hn => hl n (settle_cpu_mem n hn)
    obtain ⟨hdev, hcop⟩ := copRun_congr used (s := s) (u := settle ms s) (by simp) (by simp) (by simp)
    refine ⟨(alone (settle ms s)).over (copRun used (settle ms s)).dev (copRun used (settle ms s)).cop m rest,
      (alone (settle ms s)).withSched [], used, by rw [he, h0, launch_ok, hd], ?_, hsplit, rfl, hdev, hcop,
      fun hu => hm (by simpa using hu)⟩
    rw [he, h, launch_ok, settle_withSched]
    exact congrArg _ ((drive_nil _).trans (alone_withSched (settle ms s) []))

end Sys2Proof.Machine
end

section
/-! SUPPORT. Infinite executions of `send`, `receive` and `call` (spec/40_mailbox_transport.md R109, R111, R203): what
every turn keeps, the hangs, and `call` step by step from its first poll to its return. -/

namespace Sys2Proof.Machine

variable {s t : State} {a c : Word} {σ : Nat → Turn} {l : State}

/-! ## Turns of an operation under way -/

/-- Whose turn it is decides what a turn does to an operation that is under way and not stopped. -/
theorem turnStep_keeps {P : State → Prop} (sched : ∀ u, P u → P (u.withSched [])) (hu : t.Unmarked) (hc : t.cpu ≠ [])
    (x : Turn) (stay : P t) (tick : P (cpuTick t)) (cop : ∀ e, x = .cop e → P (copStep e t)) : P (turnStep x t) := by
  cases x with
  | cpu => rw [turnStep_cpu hu hc]; exact sched _ tick
  | cop e => rw [turnStep_cop]; exact sched _ (cop e rfl)
  | pause => rw [turnStep_pause]; exact sched _ stay

/-- With no coprocessor step a state that a poll leaves as it is is its own next state (R111). -/
theorem step_waiting (hs : t.sched = []) (hu : t.Unmarked) (hc : t.cpu ≠ []) (hf : cpuTick t = t) :
    step t = .next t := by
  obtain ⟨fault, refused⟩ := hu
  simp only [step, hs, cpuStep, fault, refused]
  rw [if_neg (by simpa using hc), hf]

theorem copStep_unmarked (h : s.Unmarked) (e : CopStep) : (copStep e s).Unmarked := by
  obtain ⟨fault, refused⟩ := h
  exact ⟨by simpa using fault, by simpa using refused⟩

/-! ## Hangs -/

/-- What every turn keeps, and holds only in a poll loop with nothing recorded or returned, is a hang (R111). -/
theorem hang_of_kept {P : State → Prop} {rs : List Result} (fair : FairCpu σ) (start : P l)
    (kept : ∀ n t, P t → P (turnStep (σ n) t)) (polls : ∀ t, P t → t.Unmarked ∧ t.InPoll ∧ t.results = rs) :
    TransportHang σ l ∧ ∀ n, (execution σ l n).results = rs := by
  have always (n : Nat) := polls _ (execution_induct start kept n)
  refine ⟨⟨fair, 0, fun m _ => ?_⟩, fun n => ?_⟩
  · obtain ⟨hu, hp, -⟩ := always m
    exact ⟨hu, hp⟩
  · obtain ⟨-, -, hr⟩ := always n
    exact hr

/-- Only a consume step changes `dev.OUT` (R106, R110). -/
theorem copStep_out_eq {e : CopStep} (he : e ≠ .consume) (s : State) : (copStep e s).dev.out = s.dev.out := by
  cases e with
  | consume => exact absurd rfl he
  | answer a ds => rcases copAnswer_cases a ds s with e | ⟨-, -, e⟩ <;> simp [copStep, e]
  | unsolicited w => rcases copUnsolicited_cases w s with e | ⟨-, -, e⟩ <;> simp [copStep, e]

/-- Every step of the coprocessor keeps pending addresses aligned (R106). -/
theorem copStep_pending_aligned (e : CopStep) (h : ∀ r ∈ s.cop.pending, r.addr &&& 0xF#32 = 0#32) :
    ∀ r ∈ (copStep e s).cop.pending, r.addr &&& 0xF#32 = 0#32 := by
  cases e with
  | consume =>
    rcases copConsume_cases s with ⟨-, e⟩ | ⟨w, rest, -, e⟩ <;> rw [copStep, e]
    · exact h
    · intro r hr
      rcases List.mem_append.mp hr with hr | hr
      · exact h r hr
      · rw [List.mem_singleton.mp hr]; exact addrOf_aligned w
  | answer a ds =>
    rcases copAnswer_cases a ds s with e | ⟨-, -, e⟩ <;> rw [copStep, e]
    · exact h
    · exact fun r hr => h r (List.mem_of_mem_erase hr)
  | unsolicited w => rcases copUnsolicited_cases w s with e | ⟨-, -, e⟩ <;> rw [copStep, e] <;> exact h

/-- `send` polls a full queue, with the results of `s`. -/
def SendBlocked (s : State) (a : Word) (t : State) : Prop :=
  t.Unmarked ∧ t.cpu = [.pollFull 8#32 a, .ret .none] ∧ t.dev.out.length = t.cfg.fifoDepth ∧ t.results = s.results

/-- Without a consume step `send` stays at a full queue (R103). -/
theorem SendBlocked.turn (h : SendBlocked s a t) {x : Turn} (hx : x ≠ .cop .consume) :
    SendBlocked s a (turnStep x t) := by
  obtain ⟨hu, hc, full, hr⟩ := h
  refine turnStep_keeps (P := SendBlocked s a) (fun _ h => h) hu (by simp [hc]) x ⟨hu, hc, full, hr⟩ ?_ fun e he => ?_
  · rw [cpuTick_pollFull_full hc full]
    exact ⟨hu, hc, full, hr⟩
  · have out := copStep_out_eq (e := e) (by rintro rfl; exact hx he) t
    exact ⟨copStep_unmarked hu e, by simpa using hc, by rw [out, copStep_cfg, full], by simpa using hr⟩

/-- Settles O14: a poll of a full queue changes nothing, and no turn but a consume step makes room
(`SendBlocked.turn`). -/
theorem sendHangsWhileFull : Obligations.SendHangsWhileFull := by
  intro s a ha full hu t
  have polls : cpuTick t = t := cpuTick_pollFull_full (s := t) rfl full
  refine ⟨fun hs => ⟨?_, step_waiting rfl hu (by simp [t]) polls⟩, ?_, fun σ fair never => ?_⟩
  · rw [exec_mbSend ha, hs, drive_nil]
    exact congrArg _ (alone_fixed polls)
  · exact (exec_mbSend (s := s.withSched [.pause]) ha).trans (congrArg _ (drive_pause _ (by simp)))
  · refine hang_of_kept (P := SendBlocked s a) fair ⟨hu, rfl, full, rfl⟩ (fun n _ h => h.turn (never n)) ?_
    rintro u ⟨hu, hc, -, hr⟩
    exact ⟨hu, .inl ⟨_, _, _, hc⟩, hr⟩

/-- `receive` is in its discard loop with no word of its channel there, and with the results of `s`; what is pending is
aligned, so that a reply word is of channel 8. -/
def ReceiveBlocked (s : State) (c : Word) (t : State) : Prop :=
  t.Unmarked ∧ t.cpu = [.pollEmpty c .result] ∧ (∀ v ∈ t.dev.inq, chanOf v ≠ c) ∧
  (∀ r ∈ t.cop.pending, r.addr &&& 0xF#32 = 0#32) ∧ t.results = s.results

/-- While no word of its channel arrives `receive` discards what does (R104). -/
theorem ReceiveBlocked.turn (h : ReceiveBlocked s c t) {x : Turn}
    (noise : ∀ w, x = .cop (.unsolicited w) → chanOf w ≠ c)
    (reply : c = 8#32 → ∀ a ds, x ≠ .cop (.answer a ds)) : ReceiveBlocked s c (turnStep x t) := by
  obtain ⟨hu, hc, hin, hp, hr⟩ := h
  refine turnStep_keeps (P := ReceiveBlocked s c) (fun _ h => h) hu (by simp [hc]) x ⟨hu, hc, hin, hp, hr⟩ ?_
    fun e he => ?_
  · cases hq : t.dev.inq with
    | nil => rw [cpuTick_pollEmpty_empty hc hq]; exact ⟨hu, hc, hin, hp, hr⟩
    | cons w rest =>
      rw [cpuTick_pollEmpty_cons hc hq, if_neg (hin w (by simp [hq]))]
      exact ⟨hu, hc, fun v hv => hin v (by rw [hq]; exact List.mem_cons_of_mem _ hv), hp, hr⟩
  · refine ⟨copStep_unmarked hu e, by simpa using hc, ?_, copStep_pending_aligned e hp, by simpa using hr⟩
    have other : ∀ w, Brings t e w → chanOf w ≠ c := by
      intro w hb
      cases hb with
      | reply a ds hmem =>
        rw [chanOf_reply (hp _ hmem)]
        exact fun h8 => reply h8.symm a ds he
      | unsolicited _ _ => exact noise w he
    rcases copStep_in e t with hq | ⟨w, hq, -, hb⟩ <;> rw [hq]
    · exact hin
    · exact List.forall_mem_append.mpr ⟨hin, by simpa using other w hb⟩

/-- Settles O17: without a match the loop discards what is there (`alone_receive_none`), and every turn leaves it without
a match (`ReceiveBlocked.turn`). -/
theorem receiveHangsWithoutMatch : Obligations.ReceiveHangsWithoutMatch := by
  intro s c hc hin hu t l
  refine ⟨fun hs => ⟨?_, ?_⟩, ?_, fun σ fair noise reply aligned => ?_⟩
  · rw [exec_mbReceive hc, hs, drive_nil,
      alone_receive_none ((s.withCpu [.pollEmpty c .result]).withSched []) c .result [] rfl hin]
    simp only [t, ← hs]
    rfl
  · exact step_waiting hs hu (by simp [t]) (cpuTick_pollEmpty_empty (s := t) rfl rfl)
  · exact (exec_mbReceive (s := s.withSched [.pause]) hc).trans (congrArg _ (drive_pause _ (by simp)))
  · refine hang_of_kept (P := ReceiveBlocked s c) fair ⟨hu, rfl, hin, aligned, rfl⟩
      (fun n _ h => h.turn (noise n) fun h8 a ds => reply h8 n a ds) ?_
    rintro u ⟨hu, hc, -, -, hr⟩
    exact ⟨hu, .inr ⟨_, _, _, hc⟩, hr⟩

/-! ## Stages of an execution -/

/-- Whatever the turn, `P` holds on or `Q` comes. -/
def Unless (P Q : State → Prop) : Prop := ∀ (x : Turn) (t : State), P t → P (turnStep x t) ∨ Q (turnStep x t)

/-- Wherever the execution is in `P` it comes to `Q`. -/
def LeadsTo (σ : Nat → Turn) (l : State) (P Q : State → Prop) : Prop :=
  ∀ n, P (execution σ l n) → ∃ m, Q (execution σ l m)

theorem Unless.until {P Q : State → Prop} (h : Unless P Q) {n m : Nat} (hP : P (execution σ l n)) (hm : n ≤ m) :
    P (execution σ l m) ∨ ∃ k, Q (execution σ l k) := by
  induction m, hm using Nat.le_induction with
  | base => exact .inl hP
  | succ m _ ih =>
    rcases ih with hP | hQ
    · exact (h (σ m) _ hP).imp_right fun hQ => ⟨m + 1, hQ⟩
    · exact .inr hQ

/-- A turn that leads from `P` to `Q` does so, unless `Q` has come before it. -/
theorem Unless.helped {P Q : State → Prop} (h : Unless P Q) {n m : Nat} (hP : P (execution σ l n)) (hm : n ≤ m)
    (helps : P (execution σ l m) → Q (turnStep (σ m) (execution σ l m))) : ∃ k, Q (execution σ l k) := by
  rcases h.until hP hm with hP | hQ
  · exact ⟨m + 1, helps hP⟩
  · exact hQ

/-- A stage with a bound that goes down is left. -/
theorem leadsTo_of_decreasing {P : Nat → State → Prop} {Q : State → Prop}
    (h : ∀ k, LeadsTo σ l (P k) fun t => Q t ∨ ∃ j < k, P j t) (k : Nat) : LeadsTo σ l (P k) Q := by
  induction k using Nat.strong_induction_on with
  | _ k ih =>
    intro n hP
    obtain ⟨m, hQ | ⟨j, hj, hP⟩⟩ := h k n hP
    · exact ⟨m, hQ⟩
    · exact ih j hj m hP

/-! ## The stages of `call` -/

/-- `call` is under way, with `ms` to do, and has returned nothing. -/
def CallAt (s : State) (ms : List Micro) (t : State) : Prop :=
  t.Unmarked ∧ t.cpu = ms ∧ t.pos = s.pos ∧ t.results = s.results ∧ t.cfg = s.cfg

/-- Its request is to be sent, behind at most `k` words. -/
def Sending (s : State) (a : Word) (k : Nat) (t : State) : Prop :=
  CallAt s [.pollFull 8#32 a, .pollEmpty 8#32 .drop, .verify a .call] t ∧ t.dev.out.length ≤ k

/-- It waits for a reply. -/
def Awaiting (s : State) (a : Word) (t : State) : Prop := CallAt s [.pollEmpty 8#32 .drop, .verify a .call] t

/-- It waits, and its request is on `dev.OUT` behind `k` words. -/
def Sent (s : State) (a : Word) (k : Nat) (t : State) : Prop :=
  Awaiting s a t ∧ ∃ pre post, t.dev.out = pre ++ assemble a 8#32 :: post ∧ pre.length = k

/-- It waits, and its request is pending. -/
def Requested (s : State) (a : Word) (t : State) : Prop := Awaiting s a t ∧ (⟨8#32, a⟩ : Request) ∈ t.cop.pending

/-- It waits, and a channel-8 word is on `dev.IN` behind `k` words. -/
def Replied (s : State) (a : Word) (k : Nat) (t : State) : Prop :=
  Awaiting s a t ∧ ∃ pre w post, t.dev.inq = pre ++ w :: post ∧ chanOf w = 8#32 ∧ pre.length = k

/-- Its success test is to be made. -/
def Verifying (s : State) (a : Word) (t : State) : Prop := CallAt s [.verify a .call] t

/-- It has returned bit 31 of the code word. -/
def CallReturned (s : State) (a : Word) (t : State) : Prop :=
  t.cpu = [] ∧ t.pos = s.pos + 1 ∧ t.Unmarked ∧
  t.results = s.results ++ [.flag ((t.mem.readWord (a.toNat + 4)).getLsbD 31)]

/-- A turn of `call` under way. -/
theorem CallAt.turn {m : Micro} {ms : List Micro} {P : State → Prop} (h : CallAt s (m :: ms) t)
    (sched : ∀ u, P u → P (u.withSched [])) (x : Turn) (stay : P t) (tick : P (cpuTick t))
    (cop : ∀ e, P (copStep e t)) : P (turnStep x t) := by
  obtain ⟨hu, hc, -⟩ := h
  exact turnStep_keeps sched hu (by simp [hc]) x stay tick fun e _ => cop e

theorem CallAt.copStep {ms : List Micro} (h : CallAt s ms t) (e : CopStep) : CallAt s ms (copStep e t) := by
  obtain ⟨hu, hc, hp, hr, hg⟩ := h
  exact ⟨copStep_unmarked hu e, by simpa using hc, by simpa using hp, by simpa using hr, by simpa using hg⟩

theorem CallAt.turn_cpu {m : Micro} {ms : List Micro} (h : CallAt s (m :: ms) t) :
    turnStep .cpu t = (cpuTick t).withSched [] := by
  obtain ⟨hu, hc, -⟩ := h
  exact turnStep_cpu hu (by simp [hc])

/-- The poll of a full queue changes nothing; any other poll sends the request. -/
theorem Sending.cpuTick {k : Nat} (h : Sending s a k t) :
    (t.dev.out.length = s.cfg.fifoDepth ∧ cpuTick t = t) ∨ ∃ j, Sent s a j (cpuTick t) := by
  obtain ⟨⟨hu, hc, hp, hr, hg⟩, -⟩ := h
  by_cases full : t.dev.out.length = t.cfg.fifoDepth
  · exact .inl ⟨hg ▸ full, cpuTick_pollFull_full hc full⟩
  · rw [cpuTick_pollFull_room hc full]
    exact .inr ⟨_, ⟨hu, rfl, hp, hr, hg⟩, t.dev.out, [], rfl, rfl⟩

/-- A poll of `dev.IN` finds it empty, takes a reply, or discards another word. -/
theorem Awaiting.cpuTick (h : Awaiting s a t) :
    (t.dev.inq = [] ∧ cpuTick t = t) ∨
    ∃ w rest, t.dev.inq = w :: rest ∧
      ((chanOf w = 8#32 ∧ Verifying s a (cpuTick t)) ∨ (chanOf w ≠ 8#32 ∧ cpuTick t = t.withIn rest)) := by
  obtain ⟨hu, hc, hp, hr, hg⟩ := h
  cases hq : t.dev.inq with
  | nil => exact .inl ⟨rfl, cpuTick_pollEmpty_empty hc hq⟩
  | cons w rest =>
    refine .inr ⟨w, rest, rfl, ?_⟩
    rw [cpuTick_pollEmpty_cons hc hq]
    split
    · rename_i hw; exact .inl ⟨hw, hu, rfl, hp, hr, hg⟩
    · rename_i hw; exact .inr ⟨hw, rfl⟩

/-- The success test returns bit 31 of the code word. -/
theorem Verifying.cpuTick (h : Verifying s a t) : CallReturned s a (cpuTick t) := by
  obtain ⟨hu, hc, hp, hr, -⟩ := h
  rw [cpuTick_verify_call hc]
  exact ⟨rfl, by simp [hp], hu, by simp [hr]⟩

/-! ## From stage to stage -/

theorem sending_unless (k : Nat) : Unless (Sending s a k) fun t => ∃ j, Sent s a j t := by
  intro x t h
  refine h.1.turn (P := fun u => Sending s a k u ∨ ∃ j, Sent s a j u) (fun _ h => h) x (.inl h) ?_ fun e => .inl ?_
  · rcases h.cpuTick with ⟨-, same⟩ | sent
    · rw [same]; exact .inl h
    · exact .inr sent
  · obtain ⟨hat, hk⟩ := h
    obtain ⟨pre, hout⟩ := copStep_out e t
    exact ⟨hat.copStep e, by rw [hout, List.length_append] at hk; omega⟩

theorem awaiting_unless : Unless (Awaiting s a) (Verifying s a) := by
  intro x t h
  refine CallAt.turn (P := fun u => Awaiting s a u ∨ Verifying s a u) h (fun _ h => h) x (.inl h) ?_
    fun e => .inl (CallAt.copStep h e)
  rcases h.cpuTick with ⟨-, same⟩ | ⟨w, rest, -, ⟨-, hv⟩ | ⟨-, e⟩⟩
  · rw [same]; exact .inl h
  · exact .inr hv
  · rw [e]; exact .inl h

/-- A consume step takes the request, or a word ahead of it (R106). -/
theorem Sent.consume {k : Nat} (ha : a &&& 0xF#32 = 0#32) (h : Sent s a k t) :
    Requested s a (copStep .consume t) ∨ ∃ j < k, Sent s a j (copStep .consume t) := by
  obtain ⟨hat, pre, post, hout, rfl⟩ := h
  have hat' : Awaiting s a (copStep .consume t) := CallAt.copStep hat .consume
  cases pre with
  | nil =>
    refine .inl ⟨hat', ?_⟩
    simp only [List.nil_append] at hout
    simp [copStep, copConsume, hout, chanOf_assemble, addrOf_assemble ha]
  | cons w pre =>
    refine .inr ⟨pre.length, Nat.lt_succ_self _, hat', pre, post, ?_, rfl⟩
    simp only [List.cons_append] at hout
    simp [copStep, copConsume, hout]

theorem sent_unless (ha : a &&& 0xF#32 = 0#32) (k : Nat) :
    Unless (Sent s a k) fun t => (Requested s a t ∨ Verifying s a t) ∨ ∃ j < k, Sent s a j t := by
  intro x t h
  have hat : Awaiting s a t := h.1
  refine CallAt.turn
    (P := fun u => Sent s a k u ∨ (Requested s a u ∨ Verifying s a u) ∨ ∃ j < k, Sent s a j u) hat (fun _ h => h) x
    (.inl h) ?_ fun e => ?_
  · rcases hat.cpuTick with ⟨-, same⟩ | ⟨w, rest, -, ⟨-, hv⟩ | ⟨-, e⟩⟩
    · rw [same]; exact .inl h
    · exact .inr (.inl (.inr hv))
    · rw [e]; exact .inl h
  · by_cases he : e = .consume
    · subst he; exact .inr ((h.consume ha).imp_left .inl)
    · obtain ⟨-, pre, post, hout, hk⟩ := h
      exact .inl ⟨CallAt.copStep hat e, pre, post, by rw [copStep_out_eq he, hout], hk⟩

/-- Every poll with a reply on `dev.IN` takes one word nearer to it (R104). -/
theorem Replied.cpuTick {k : Nat} (h : Replied s a k t) :
    Verifying s a (cpuTick t) ∨ ∃ j < k, Replied s a j (cpuTick t) := by
  obtain ⟨hat, pre, w, post, hin, hw, rfl⟩ := h
  rcases hat.cpuTick with ⟨hq, -⟩ | ⟨v, rest, hq, ⟨-, hv⟩ | ⟨hv, e⟩⟩
  · simp [hq] at hin
  · exact .inl hv
  · right
    rw [hq] at hin
    cases pre with
    | nil => cases hin; exact absurd hw hv
    | cons u pre =>
      obtain ⟨-, hrest⟩ := List.cons.inj hin
      rw [e]
      exact ⟨pre.length, Nat.lt_succ_self _, hat, pre, w, post, hrest, hw, rfl⟩

theorem replied_unless (k : Nat) :
    Unless (Replied s a k) fun t => Verifying s a t ∨ ∃ j < k, Replied s a j t := by
  intro x t h
  have hat : Awaiting s a t := h.1
  refine CallAt.turn (P := fun u => Replied s a k u ∨ Verifying s a u ∨ ∃ j < k, Replied s a j u) hat (fun _ h => h) x
    (.inl h) (.inr h.cpuTick) fun e => .inl ?_
  obtain ⟨-, pre, w, post, hin, hw, hk⟩ := h
  rcases copStep_in e t with hq | ⟨v, hq, -, -⟩
  · exact ⟨CallAt.copStep hat e, pre, w, post, hq.trans hin, hw, hk⟩
  · exact ⟨CallAt.copStep hat e, pre, w, post ++ [v], by rw [hq, hin]; simp, hw, hk⟩

theorem verifying_unless : Unless (Verifying s a) (CallReturned s a) := by
  intro x t h
  exact CallAt.turn (P := fun u => Verifying s a u ∨ CallReturned s a u) h (fun _ h => h) x (.inl h) (.inr h.cpuTick)
    fun e => .inl (CallAt.copStep h e)

/-! ## Every stage is left -/

section Served
variable (fair : FairCpu σ)
include fair

theorem verifying_leadsTo : LeadsTo σ l (Verifying s a) (CallReturned s a) := by
  intro n h
  obtain ⟨m, hm, hσ⟩ := fair n
  refine verifying_unless.helped h hm fun h => ?_
  rw [hσ, CallAt.turn_cpu h]
  exact h.cpuTick

theorem replied_leadsTo (k : Nat) : LeadsTo σ l (Replied s a k) (Verifying s a) := by
  refine leadsTo_of_decreasing (fun k n h => ?_) k
  obtain ⟨m, hm, hσ⟩ := fair n
  refine (replied_unless k).helped h hm fun h => ?_
  rw [hσ, CallAt.turn_cpu h.1]
  exact h.cpuTick

variable (served : CoprocReplies σ l)
include served

/-- A poll that finds `dev.OUT` full is followed by a consume step, so `dev.OUT` cannot stay full (R103, R109). -/
theorem sending_leadsTo (hd : 1 ≤ s.cfg.fifoDepth) (k : Nat) :
    LeadsTo σ l (Sending s a k) fun t => ∃ j, Sent s a j t := by
  refine leadsTo_of_decreasing (fun k n h => ?_) k
  obtain ⟨m, hm, hσ⟩ := fair n
  rcases (sending_unless k).until h hm with h | ⟨i, sent⟩
  case inr => exact ⟨i, .inl sent⟩
  rcases h.cpuTick with ⟨full, -⟩ | sent
  case inr =>
    refine ⟨m + 1, .inl ?_⟩
    show ∃ j, Sent s a j (turnStep (σ m) (execution σ l m))
    rw [hσ, CallAt.turn_cpu h.1]
    exact sent
  have hk : 1 ≤ k := (full ▸ hd).trans h.2
  obtain ⟨m', hm', hσ'⟩ := (served m).2 (by rintro e; rw [e] at full; simp at full; omega)
  rcases (sending_unless k).until h hm' with ⟨hat, hlen⟩ | ⟨i, sent⟩
  case inr => exact ⟨i, .inl sent⟩
  refine ⟨m' + 1, .inr ⟨k - 1, by omega, ?_⟩⟩
  show Sending s a (k - 1) (turnStep (σ m') (execution σ l m'))
  rw [hσ', turnStep_cop]
  refine ⟨hat.copStep .consume, ?_⟩
  rcases copConsume_cases (execution σ l m') with ⟨hq, e⟩ | ⟨w, rest, hq, e⟩
  · simp [copStep, e, hq]
  · simp [copStep, e, hq] at hlen ⊢
    omega

variable (ha : a &&& 0xF#32 = 0#32)
include ha

/-- A pending request is answered, and the reply word puts `call` in the stage before (R107, R109). -/
theorem requested_leadsTo : LeadsTo σ l (Requested s a) (Verifying s a) := by
  intro n h
  obtain ⟨hat, hp⟩ := h
  obtain ⟨m, hm, ⟨ds, hσ⟩, hpm, room⟩ := (served n).1 _ hp rfl
  rcases awaiting_unless.until hat hm with hat | hv
  · have arrived : Replied s a (execution σ l m).dev.inq.length (execution σ l (m + 1)) := by
      show Replied s a _ (turnStep (σ m) (execution σ l m))
      rw [hσ, turnStep_cop, copStep, copAnswer_enabled ds hpm (of_decide_eq_true room)]
      exact ⟨hat, _, _, [], rfl, chanOf_reply ha, rfl⟩
    exact replied_leadsTo fair _ _ arrived
  · exact hv

/-- The coprocessor consumes while the request is on `dev.OUT` (R106, R109). -/
theorem sent_leadsTo (k : Nat) : LeadsTo σ l (Sent s a k) (Verifying s a) := by
  intro n h
  obtain ⟨m, hr | hv⟩ := leadsTo_of_decreasing (P := Sent s a) (Q := fun t => Requested s a t ∨ Verifying s a t)
    (fun k n h => by
      have : (execution σ l n).dev.out ≠ [] := by
        obtain ⟨-, pre, post, hout, -⟩ := h
        simp [hout]
      obtain ⟨m, hm, hσ⟩ := (served n).2 this
      refine (sent_unless ha k).helped h hm fun h => ?_
      rw [hσ, turnStep_cop]
      exact (h.consume ha).imp_left .inl) k n h
  · exact requested_leadsTo fair served ha m hr
  · exact ⟨m, hv⟩

end Served

/-- Settles O21: the stages of `call` follow one another, from a poll of `dev.OUT` (`sending_leadsTo`) over the request
(`sent_leadsTo`) to the success test (`verifying_leadsTo`). COPROC_FINITE_NOISE is not needed: an answer in the sense of
COPROC_REPLIES is one for which `dev.IN` has room, and every poll then takes a word ahead of the reply. -/
theorem callReturnsWhenServed : Obligations.CallReturnsWhenServed := by
  intro s a ha hd hu
  refine ⟨(s.withCpu [.pollFull 8#32 a, .pollEmpty 8#32 .drop, .verify a .call]).withSched [],
    (exec_mbCall (s := s.withSched [.pause]) ha).trans (congrArg _ (drive_pause _ (by simp))), by simp,
    fun σ fair served _ => ?_⟩
  obtain ⟨_, _, sent⟩ := sending_leadsTo (s := s) fair served hd s.dev.out.length 0
    ⟨⟨hu, rfl, rfl, rfl, rfl⟩, le_refl _⟩
  obtain ⟨_, verifying⟩ := sent_leadsTo fair served ha _ _ sent
  exact verifying_leadsTo fair _ verifying

end Sys2Proof.Machine
end

section
/-! SUPPORT. What the codec's checks end its operations with (spec/41_property_codec.md R121 to R124,
spec/60_exceptions.md R172 to R175), and the message that `begin`, tags and `finish` leave in the buffer (R125, R126). -/

namespace Sys2Proof.Machine

variable {s : State} {id vbuf : Word} {req : List Word}

/-! ## What the checks end an operation with -/

/-- The first check that refuses ends the operation; the refusal is recorded where nothing is yet (R41, R175). -/
theorem launch_refused (hu : s.Unmarked) (r : Refusal) :
    launch (refuse r s) = .next { s with refused := some r, cpu := [], pos := s.pos + 1 } := by
  rw [launch_refuse, State.markRefused_of_unmarked s r hu.1 hu.2]
  rfl

/-- The same for a fault. -/
theorem launch_raised (hu : s.Unmarked) (f : Fault) :
    launch (raise f s) = .next { s with fault := some f, cpu := [], pos := s.pos + 1 } := by
  rw [launch_raise, State.markFault_of_unmarked s f hu.1 hu.2]
  rfl

theorem addTagWork_outsideBuild (hp : s.pm.phase ≠ .building) : addTagWork id vbuf req s = refuse .pmPhase s :=
  if_pos hp

theorem addTagWork_zero (hp : s.pm.phase = .building) : addTagWork 0#32 vbuf req s = refuse .tagZero s := by
  simp [addTagWork, hp, Config.tagEnd]

theorem addTagWork_tooLong (hp : s.pm.phase = .building) (hid : id ≠ 0#32) (hr : ceilDiv4 vbuf.toNat < req.length) :
    addTagWork id vbuf req s = refuse .reqTooLong s := by
  simp [addTagWork, hp, Config.tagEnd, hid, hr]

theorem addTagWork_overflow (hp : s.pm.phase = .building) (hid : id ≠ 0#32) (hr : req.length ≤ ceilDiv4 vbuf.toNat)
    (hf : s.cfg.msgCapWords < s.pm.cursor + 3 + ceilDiv4 vbuf.toNat) :
    addTagWork id vbuf req s = raise (.msgOverflow s.pm.cursor (3 + ceilDiv4 vbuf.toNat)) s := by
  simp [addTagWork, hp, Config.tagEnd, hid, hr.not_gt, hf]

theorem finishWork_outsideBuild (hp : s.pm.phase ≠ .building) : finishWork s = refuse .pmPhase s := if_pos hp

theorem finishWork_overflow (hp : s.pm.phase = .building) (hf : s.cfg.msgCapWords < s.pm.cursor + 1) :
    finishWork s = raise (.msgOverflow s.pm.cursor 1) s := by
  simp [finishWork, hp, hf]

/-- `add_tag` outside a build (R121). -/
theorem addTag_outsideBuild (hu : s.Unmarked) (hp : s.pm.phase ≠ .building) :
    addTag id vbuf req s = .next { s with refused := some .pmPhase, cpu := [], pos := s.pos + 1 } := by
  rw [addTag, addTagWork_outsideBuild hp, returning_refuse, launch_refused hu]

/-- `add_tag` of an admitted tag of `n` value words with no room for its block (R121). -/
theorem addTag_overflow {n : Nat} (hu : s.Unmarked) (hp : s.pm.phase = .building) (hid : id ≠ 0#32)
    (hn : ceilDiv4 vbuf.toNat = n) (hr : req.length ≤ n) (hf : s.cfg.msgCapWords < s.pm.cursor + 3 + n) :
    addTag id vbuf req s =
      .next { s with fault := some (.msgOverflow s.pm.cursor (3 + n)), cpu := [], pos := s.pos + 1 } := by
  subst hn
  rw [addTag, addTagWork_overflow hp hid hr hf, returning_raise, launch_raised hu]

/-! ## The obligations about one operation -/

/-- The END row is `finish` (R122, notes/assumptions/1.md). -/
theorem exec_finish {i : Instr} (hi : i ∈ [Instr.pmFinish, Instr.tagEnd]) (s : State) :
    exec i s = launch ((finishWork s).returning .none) := by
  simp only [List.mem_cons, List.not_mem_nil, or_false] at hi
  obtain rfl | rfl := hi <;> rfl

/-- The buffer's size in bytes is a word: a register stands beside the buffer (R50, R59). -/
theorem bufferBytes_lt {p : Config.Params} (h : p.Wf) : p.bufferBytes < addressSpace := by
  have space := h.inSpace
  have reg := h.regInSpace .read
  have apart := h.apart .read
  unfold Config.Params.ApartFrom Config.Params.bufferBytes at *
  omega

/-- Settles O22: the word and the builder's record are all that `begin` leaves (`execPmBegin_alone`). -/
theorem beginStartsMessage : Obligations.BeginStartsMessage := by
  intro s hw hs
  have room : 1 + 1 ≤ s.cfg.msgCapWords := le_trans (by decide) hw.capacity
  exact ⟨(s.setWord 1 0#32).mem, execPmBegin_alone hs, word_setWord hw room,
    fun b hb => Memory.readByte_writeWord_other _ _ _ _ hb⟩

/-- Settles O23: the block `add_tag` leaves (`addTag_block`), word by word. -/
theorem addTagWritesBlock : Obligations.AddTagWritesBlock := by
  intro s g hw hs hp ⟨hid, hr⟩ hf
  have count : (valueWords g.valueCount g.req).length = g.valueCount := length_valueWords hr
  obtain ⟨m, next, block, frame⟩ := addTag_block (values := valueWords g.valueCount g.req) hw hs hp hid hr rfl
    (count.symm ▸ hf)
  rw [count] at next block frame
  refine ⟨m, next, ?_, ?_, ?_, fun j hj => ?_, frame⟩
  · exact (Option.some_inj.mp (block 0 (by omega))).symm
  · exact (Option.some_inj.mp (block 1 (by omega))).symm
  · exact (Option.some_inj.mp (block 2 (by omega))).symm
  · have word := block (3 + j) (by omega)
    rw [Nat.add_comm 3 j] at word ⊢
    exact Option.some_inj.mp (word.symm.trans (valueWords_getElem? hr hj))

/-- Settles O25: each check is the first that fails, and ends `add_tag` before any write. -/
theorem addTagChecksInOrder : Obligations.AddTagChecksInOrder := by
  intro s g hf hr
  have refuses {r : Refusal} (h : addTagWork g.id g.vbuf g.req s = refuse r s) :
      addTag g.id g.vbuf g.req s = .next { s with refused := some r, cpu := [], pos := s.pos + 1 } := by
    rw [addTag, h, returning_refuse, launch_refused ⟨hf, hr⟩]
  refine ⟨fun hp => ?_, fun hp hid => ?_, fun hp hid hlong => ?_, fun hp ⟨hid, hreq⟩ hroom => ?_⟩
  · exact refuses (addTagWork_outsideBuild hp)
  · exact refuses (hid ▸ addTagWork_zero hp)
  · exact refuses (addTagWork_tooLong hp hid hlong)
  · exact addTag_overflow ⟨hf, hr⟩ hp hid rfl hreq hroom

/-- Settles O26: the END word and the size are all that `finish` writes (`finish_alone`); the size is a word because the
buffer does not fill the address space (`bufferBytes_lt`). -/
theorem finishWritesEndAndSize : Obligations.FinishWritesEndAndSize := by
  intro s hw hs hp hc hf i hi
  have fits : 4 * (s.pm.cursor + 1) < 2 ^ 32 := lt_of_le_of_lt (Nat.mul_le_mul_left 4 hf) (bufferBytes_lt hw)
  have words (size : Word) : ((s.setWord s.pm.cursor 0#32).setWord 0 size).word s.pm.cursor = 0#32 ∧
      ((s.setWord s.pm.cursor 0#32).setWord 0 size).word 0 = size :=
    ⟨(word_setWord_other (by omega)).trans (word_setWord hw hf),
      word_setWord (s := s.setWord s.pm.cursor 0#32) hw (le_trans (by omega) hf)⟩
  exact ⟨_, (exec_finish hi s).trans (finish_alone hs hp hf), (words _).1,
    (congrArg BitVec.toNat (words _).2).trans (Nat.mod_eq_of_lt fits), fun b hzero hend =>
    (Memory.readByte_writeWord_other _ _ _ _ hzero).trans (Memory.readByte_writeWord_other _ _ _ _ hend)⟩

/-- Settles O27: out of its phase and on overflow each operation ends at its first check; a row is `add_tag`. -/
theorem codecStopsOutOfOrder : Obligations.CodecStopsOutOfOrder := by
  intro s u v w hf hr
  have hu : s.Unmarked := ⟨hf, hr⟩
  refine ⟨fun hp i hi => ?_, fun hp hroom i hi => ?_, ?_, fun hp c => ?_, fun i hi => ?_⟩
  · refine (exec_finish hi s).trans ?_
    rw [finishWork_outsideBuild hp, returning_refuse, launch_refused hu]
  · refine (exec_finish hi s).trans ?_
    rw [finishWork_overflow hp hroom, returning_raise, launch_raised hu]
  · simp only [List.forall_mem_cons]
    refine ⟨?_, ?_, ?_, ?_, ?_, ?_, ?_, ?_, ?_, ?_, ?_, ?_, ?_, ?_, ?_, List.forall_mem_nil _⟩ <;>
      exact ⟨addTag_outsideBuild hu,
        fun hp => addTag_overflow hu hp (by decide) rfl (Nat.le_of_ble_eq_true rfl)⟩
  · have refused : pmCallWork c .pmCall s = refuse .pmPhase s := if_pos hp
    exact (congrArg launch refused).trans (launch_refused hu _)
  · have refused : readIndex i s = refuse .pmIndex s := if_pos hi
    show conclude (wordResult (readIndex i s)) = _
    rw [refused, wordResult, refuse_andThen, conclude_refuse, State.markRefused_of_unmarked s _ hf hr]
    rfl

/-- The bytes of a word weighted little-endian (R54). -/
theorem wordOfBytes_eq_ofNat (b0 b1 b2 b3 : Byte) : wordOfBytes b0 b1 b2 b3 =
    BitVec.ofNat 32 (b0.toNat + 2 ^ 8 * b1.toNat + 2 ^ 16 * b2.toNat + 2 ^ 24 * b3.toNat) := by
  apply BitVec.eq_of_toNat_eq
  rw [wordOfBytes, BitVec.toNat_append, ← Nat.shiftLeft_add_eq_or_of_lt b0.isLt, BitVec.toNat_append,
    ← Nat.shiftLeft_add_eq_or_of_lt b1.isLt, BitVec.toNat_append, ← Nat.shiftLeft_add_eq_or_of_lt b2.isLt,
    BitVec.toNat_ofNat]
  omega

/-- Settles O28: a read-back inside the buffer is `Word(index)`, the four bytes little-endian. -/
theorem readBackReturnsTheWord : Obligations.ReadBackReturnsTheWord := by
  intro s i hi
  have read : readIndex i s = .ok (s.word i) s := if_neg hi.not_ge
  show conclude (wordResult (readIndex i s)) = _
  rw [read, ← wordOfBytes_eq_ofNat]
  rfl

/-! ## The property call -/

/-- A call whose request the coprocessor takes and answers, from its first poll to its success test, whatever that
decides (R105). -/
theorem drive_servedCall {a : Word} (task : Task) (ds : List (Option Word)) (ha : a &&& 0xF#32 = 0#32)
    (hd : 1 ≤ s.cfg.fifoDepth) (hdev : s.dev = ⟨[], []⟩) (hp : s.cop.pending = []) :
    drive [.cpu, .cop .consume, .cop (.answer a ds)]
        (s.withCpu [.pollFull 8#32 a, .pollEmpty 8#32 .drop, .verify a task]) =
      alone (afterVerify a task ((s.withMem (s.mem.answered a ds)).withSched [])) := by
  have hout : s.dev.out = [] := by rw [hdev]
  have sends : cpuTick (s.withCpu [.pollFull 8#32 a, .pollEmpty 8#32 .drop, .verify a task]) =
      (s.withCpu [.pollEmpty 8#32 .drop, .verify a task]).withOut [assemble a 8#32] := by
    rw [cpuTick_pollFull_room rfl (by simp [hout]; omega), State.withCpu_dev, hout]
    rfl
  rw [drive_cpu _ (by simp), sends,
    drive_call_reply (s := s.withCpu [.pollEmpty 8#32 .drop, .verify a task]) task ds ha hd hdev hp rfl]
  exact congrArg alone (afterVerify_withCpu a task ((s.withMem (s.mem.answered a ds)).withSched []) _)

/-- Settles O29: the request of a finished message is served (`drive_servedCall`), and the success test reads the answered
code word (`code_of_answer`). -/
theorem propertyCallConsumesTheMessage : Obligations.PropertyCallConsumesTheMessage := by
  intro s c ds hw hp hdev hpending hsize hs
  refine ⟨s.mem.answered s.cfg.msgBufAddr (some c :: ds), ?_, fun b hb => readByte_rewriteMessage_other _ _ _ _ _ _ hb⟩
  show launch (pmCallWork 8#32 .pmCall s) = _
  rw [pmCallWork_property .pmCall hp hw.aligned, launch_ok, hs]
  show Host.Outcome.next (drive _ (s.withCpu _)) = _
  rw [drive_servedCall .pmCall (some c :: ds) hw.aligned hw.fifo hdev hpending, afterVerify, alone_returned]
  simp only [State.withSched_mem, State.withMem_mem, code_of_answer c ds hw.aligned hsize, success_eq_bit31]
  rfl

/-! ## A whole message -/

/-- The block that `add_tag` leaves for a tag (R79, R121). -/
def TagRequest.block (g : TagRequest) : TagBlock := ⟨g.id, g.vbuf, 0#32, valueWords g.valueCount g.req⟩

theorem TagRequest.Admitted.length_block {g : TagRequest} (h : g.Admitted) :
    g.block.words.length = 3 + g.valueCount := by
  have values : (valueWords g.valueCount g.req).length = g.valueCount := length_valueWords h.2
  simp [TagRequest.block, TagBlock.words, values]
  omega

/-- The blocks of tags, one after another. -/
def tagWords (gs : List TagRequest) : List Word := (gs.map TagRequest.block).flatMap TagBlock.words

theorem length_tagWords {gs : List TagRequest} (ha : ∀ g ∈ gs, g.Admitted) :
    (tagWords gs).length = (gs.map fun g => 3 + g.valueCount).sum := by
  rw [tagWords, List.flatMap_map, List.length_flatMap]
  exact congrArg List.sum (List.map_congr_left fun g hg => (ha g hg).length_block)

/-- What the operations of a build leave, each or several together: the words `vs` from word `i` up and the builder's
record; else they change the CPU's position and the results only. -/
structure Wrote (s : State) (i : Nat) (vs : List Word) (p : Builder) (t : State) : Prop where
  mem     : t.mem = (s.setWords i vs).mem
  pm      : t.pm = p
  cfg     : t.cfg = s.cfg
  sched   : t.sched = s.sched
  fault   : t.fault = s.fault
  refused : t.refused = s.refused

theorem wrote_returned (s : State) (i : Nat) (vs : List Word) (p : Builder) (r : Result) :
    Wrote s i vs p (((s.setWords i vs).withPm p).returned r) := ⟨rfl, rfl, rfl, rfl, rfl, rfl⟩

theorem wrote_setWord (s : State) (i : Nat) (v : Word) : Wrote s i [v] s.pm (s.setWord i v) :=
  ⟨rfl, rfl, rfl, rfl, rfl, rfl⟩

theorem wrote_nil (s : State) (i : Nat) : Wrote s i [] s.pm s := ⟨rfl, rfl, rfl, rfl, rfl, rfl⟩

theorem Wrote.unmarked {t : State} {i : Nat} {vs : List Word} {p : Builder} (h : Wrote s i vs p t) (hu : s.Unmarked) :
    t.Unmarked := ⟨h.fault.trans hu.1, h.refused.trans hu.2⟩

theorem Wrote.word {t : State} {i : Nat} {vs : List Word} {p : Builder} (h : Wrote s i vs p t) (j : Nat) :
    t.word j = (s.setWords i vs).word j := by
  unfold State.word State.wordAddr
  rw [h.mem, h.cfg]
  rfl

/-- Words written after words. -/
theorem Wrote.append {t u : State} {i j : Nat} {vs ws : List Word} {p q : Builder} (h : Wrote s i vs p t)
    (hj : i + vs.length = j) (k : Wrote t j ws q u) : Wrote s i (vs ++ ws) q u where
  mem := by
    have addr : t.wordAddr j = s.wordAddr j := by unfold State.wordAddr; rw [h.cfg]
    rw [k.mem, ← setWords_append, hj, State.setWords_mem, State.setWords_mem, h.mem, addr]
    rfl
  pm := k.pm
  cfg := k.cfg.trans h.cfg
  sched := k.sched.trans h.sched
  fault := k.fault.trans h.fault
  refused := k.refused.trans h.refused

/-- An operation that records nothing is followed by the next. -/
theorem execAll_cons {i : Instr} {t : State} (is : List Instr) (h : exec i s = .next t) (hu : t.Unmarked) :
    execAll (i :: is) s = execAll is t := by
  simp [execAll, h, hu.1, hu.2]

/-- Admitted tags that fit, added one after another, leave their blocks one after another (R121). -/
theorem execAll_addTags (is : List Instr) (gs : List TagRequest) (hs : s.sched = []) (hu : s.Unmarked)
    (hp : s.pm.phase = .building) (ha : ∀ g ∈ gs, g.Admitted)
    (hf : s.pm.cursor + (gs.map fun g => 3 + g.valueCount).sum ≤ s.cfg.msgCapWords) :
    ∃ t, execAll (gs.map (fun g => .pmAddTag g.id g.vbuf g.req) ++ is) s = execAll is t ∧
      Wrote s s.pm.cursor (tagWords gs)
        ⟨.building, s.pm.cursor + (gs.map fun g => 3 + g.valueCount).sum⟩ t := by
  induction gs generalizing s with
  | nil =>
    have pm : s.pm = ⟨.building, s.pm.cursor⟩ := by rw [← hp]
    exact ⟨s, rfl, pm ▸ wrote_nil s _⟩
  | cons g gs ih =>
    obtain ⟨hg, hgs⟩ := List.forall_mem_cons.mp ha
    simp only [List.map_cons, List.sum_cons] at hf
    have room : s.pm.cursor + 3 + g.valueCount ≤ s.cfg.msgCapWords := by omega
    obtain ⟨u, he, first⟩ : ∃ u, exec (.pmAddTag g.id g.vbuf g.req) s = .next u ∧
        Wrote s s.pm.cursor g.block.words ⟨.building, s.pm.cursor + 3 + g.valueCount⟩ u :=
      ⟨_, addTag_alone hs hp hg.1 hg.2 room, wrote_returned s _ _ _ _⟩
    have cursor : u.pm.cursor = s.pm.cursor + 3 + g.valueCount := by rw [first.pm]
    obtain ⟨t, hes, others⟩ := ih (first.sched.trans hs) (first.unmarked hu) (by rw [first.pm]) hgs
      (by rw [cursor, first.cfg]; omega)
    refine ⟨t, (execAll_cons _ he (first.unmarked hu)).trans hes, ?_⟩
    rw [cursor, Nat.add_assoc s.pm.cursor 3, Nat.add_assoc] at others
    exact first.append (by rw [hg.length_block]) others

/-- The words of a message whose words from word 1 up have been written, with its size in word 0 (R78). -/
theorem Wrote.words_setSize {t : State} {vs : List Word} {p : Builder} (h : Wrote s 1 vs p t) (hw : s.cfg.Wf)
    (hf : vs.length + 1 ≤ s.cfg.msgCapWords) (size : Word) :
    (List.range (vs.length + 1)).map (t.setWord 0 size).word = size :: vs := by
  have head : (t.setWord 0 size).word 0 = size :=
    word_setWord (h.cfg ▸ hw) (by rw [h.cfg]; omega)
  have tail (k : Nat) (hk : k < vs.length) : (t.setWord 0 size).word (k + 1) = vs[k] := by
    rw [word_setWord_other (by omega), h.word, Nat.add_comm k 1, word_setWords hw hk (by omega)]
  rw [List.range_succ_eq_map, List.map_cons, List.map_map, head]
  exact congrArg _ (List.ext_getElem (by simp) fun k _ hk => by simpa using tail k hk)

/-- `finish` of a build whose words from word 1 up have been written: the words of the message (R122). -/
theorem Wrote.finish {t : State} {vs : List Word} {c : Nat} (h : Wrote s 1 vs ⟨.building, c⟩ t) (hc : 1 + vs.length = c)
    (hw : s.cfg.Wf) (hs : s.sched = []) (hu : s.Unmarked) (hf : c + 1 ≤ s.cfg.msgCapWords) :
    ∃ u, execAll [.pmFinish] t = some u ∧ u.pm = ⟨.finished, c + 1⟩ ∧
      (List.range (c + 1)).map u.word = BitVec.ofNat 32 (4 * (c + 1)) :: (vs ++ [0#32]) := by
  obtain rfl : t.pm.cursor = c := by rw [h.pm]
  have ended : Wrote s 1 (vs ++ [0#32]) t.pm (t.setWord t.pm.cursor 0#32) := h.append hc (wrote_setWord t _ _)
  have length : (vs ++ [0#32]).length = t.pm.cursor := by simp; omega
  have words := ended.words_setSize hw (by omega) (BitVec.ofNat 32 (4 * (t.pm.cursor + 1)))
  rw [length] at words
  have next := finish_alone (h.sched.trans hs) (by rw [h.pm]) (h.cfg ▸ hf)
  exact ⟨_, execAll_cons [] next (h.unmarked hu), rfl, words⟩

theorem TagRequest.Admitted.block_walkable {g : TagRequest} (h : g.Admitted) :
    g.block.id ≠ 0#32 ∧ g.block.values.length = ceilDiv4 g.block.vbuf.toNat := ⟨h.1, length_valueWords h.2⟩

/-- Blocks decode after a size and a code word and before END (R78, R81). -/
theorem decodeMessage_blocks (size code : Word) (bs : List TagBlock)
    (h : ∀ b ∈ bs, b.id ≠ 0#32 ∧ b.values.length = ceilDiv4 b.vbuf.toNat) :
    decodeMessage (size :: code :: (bs.flatMap TagBlock.words ++ [0#32])) = some ⟨size, code, bs⟩ := by
  have fuel : bs.length ≤ (bs.flatMap TagBlock.words).length := by
    rw [List.length_flatMap]
    simpa using List.length_le_sum_of_one_le (bs.map fun b => b.words.length) (by simp [TagBlock.words])
  rw [decodeMessage, show [0#32] = [Config.tagEnd] from rfl,
    walkTags_blocks bs _ [] (by rw [List.length_append]; omega) h]
  rfl

/-- `begin`, admitted tags that fit, `finish`: the words of the message from word 0 to END (R125, R126). -/
theorem execAll_message (gs : List TagRequest) (hw : s.cfg.Wf) (hs : s.sched = []) (hu : s.Unmarked)
    (ha : ∀ g ∈ gs, g.Admitted) (hf : messageWords gs ≤ s.cfg.msgCapWords) :
    ∃ t, execAll (.pmBegin :: gs.map (fun g => .pmAddTag g.id g.vbuf g.req) ++ [.pmFinish]) s = some t ∧
      t.pm = ⟨.finished, messageWords gs⟩ ∧
      (List.range (messageWords gs)).map t.word =
        BitVec.ofNat 32 (4 * messageWords gs) :: 0#32 :: (tagWords gs ++ [0#32]) := by
  have hwords : messageWords gs = 2 + (tagWords gs).length + 1 := by rw [length_tagWords ha]; rfl
  obtain ⟨u, hbegin, begun⟩ : ∃ u, exec .pmBegin s = .next u ∧ Wrote s 1 [0#32] ⟨.building, 2⟩ u :=
    ⟨_, execPmBegin_alone hs, wrote_returned s _ _ _ _⟩
  obtain ⟨t, htags, added⟩ := execAll_addTags [.pmFinish] gs (begun.sched.trans hs) (begun.unmarked hu)
    (by rw [begun.pm]) ha (by rw [begun.pm, begun.cfg, ← length_tagWords ha]; dsimp only; omega)
  rw [begun.pm, ← length_tagWords ha] at added
  have built : Wrote s 1 (0#32 :: tagWords gs) ⟨.building, 2 + (tagWords gs).length⟩ t := begun.append rfl added
  obtain ⟨v, hfinish, hpm, words⟩ := built.finish (by simp; omega) hw hs hu (by omega)
  rw [← hwords] at hpm words
  refine ⟨v, ?_, hpm, words⟩
  calc execAll (.pmBegin :: gs.map (fun g => .pmAddTag g.id g.vbuf g.req) ++ [.pmFinish]) s
    _ = execAll (gs.map (fun g => .pmAddTag g.id g.vbuf g.req) ++ [.pmFinish]) u :=
      execAll_cons _ hbegin (begun.unmarked hu)
    _ = execAll [.pmFinish] t := htags
    _ = some v := hfinish

/-- Settles O30: the operations leave the blocks between the code word and END (`execAll_message`), and the walk over such
words finds the blocks (`decodeMessage_blocks`). -/
theorem encodedMessageDecodesToItsTags : Obligations.EncodedMessageDecodesToItsTags := by
  intro s gs hw hs hu ha hf
  obtain ⟨t, he, hpm, words⟩ := execAll_message gs hw hs hu ha hf
  refine ⟨t, he, hpm, ?_⟩
  rw [words]
  exact decodeMessage_blocks _ _ _ (List.forall_mem_map.mpr fun g hg => (ha g hg).block_walkable)

end Sys2Proof.Machine
end

section
/-! SUPPORT. The pixel writer's obligations (spec/42_framebuffer.md R143 to R145): a rectangle on a region that holds every
pixel, one pixel out of bounds or out of the region, and what the driver's checks refuse. -/

namespace Sys2Proof.Machine

variable {s : State}

/-! ## A painted rectangle -/

/-- The pixels of a clipped rectangle are those of the rectangle that are in the buffer (R144). -/
theorem mem_clippedRect {d : Descriptor} {x y w h : Int} {c : Color} {p : Pixel} :
    p ∈ rectPixels (max x 0) (min (x + w) d.width.toNat) (max y 0) (min (y + h) d.height.toNat) c ↔
      d.contains p.x p.y = true ∧ x ≤ p.x ∧ p.x < x + w ∧ y ≤ p.y ∧ p.y < y + h ∧ p.color = c := by
  rw [mem_rectPixels, Descriptor.contains_iff]
  constructor
  · rintro ⟨hx0, hx1, hy0, hy1, hc⟩
    exact ⟨⟨by omega, by omega, by omega, by omega⟩, by omega, by omega, by omega, by omega, hc⟩
  · rintro ⟨⟨hx0, hxW, hy0, hyH⟩, hx, hxw, hy, hyh, hc⟩
    exact ⟨by omega, by omega, by omega, by omega, hc⟩

/-- A pixel of a run of one colour has that colour, where the region holds every pixel and rows do not overlap. -/
theorem colorAt_painted_uniform {d : Descriptor} (hf : d.Fits) (hd : d.depth = 32#32)
    (hp : 4 * d.width.toNat ≤ d.pitch.toNat) {ps : List Pixel} {c : Color} (hc : ∀ p ∈ ps, p.color = c) (m : Memory)
    {i j : Nat} (hin : d.contains i j = true) (hmem : ⟨i, j, c⟩ ∈ ps) :
    (painted d ps m).1.colorAt (d.buffer.toNat + (j * d.pitch.toNat + 4 * i)) = c := by
  have inside := Descriptor.outside_eq_false.mp (hf.inside hd hin)
  have hoff : d.offset i j = j * d.pitch.toNat + 4 * i := Descriptor.offset_depth32 hd _ _
  obtain ⟨hi, hj⟩ := Descriptor.contains_nat.mp hin
  refine colorAt_painted d ps m _ c (by omega) (painted_no_fault m fun p _ h => hf.inside hd h) (fun p hp' hpc => ?_)
    (.inr ⟨_, hmem, hin, by rw [hoff]⟩)
  have hoffp := Descriptor.offset_depth32 hd p.x p.y
  obtain ⟨hx0, hxW, hy0, hyH⟩ := Descriptor.contains_iff.mp hpc
  by_cases same : p.x.toNat = i ∧ p.y.toNat = j
  · obtain ⟨hxi, hyj⟩ := same
    exact .inl ⟨by rw [hoffp, hxi, hyj], hc p hp'⟩
  · have := pixel_apart (i := i) (j := j) (k := p.x.toNat) (l := p.y.toNat) hp hi (by omega) (by omega)
    exact .inr (by omega)

/-- On a region that holds every pixel a run of pixels returns, whatever its pixels (R143, R201). -/
theorem paint_fits (hd : s.Drawable) (hf : s.fb.desc.Fits) (hs : s.sched = []) (ps : List Pixel) :
    paint ps s = .next ((s.withMem (painted s.fb.desc ps s.mem).1).returned .none) := by
  rw [paint_alone hd hs, State.drew_none (painted_no_fault _ fun p _ h => hf.inside hd.2 h)]

/-- Settles O40: the pixels of the loop are those of the intersection (`mem_clippedRect`), all of one colour
(`colorAt_painted_uniform`), and no other byte is written (`readByte_painted_other`). -/
theorem fillRectPaintsIntersection : Obligations.FillRectPaintsIntersection := by
  intro s x y w h c hd hf hs hit
  refine ⟨_, paint_fits hd hf hs _, rfl, fun hp i j hij => ?_, fun a ha => ?_⟩
  · obtain ⟨hi, hj, hx, hxw, hy, hyh⟩ := hij
    have hin : s.fb.desc.contains i j = true := Descriptor.contains_nat.mpr ⟨hi, hj⟩
    refine colorAt_painted_uniform hf hd.2 hp (fun p hp => ?_) s.mem hin
      (mem_clippedRect.mpr ⟨hin, hx, hxw, hy, hyh, rfl⟩)
    obtain ⟨-, -, -, -, -, hcol⟩ := mem_clippedRect.mp hp
    exact hcol
  · refine readByte_painted_other s.fb.desc _ s.mem a fun p hp hc _ => ?_
    obtain ⟨-, hx, hxw, hy, hyh, -⟩ := mem_clippedRect.mp hp
    obtain ⟨hx0, hxW, hy0, hyH⟩ := Descriptor.contains_iff.mp hc
    rw [Descriptor.offset_depth32 hd.2]
    exact ha p.x.toNat p.y.toNat ⟨by omega, by omega, by omega, by omega, by omega, by omega⟩

/-- Settles O41: `clear` is `fill_rect` of the whole extent (R145), whose intersection is every pixel. -/
theorem clearPaintsEveryPixel : Obligations.ClearPaintsEveryPixel := by
  intro s c hd hf hs
  obtain ⟨t, ht, frame, paints, other⟩ :=
    fillRectPaintsIntersection s 0 0 s.fb.desc.width.toNat s.fb.desc.height.toNat c hd hf hs
  exact ⟨t, ht, frame, fun hp i j hi hj => paints hp i j ⟨hi, hj, by omega, by omega, by omega, by omega⟩,
    fun a ha => other a fun i j hij => ha i j hij.1 hij.2.1⟩

/-! ## One pixel -/

/-- A pixel out of bounds writes nothing (R143). -/
theorem painted_outOfBounds {d : Descriptor} {p : Pixel} (m : Memory) (h : ¬ d.contains p.x p.y = true) :
    painted d [p] m = (m, none) := by
  rw [painted, if_neg h, painted]

/-- Settles O38: the pixel loop over the one pixel passes it by (`painted_outOfBounds`), or faults at it with nothing
written (`painted_faults_at`). -/
theorem putPixelOutOfBoundsOrRegion : Obligations.PutPixelOutOfBoundsOrRegion := by
  intro s x y c hd hs
  have puts := exec_putPixel hd hs ⟨x, y, c⟩
  refine ⟨fun hout => ?_, fun hf hr hx0 hxW hy0 hyH off hoff hregion => ?_⟩
  · have out : ¬ s.fb.desc.contains x y = true := by
      rw [Descriptor.contains_iff]
      omega
    rw [puts, painted_outOfBounds s.mem out, State.drew_none rfl]
    rfl
  · have hin : s.fb.desc.contains x y = true := Descriptor.contains_iff.mpr ⟨hx0, hxW, hy0, hyH⟩
    have offset : s.fb.desc.offset x y = off := (Descriptor.offset_depth32 hd.2 x y).trans hoff.symm
    have outside : s.fb.desc.outside off = true := decide_eq_true hregion
    have faults : painted s.fb.desc [⟨x, y, c⟩] s.mem = (s.mem, some (.fbOutOfRegion x y off)) :=
      offset ▸ painted_faults_at (pre := []) (post := []) (q := ⟨x, y, c⟩) (m := s.mem) rfl hin (offset ▸ outside)
    rw [puts, faults, drew_unmarked ⟨hf, hr⟩]
    simp

/-! ## What the driver's checks refuse -/

/-- Each drawing operation begins with the checks of the driver, and its own work comes behind them (R143). -/
theorem drawing_checksFirst {i : Instr} {x y w h : Int} {ch : Byte} {text : List Byte} {c d : Color}
    (hi : i ∈ [Instr.fbPutPixel x y c, Instr.fbFillRect x y w h c, Instr.fbClear c, Instr.fbDrawChar x y ch c d,
      Instr.fbDrawString x y text c d]) (s : State) :
    ∃ f : Unit → State → Res (List Micro), exec i s = launch (((checkDrawable s).andThen f).returning .none) := by
  revert i
  simp only [List.forall_mem_cons]
  exact ⟨⟨_, rfl⟩, ⟨_, rfl⟩, ⟨_, rfl⟩, ⟨_, rfl⟩, ⟨_, rfl⟩, List.forall_mem_nil _⟩

theorem checkDrawable_uninit (h : s.fb.state = .uninit) : checkDrawable s = refuse .fbNotReady s :=
  if_pos (by rw [h]; decide)

theorem checkDrawable_depth (h : s.fb.state = .ready) (hd : s.fb.desc.depth ≠ 32#32) :
    checkDrawable s = refuse .depthUnsupported s :=
  (if_neg (not_not.mpr h)).trans (if_pos hd)

theorem drawStringWork_nul (hd : s.Drawable) {text : List Byte} (h0 : 0#8 ∈ text) (x y : Int) (fg bg : Color) :
    drawStringWork x y text fg bg s = refuse .textNul s := by
  rw [drawStringWork, checkDrawable_ok hd, Res.andThen_ok, if_pos (by simpa using h0)]

/-- Settles O39: each check is the first that refuses, and ends the operation before any write (`launch_refused`). -/
theorem driverRefusals : Obligations.DriverRefusals := by
  intro s x y w h ch text c d width height depth hf hr
  have hu : s.Unmarked := ⟨hf, hr⟩
  refine ⟨fun i hi => ?_, fun hd h0 => ?_, fun hready => ?_, fun huninit hp => ?_⟩
  · obtain ⟨f, e⟩ := drawing_checksFirst hi s
    refine ⟨fun hs => ?_, fun hs hdepth => ?_⟩ <;> rw [e]
    · rw [checkDrawable_uninit hs, refuse_andThen, returning_refuse, launch_refused hu]
    · rw [checkDrawable_depth hs hdepth, refuse_andThen, returning_refuse, launch_refused hu]
  · show launch ((drawStringWork x y text c d s).returning .none) = _
    rw [drawStringWork_nul hd h0, returning_refuse, launch_refused hu]
  · have refused : initWork width height depth s = refuse .fbReinit s := if_pos hready
    exact (congrArg launch refused).trans (launch_refused hu _)
  · have refused : initWork width height depth s = refuse .pmPhase s :=
      (if_neg (by rw [huninit]; decide)).trans (if_pos hp)
    exact (congrArg launch refused).trans (launch_refused hu _)

/-! ## Address translation -/

/-- Settles O32: the mask keeps the low 30 bits. -/
theorem busAddressLosesAliasBits : Obligations.BusAddressLosesAliasBits := by
  intro s bus
  refine ⟨busToCpu bus, ?_, rfl⟩
  rw [busToCpu, BitVec.toNat_and]
  exact Nat.and_two_pow_sub_one_eq_mod _ 30

end Sys2Proof.Machine
end

section
/-! SUPPORT. FB_INIT under a given schedule (spec/42_framebuffer.md R141, R142, R147): it builds its message and sends
it, the coprocessor takes and answers the request, and the read-backs decide. -/

namespace Sys2Proof.Machine

variable {s : State}

/-! ## From the beginning to the send -/

/-- The work of FB_INIT behind its checks (R141). -/
def initPieces (w h d : Word) : List Micro :=
  beginWork ++
    [.addTag 0x00048003 8 [w, h], .addTag 0x00048004 8 [w, h], .addTag 0x00048009 8 [0, 0], .addTag 0x00048005 4 [d],
     .allocTag w h d]

theorem exec_fbInit (hf : s.fb.state = .uninit) (hp : s.pm.phase ≠ .building) (w h d : Word) :
    exec (.fbInit w h d) s = .next (drive s.sched (settle (initPieces w h d) s)) := by
  have checks : initWork w h d s = .ok (initPieces w h d) s :=
    (if_neg (by rw [hf]; decide)).trans (if_neg hp)
  exact (congrArg launch checks).trans (launch_ok _ _)

/-- FB_INIT with its message built, at the poll loop of its send (R103, R142). -/
def State.initSends (s : State) (w h d : Word) : State :=
  { s with
    mem := initMemory w h d s, pm := ⟨.finished, 31⟩,
    cpu := [.pollFull 8#32 s.cfg.msgBufAddr, .pollEmpty 8#32 .drop, .verify s.cfg.msgBufAddr (.fbInit w h d 24 29)] }

theorem cpuTicks_initPieces (hw : s.cfg.Wf) (w h d : Word) :
    cpuTicks 39 (settle (initPieces w h d) s) = s.initSends w h d :=
  cpuTicks_init hw.capacity hw.aligned w h d

/-- FB_INIT with its message built, at the poll loop of its `receive` (R104). -/
def State.initReceives (s : State) (w h d : Word) : State :=
  { s with
    mem := initMemory w h d s, pm := ⟨.finished, 31⟩,
    cpu := [.pollEmpty 8#32 .drop, .verify s.cfg.msgBufAddr (.fbInit w h d 24 29)] }

/-- The same with the request sent (R103). -/
def State.initWaits (s : State) (w h d : Word) : State :=
  (s.initReceives w h d).withOut (s.dev.out ++ [s.cfg.msgBufAddr ||| 8#32])

/-- Without a word in `dev.IN` the CPU stays in that poll loop (R111). -/
theorem cpuTick_initWaits (hin : s.dev.inq = []) (w h d : Word) : cpuTick (s.initWaits w h d) = s.initWaits w h d :=
  cpuTick_pollEmpty_empty rfl hin

/-- The build and the send take 40 steps of the CPU. -/
theorem cpuTicks_initWaits (hw : s.cfg.Wf) (room : s.dev.out.length ≠ s.cfg.fifoDepth) (hin : s.dev.inq = [])
    (w h d : Word) {n : Nat} (hn : 40 ≤ n) : cpuTicks n (settle (initPieces w h d) s) = s.initWaits w h d := by
  have sends : cpuTick (s.initSends w h d) = s.initWaits w h d := by
    rw [cpuTick_pollFull_room rfl (by exact room), assemble_aligned _ hw.aligned]
    rfl
  obtain ⟨k, rfl⟩ := Nat.exists_eq_add_of_le hn
  rw [show 40 + k = 39 + (k + 1) by omega, cpuTicks_add, cpuTicks_initPieces hw, cpuTicks, sends,
    cpuTicks_fixed (cpuTick_initWaits hin w h d)]

/-- The 31 words of the message, in order (R142). -/
theorem initMemory_words (hw : s.cfg.Wf) (w h d : Word) :
    (List.range 31).map (fun i => (initMemory w h d s).readWord (s.cfg.msgBufAddr.toNat + 4 * i)) =
      124#32 :: initWords w h d := by
  rw [List.range_succ_eq_map, List.map_cons]
  congr 1
  · exact initMemory_word_zero hw w h d
  · refine List.ext_getElem (by simp [initWords]) fun k hk _ => ?_
    rw [List.getElem_map, List.getElem_map, List.getElem_range]
    exact initMemory_word_succ hw w h d (by simpa using hk)

/-- Settles O33: the CPU by itself comes to the poll loop of `receive` (`cpuTicks_initWaits`), with the message of R142 in
the buffer (`initMemory_words`). -/
theorem initializeMessageWordByWord : Obligations.InitializeMessageWordByWord := by
  intro s w h d hw hf hp room hin hs
  refine ⟨initMemory w h d s, s.initWaits w h d, ?_,
    by simp [State.initWaits, State.initReceives, State.withOut, hin], initMemory_words hw w h d,
    readByte_initMemory_other w h d s⟩
  rw [exec_fbInit hf hp, hs, drive_nil, State.withSched_self (by rw [settle_sched, hs]), ← alone_cpuTicks 40,
    cpuTicks_initWaits hw room hin w h d (le_refl 40), alone_fixed (cpuTick_initWaits hin w h d)]

/-! ## The reply -/

/-- The end of FB_INIT forgets where the CPU stood. -/
theorem endInit_withCpu (w h d bus size pitch : Word) (t : State) (c : List Micro) :
    endInit w h d bus size pitch (t.withCpu c) = endInit w h d bus size pitch t := by
  unfold endInit
  split <;> rfl

theorem endInit_over (w h d bus size pitch : Word) (t : State) : (endInit w h d bus size pitch t).cpu = [] := by
  unfold endInit
  split <;> rfl

/-- The read-backs read three words, and the end of FB_INIT decides by them (R141). -/
theorem alone_readBack (w h d : Word) (oA oP : Nat) (t : State) :
    alone (t.withCpu [.readBus w h d oA oP]) = endInit w h d (t.word oA) (t.word (oA + 1)) (t.word oP) t := by
  have reads : cpuTicks 3 (t.withCpu [.readBus w h d oA oP]) =
      endInit w h d (t.word oA) (t.word (oA + 1)) (t.word oP) t := endInit_withCpu _ _ _ _ _ _ t _
  rw [← alone_cpuTicks 3, reads, alone_nil (endInit_over _ _ _ _ _ _ t)]

/-- What FB_INIT leaves by itself once the reply has come, given the code word, the bus address, the size and the
pitch of the message (R141). -/
theorem alone_verify_init {t : State} {a w h d c bus size pitch : Word} {oA oP : Nat}
    (hc : t.mem.readWord (a.toNat + 4) = c) (hbus : t.word oA = bus) (hsize : t.word (oA + 1) = size)
    (hpitch : t.word oP = pitch) :
    alone (afterVerify a (.fbInit w h d oA oP) t) = { t with
      pm := ⟨.idle, t.pm.cursor⟩, cpu := [], pos := t.pos + 1,
      fb := if c.getLsbD 31 && decide (bus ≠ 0#32) then ⟨.ready, ⟨w, h, pitch, d, bus &&& 0x3FFFFFFF#32, size⟩⟩ else t.fb,
      results := t.results ++ [.flag (c.getLsbD 31 && decide (bus ≠ 0#32))] } := by
  subst hc hbus hsize hpitch
  simp only [afterVerify, success_eq_bit31]
  cases (t.mem.readWord (a.toNat + 4)).getLsbD 31 with
  | false => exact alone_returned _ _
  | true =>
    refine (alone_readBack w h d oA oP (t.withPm ⟨.idle, t.pm.cursor⟩)).trans ?_
    by_cases hz : t.word oA = 0#32 <;> simp [endInit, hz] <;> rfl

/-- A word of the message of FB_INIT that the answer gives (R107, R142). -/
theorem answered_initMemory (hw : s.cfg.Wf) (w h d : Word) {ds : List (Option Word)} {k : Nat} {v : Word} (hk : k < 30)
    (hv : ds[k]? = some (some v)) :
    ((initMemory w h d s).answered s.cfg.msgBufAddr ds).readWord (s.cfg.msgBufAddr.toNat + 4 * (k + 1)) = v := by
  have space := hw.inSpace
  have cap : 31 ≤ s.cfg.msgCapWords := hw.capacity
  unfold Config.Params.bufferBytes at space
  rw [Memory.answered, initMemory_word_zero hw, show ceilDiv4 (124#32).toNat = 31 from rfl,
    readWord_rewriteMessage _ _ _ 1 (k + 1) _ (by omega) (by omega) (by omega), Nat.add_sub_cancel, hv]
  rfl

/-- FB_INIT whose request is taken and answered once it is sent, up to its success test (R105, R141). -/
theorem exec_fbInit_served (hw : s.cfg.Wf) (hf : s.fb.state = .uninit) (hp : s.pm.phase ≠ .building)
    (hdev : s.dev = ⟨[], []⟩) (hpending : s.cop.pending = []) {k : Nat} (hk : 40 ≤ k) {ds : List (Option Word)}
    (hs : s.sched = List.replicate k .cpu ++ [.cop .consume, .cop (.answer s.cfg.msgBufAddr ds)]) (w h d : Word) :
    exec (.fbInit w h d) s = .next (alone (afterVerify s.cfg.msgBufAddr (.fbInit w h d 24 29) { s with
      mem := (initMemory w h d s).answered s.cfg.msgBufAddr ds, pm := ⟨.finished, 31⟩, sched := [] })) := by
  have hout : s.dev.out = [] := by rw [hdev]
  have fifo := hw.fifo
  have waits := cpuTicks_initWaits hw (by simp [hout]; omega) (by rw [hdev]) w h d hk
  have sent : s.initWaits w h d = (s.initReceives w h d).withOut [assemble s.cfg.msgBufAddr 8#32] := by
    rw [assemble_aligned _ hw.aligned, State.initWaits, hout, List.nil_append]
  rw [exec_fbInit hf hp, hs, drive_replicate_cpu _ _ _ (by rw [waits]; exact List.cons_ne_nil _ _), waits, sent,
    drive_call_reply (s := s.initReceives w h d) (.fbInit w h d 24 29) ds hw.aligned fifo hdev hpending rfl]
  exact congrArg (fun t => Host.Outcome.next (alone t)) (afterVerify_withCpu s.cfg.msgBufAddr _ { s with
    mem := (initMemory w h d s).answered s.cfg.msgBufAddr ds, pm := ⟨.finished, 31⟩, sched := [] } _)

/-- Settles O34: the answer gives the words the success test and the read-backs read (`answered_initMemory`), and they
decide (`alone_verify_init`). -/
theorem initializeFollowsTheReply : Obligations.InitializeFollowsTheReply := by
  intro s w h d c bus size pitch ds k hw hf hp hdev hpending hk hs hc hbus hsize hpitch ok
  refine ⟨(initMemory w h d s).answered s.cfg.msgBufAddr ds, ?_, fun b hb => ?_⟩
  · have code := answered_initMemory hw w h d (k := 0) (by decide) hc
    have bus24 := answered_initMemory hw w h d (k := 23) (by decide) hbus
    have size25 := answered_initMemory hw w h d (k := 24) (by decide) hsize
    have pitch29 := answered_initMemory hw w h d (k := 28) (by decide) hpitch
    exact (exec_fbInit_served hw hf hp hdev hpending hk hs w h d).trans
      (congrArg _ (alone_verify_init code bus24 size25 pitch29))
  · rw [Memory.answered, initMemory_word_zero hw]
    exact (readByte_rewriteMessage_other _ _ 31 _ _ _ (by omega)).trans (readByte_initMemory_other w h d s b hb)

/-- Settles O35: the reply of R147, by what FB_INIT does with any reply. -/
theorem initializeEndToEndCase : Obligations.InitializeEndToEndCase := by
  intro s c ds k hw hf hp hk hdev hpending hbit hs hc hbus hsize hpitch
  obtain ⟨m, he, -⟩ := initializeFollowsTheReply s 1280#32 720#32 32#32 c _ _ _ ds k hw hf hp hdev hpending hk hs hc
    hbus hsize hpitch
  refine ⟨_, he, ?_, ?_⟩ <;> simp [hbit]

end Sys2Proof.Machine
end

section
/-! SUPPORT. FB_INIT under every schedule (spec/42_framebuffer.md R141, R146; spec/40_mailbox_transport.md R111): where
it can be, kept by every step of the CPU and of the coprocessor while it is under way; and how many replies can still come,
which no step of the coprocessor raises. -/

namespace Sys2Proof.Machine

variable {s t : State} {w h d : Word}

/-! ## Replies that can still come -/

/-- Channel-8 words that a `receive` has still to take: sent, taken by the coprocessor, or answered (R106, R107). -/
def State.outstanding (s : State) : Nat :=
  s.dev.out.length + s.cop.pending.length + s.dev.inq.countP fun w => chanOf w = 8#32

theorem outstanding_eq_zero :
    s.outstanding = 0 ↔ s.dev.out = [] ∧ s.cop.pending = [] ∧ ∀ w ∈ s.dev.inq, chanOf w ≠ 8#32 := by
  simp [State.outstanding, and_assoc]

/-- Taking the head of `dev.IN` takes a reply where it is a channel-8 word (R104). -/
theorem outstanding_take {v : Word} {rest : List Word} (h : t.dev.inq = v :: rest) :
    (t.withIn rest).outstanding + (if chanOf v = 8#32 then 1 else 0) = t.outstanding := by
  simp [State.outstanding, h, List.countP_cons]
  omega

/-- A step of the coprocessor moves a request on, and brings no reply of its own (R106 to R108). -/
theorem copStep_outstanding_le (e : CopStep) (s : State) : (copStep e s).outstanding ≤ s.outstanding := by
  cases e with
  | consume =>
    rcases copConsume_cases s with ⟨-, e⟩ | ⟨w, rest, hq, e⟩ <;> rw [copStep, e]
    simp [State.outstanding, hq]
    omega
  | answer a ds =>
    rcases copAnswer_cases a ds s with e | ⟨hp, -, e⟩ <;> rw [copStep, e]
    have drops := List.length_erase_of_mem hp
    have pos := List.length_pos_of_mem hp
    have reply : [a ||| Config.propertyChannel].countP (fun w => chanOf w = 8#32) ≤ 1 := List.countP_le_length
    simp only [State.outstanding, State.withIn_dev, State.withPending_dev, State.withMem_dev, State.withIn_cop,
      State.withPending_cop, List.countP_append]
    omega
  | unsolicited w =>
    rcases copUnsolicited_cases w s with e | ⟨hw, -, e⟩ <;> rw [copStep, e]
    have other : chanOf w ≠ 8#32 := hw
    simp [State.outstanding, other]

/-- Where no reply can come, no step of the coprocessor writes a word of the message (R107). -/
theorem word_copStep (e : CopStep) (h : t.outstanding = 0) : (copStep e t).word = t.word := by
  obtain ⟨hout, hpending, -⟩ := outstanding_eq_zero.mp h
  funext i
  simp only [State.word, State.wordAddr, copStep_cfg, (copStep_undisturbed (.inr ⟨hout, hpending⟩)).1]

/-! ## Under way -/

/-- The operation that began in `s` is under way: nothing returned, driver and marks as they were. -/
def UnderWay (s t : State) : Prop :=
  t.cpu ≠ [] ∧ t.pos = s.pos ∧ t.results = s.results ∧ t.fb = s.fb ∧ t.fault = s.fault ∧ t.refused = s.refused

theorem UnderWay.copStep (u : UnderWay s t) (e : CopStep) : UnderWay s (copStep e t) := by
  simpa [UnderWay] using u

/-- A CPU step that does not end the operation leaves it under way. -/
theorem UnderWay.cpuTick (u : UnderWay s t) (hc : (cpuTick t).cpu ≠ []) : UnderWay s (cpuTick t) := by
  obtain ⟨hn, hpos, hres, hfb, hf, hr⟩ := u
  obtain ⟨m, ms, hm⟩ := List.exists_cons_of_ne_nil hn
  obtain ⟨-, kpos, kres⟩ := (cpuTick_progress hn).resolve_right fun ⟨ended, _⟩ => hc ended
  have ht := cpuTick_cases hm
  generalize Machine.cpuTick t = v at *
  cases ht with
  | refuse r => exact absurd rfl hc
  | raise f => exact absurd rfl hc
  | work v ha ns _ =>
    obtain ⟨afb, -, af, ar⟩ := ha.frame
    exact ⟨hc, kpos.trans hpos, kres.trans hres, by rw [settle_fb, afb, hfb], by rw [settle_fault, af, hf],
      by rw [settle_refused, ar, hr]⟩
  | ready => exact absurd rfl hc

/-! ## The build -/

/-- Against a full queue and by itself the CPU comes from `t` to the send of the FB_INIT that began in `s`, whatever
the coprocessor has written. -/
def ComesToSend (s : State) (w h d : Word) (t : State) : Prop :=
  ∃ out c m m', out.length = t.cfg.fifoDepth ∧
    alone (t.over ⟨out, []⟩ c m []) = (s.initSends w h d).over ⟨out, []⟩ c m' []

/-- FB_INIT begins so: its build reads nothing the coprocessor writes (R120 to R122). -/
theorem comesToSend_settle (hw : s.cfg.Wf) (w h d : Word) : ComesToSend s w h d (settle (initPieces w h d) s) := by
  obtain ⟨out, full⟩ : ∃ out : List Word, out.length = s.cfg.fifoDepth :=
    ⟨List.replicate _ 0#32, List.length_replicate⟩
  refine ⟨out, s.cop, s.mem, initMemory w h d (s.over ⟨out, []⟩ s.cop s.mem []), by rw [settle_cfg, full], ?_⟩
  rw [← settle_over, ← alone_cpuTicks 39, cpuTicks_initPieces (by exact hw)]
  exact alone_fixed (cpuTick_pollFull_full rfl full)

theorem ComesToSend.copStep (c : ComesToSend s w h d t) (e : CopStep) : ComesToSend s w h d (copStep e t) := by
  rw [copStep_frame]
  exact c

theorem ComesToSend.ne_nil (c : ComesToSend s w h d t) : t.cpu ≠ [] := by
  obtain ⟨out, c, m, m', -, e⟩ := c
  intro hc
  rw [alone_nil (by exact hc)] at e
  have atSend := congrArg State.cpu e
  rw [State.over_cpu, State.over_cpu, hc] at atSend
  cases atSend

/-- From its last two read-backs on FB_INIT comes to its end by itself (R141). -/
theorem alone_readPitch_ends {bus size : Word} {oP : Nat} {ms : List Micro}
    (hc : t.cpu = .readPitch w h d bus size oP :: ms) : (alone t).cpu = [] := by
  have ends : (cpuTick t).cpu = [] := by rw [cpuTick_cons hc]; exact endInit_over _ _ _ _ _ _ t
  rw [← alone_cpuTick, alone_nil ends, ends]

theorem alone_readSize_ends {bus : Word} {oA oP : Nat} {ms : List Micro}
    (hc : t.cpu = .readSize w h d bus oA oP :: ms) : (alone t).cpu = [] := by
  rw [← alone_cpuTick, cpuTick_cons hc]
  exact alone_readPitch_ends rfl

/-- A call that is past its polls comes to its end by itself (R105, R141). -/
theorem alone_pastPolls {x : Micro} {ms : List Micro} (hc : t.cpu = x :: ms) (hq : x.quiet = false)
    (hf : ∀ c a, x ≠ .pollFull c a) (he : ∀ c use, x ≠ .pollEmpty c use) : (alone t).cpu = [] := by
  cases x with
  | verify b task =>
    rw [← alone_cpuTick, cpuTick_cons hc]
    cases task with
    | call => exact congrArg State.cpu (alone_returned _ _)
    | pmCall => exact congrArg State.cpu (alone_returned _ _)
    | fbInit w h d oA oP =>
      simp only [doMicro, afterVerify]
      split
      · rw [alone_readBack]; exact endInit_over _ _ _ _ _ _ _
      · rw [alone_returned]; rfl
  | readBus w h d oA oP =>
    rw [← alone_cpuTick, cpuTick_cons hc]
    exact alone_readSize_ends rfl
  | readSize => exact alone_readSize_ends hc
  | readPitch => exact alone_readPitch_ends hc
  | pollFull c a => exact absurd rfl (hf c a)
  | pollEmpty c use => exact absurd rfl (he c use)
  | _ => cases hq

/-- The build goes on with a piece that leaves the queues alone, or it has come to the send. -/
theorem ComesToSend.cases (c : ComesToSend s w h d t) :
    (ComesToSend s w h d (cpuTick t) ∧ (cpuTick t).dev = t.dev) ∨
    (t.cpu = [.pollFull 8#32 s.cfg.msgBufAddr, .pollEmpty 8#32 .drop,
        .verify s.cfg.msgBufAddr (.fbInit w h d 24 29)] ∧ t.pm = ⟨.finished, 31⟩) := by
  obtain ⟨x, ms, hc⟩ := List.exists_cons_of_ne_nil c.ne_nil
  obtain ⟨out, c, m, m', full, e⟩ := c
  have hco : (t.over ⟨out, []⟩ c m []).cpu = x :: ms := hc
  cases hq : x.quiet with
  | true =>
    refine .inl ⟨⟨out, c, x.writes t m, m', by rw [cpuTick_cfg, full], ?_⟩, ?_⟩
    · rw [← e, ← alone_cpuTick (t.over _ _ _ _), cpuTick_cons hco, doMicro_over hq, cpuTick_cons hc]
    · rw [cpuTick_cons hc, (doMicro_quiet hq ms t).1]
  | false =>
    have atSend : alone (t.over ⟨out, []⟩ c m []) = t.over ⟨out, []⟩ c m [] := by
      by_cases hf : ∃ k a, x = .pollFull k a
      · obtain ⟨k, a, rfl⟩ := hf
        exact alone_fixed (cpuTick_pollFull_full hco full)
      by_cases he : ∃ k use, x = .pollEmpty k use
      · obtain ⟨k, use, rfl⟩ := he
        exact alone_fixed (cpuTick_pollEmpty_empty hco rfl)
      have ends := alone_pastPolls hco hq (fun k a h => hf ⟨k, a, h⟩) fun k use h => he ⟨k, use, h⟩
      rw [e] at ends
      cases ends
    rw [atSend] at e
    exact .inr ⟨congrArg State.cpu e, congrArg State.pm e⟩

/-! ## The call and the read-backs -/

/-- What FB_INIT has still to do once its request is sent, with the builder's record, given the words of the message
and how many replies were outstanding when it began (`n`) and are now (`o`). Where none was, the words it has read are
those that the message holds. -/
inductive InitCall (w h d : Word) (word : Nat → Word) (n o : Nat) : List Micro → Builder → Prop where
  | receive (a : Word) (ho : o ≤ n + 1) :
    InitCall w h d word n o [.pollEmpty 8#32 .drop, .verify a (.fbInit w h d 24 29)] ⟨.finished, 31⟩
  | verify (a : Word) (ho : o ≤ n) : InitCall w h d word n o [.verify a (.fbInit w h d 24 29)] ⟨.finished, 31⟩
  | readBus (ho : o ≤ n) : InitCall w h d word n o [.readBus w h d 24 29] ⟨.idle, 31⟩
  | readSize (bus : Word) (ho : o ≤ n) (hr : n = 0 → bus = word 24) :
    InitCall w h d word n o [.readSize w h d bus 24 29] ⟨.idle, 31⟩
  | readPitch (bus size : Word) (ho : o ≤ n) (hr : n = 0 → bus = word 24 ∧ size = word 25) :
    InitCall w h d word n o [.readPitch w h d bus size 29] ⟨.idle, 31⟩

theorem InitCall.ne_nil {word : Nat → Word} {n o : Nat} {ms : List Micro} {p : Builder}
    (c : InitCall w h d word n o ms p) : ms ≠ [] := by
  cases c <;> simp

/-- It stays so where the replies do not become more, and the words change only while one can come. -/
theorem InitCall.mono {word word' : Nat → Word} {n o o' : Nat} {ms : List Micro} {p : Builder}
    (c : InitCall w h d word n o ms p) (ho : o' ≤ o) (hw : o = 0 → word' = word) : InitCall w h d word' n o' ms p := by
  cases c with
  | receive a hn => exact .receive a (ho.trans hn)
  | verify a hn => exact .verify a (ho.trans hn)
  | readBus hn => exact .readBus (ho.trans hn)
  | readSize bus hn hr => exact .readSize bus (ho.trans hn) fun h0 => by rw [hw (by omega)]; exact hr h0
  | readPitch bus size hn hr => exact .readPitch bus size (ho.trans hn) fun h0 => by rw [hw (by omega)]; exact hr h0

/-- FB_INIT is over: true with the driver READY by the words it read, or false with the driver as it was. -/
def Initialized (s : State) (w h d : Word) (t : State) : Prop :=
  t.cpu = [] ∧ t.pos = s.pos + 1 ∧ t.fault = s.fault ∧ t.refused = s.refused ∧ t.pm = ⟨.idle, 31⟩ ∧
  ((∃ bus size pitch : Word, t.results = s.results ++ [.flag true] ∧ bus ≠ 0#32 ∧
      t.fb = ⟨.ready, ⟨w, h, pitch, d, busToCpu bus, size⟩⟩ ∧
      (s.outstanding = 0 → bus = t.word 24 ∧ size = t.word 25 ∧ pitch = t.word 29)) ∨
   (t.results = s.results ++ [.flag false] ∧ t.fb = s.fb))

theorem UnderWay.returnsFalse (u : UnderWay s t) (hp : t.pm = ⟨.idle, 31⟩) :
    Initialized s w h d (t.returned (.flag false)) := by
  obtain ⟨-, hpos, hres, hfb, hf, hr⟩ := u
  exact ⟨rfl, by simp [hpos], hf, hr, hp, .inr ⟨by simp [hres], hfb⟩⟩

/-- Where FB_INIT can be while it is under way: in its build or at its send, or past it. -/
def InitStage (s : State) (w h d : Word) (t : State) : Prop :=
  (ComesToSend s w h d t ∧ t.outstanding ≤ s.outstanding) ∨
  InitCall w h d t.word s.outstanding t.outstanding t.cpu t.pm

theorem InitStage.ne_nil (i : InitStage s w h d t) : t.cpu ≠ [] := i.elim (fun i => i.1.ne_nil) InitCall.ne_nil

theorem InitStage.copStep (i : InitStage s w h d t) (e : CopStep) : InitStage s w h d (copStep e t) := by
  have le := copStep_outstanding_le e t
  rcases i with ⟨c, ho⟩ | c
  · exact .inl ⟨c.copStep e, le.trans ho⟩
  · refine .inr ?_
    rw [copStep_cpu, copStep_pm]
    exact c.mono le (word_copStep e)

/-- A CPU step of the build comes on, polls a full queue, or sends the request. -/
theorem ComesToSend.cpuTick (c : ComesToSend s w h d t) (ho : t.outstanding ≤ s.outstanding) :
    InitStage s w h d (cpuTick t) := by
  rcases c.cases with ⟨c', hdev⟩ | ⟨hc, hp⟩
  · exact .inl ⟨c', by simpa [State.outstanding, hdev] using ho⟩
  by_cases full : t.dev.out.length = t.cfg.fifoDepth
  · rw [cpuTick_pollFull_full hc full]
    exact .inl ⟨c, ho⟩
  · rw [cpuTick_pollFull_room hc full]
    have sent : InitCall w h d t.word s.outstanding (t.outstanding + 1)
        [.pollEmpty 8#32 .drop, .verify s.cfg.msgBufAddr (.fbInit w h d 24 29)] t.pm :=
      hp ▸ .receive _ (by omega)
    exact .inr (sent.mono (by simp [State.outstanding, settle]; omega) fun _ => rfl)

/-- A CPU step past the send goes on to the next piece, or ends FB_INIT. -/
theorem InitCall.cpuTick (c : InitCall w h d t.word s.outstanding t.outstanding t.cpu t.pm) (u : UnderWay s t) :
    InitStage s w h d (cpuTick t) ∨ Initialized s w h d (cpuTick t) := by
  generalize hc : t.cpu = ms at c
  generalize hp : t.pm = p at c
  cases c with
  | receive a ho =>
    left
    cases hq : t.dev.inq with
    | nil =>
      rw [cpuTick_pollEmpty_empty hc hq]
      exact .inr (hc ▸ hp ▸ .receive a ho)
    | cons v rest =>
      have taken := outstanding_take hq
      rw [cpuTick_pollEmpty_cons hc hq]
      split
      · rename_i hv
        rw [if_pos hv] at taken
        exact .inr (hp ▸ .verify a (show (t.withIn rest).outstanding ≤ _ by omega))
      · exact .inr (hc ▸ hp ▸ .receive a (by omega))
  | verify a ho =>
    have idle : (⟨.idle, t.pm.cursor⟩ : Builder) = ⟨.idle, 31⟩ := by rw [hp]
    rw [cpuTick_cons hc, doMicro]
    simp only [afterVerify, idle]
    split
    · exact .inl (.inr (.readBus ho))
    · exact .inr (UnderWay.returnsFalse (t := t.withPm ⟨.idle, 31⟩) u rfl)
  | readBus ho =>
    rw [cpuTick_cons hc]
    exact .inl (.inr (hp ▸ .readSize _ ho fun _ => rfl))
  | readSize bus ho hr =>
    rw [cpuTick_cons hc]
    exact .inl (.inr (hp ▸ .readPitch bus _ ho fun h0 => ⟨hr h0, rfl⟩))
  | readPitch bus size ho hr =>
    rw [cpuTick_cons hc, doMicro, endInit]
    split
    · exact .inr (u.returnsFalse hp)
    · rename_i hz
      obtain ⟨-, hpos, hres, -, hf, hm⟩ := u
      exact .inr ⟨rfl, by simp [hpos], hf, hm, hp, .inl ⟨bus, size, t.word 29, by simp [hres], hz, rfl,
        fun h0 => ⟨(hr h0).1, (hr h0).2, rfl⟩⟩⟩

/-! ## The obligation -/

/-- Where FB_INIT can be: under way in one of its stages, or over. -/
def Initializing (s : State) (w h d : Word) (t : State) : Prop :=
  (UnderWay s t ∧ InitStage s w h d t) ∨ Initialized s w h d t

theorem Initializing.cpuTick (i : Initializing s w h d t) : Initializing s w h d (cpuTick t) := by
  rcases i with ⟨u, i⟩ | ended
  · have next : InitStage s w h d (Machine.cpuTick t) ∨ Initialized s w h d (Machine.cpuTick t) :=
      i.elim (fun ⟨c, ho⟩ => .inl (c.cpuTick ho)) fun c => c.cpuTick u
    exact next.imp_left fun i => ⟨u.cpuTick i.ne_nil, i⟩
  · rw [cpuTick_nil ended.1]
    exact .inr ended

/-- The coprocessor's steps count only while FB_INIT is under way. -/
theorem Initializing.copStep (i : Initializing s w h d t) (hc : t.cpu ≠ []) (e : CopStep) :
    Initializing s w h d (copStep e t) := by
  obtain ⟨u, i⟩ := i.resolve_right fun ended => hc ended.1
  exact .inl ⟨u.copStep e, i.copStep e⟩

theorem initializing_settle (hw : s.cfg.Wf) (w h d : Word) : Initializing s w h d (settle (initPieces w h d) s) :=
  .inl ⟨⟨List.cons_ne_nil _ _, rfl, rfl, rfl, rfl, rfl⟩, .inl ⟨comesToSend_settle hw w h d, le_refl s.outstanding⟩⟩

/-- Settles O36: every step keeps where FB_INIT can be (`Initializing.cpuTick`, `Initializing.copStep`), from its
beginning on. -/
theorem initializeUnderEverySchedule : Obligations.InitializeUnderEverySchedule := by
  intro s w h d hw hf hp
  refine ⟨_, exec_fbInit hf hp w h d, ?_⟩
  have waiting := drive_waiting s.sched (settle (initPieces w h d) s)
  have stops : Initializing s w h d (drive s.sched (settle (initPieces w h d) s)) :=
    drive_induct (fun _ i => i.cpuTick) (fun e _ hc i => i.copStep hc e) (fun _ _ i => i) s.sched _
      (initializing_settle hw w h d)
  generalize drive s.sched (settle (initPieces w h d) s) = t at waiting stops
  rcases stops with ⟨⟨hc, hpos, hres, hfb, hfault, hrefused⟩, -⟩ | ⟨hc, hpos, hfault, hrefused, hpm, outcome⟩
  · exact ⟨hfault, hrefused, .inl ⟨hc, (waiting hc).symm.imp_left And.left, hpos, hres, hfb⟩⟩
  · refine ⟨hfault, hrefused, .inr ⟨hc, hpos, hpm, outcome.imp_left ?_⟩⟩
    rintro ⟨bus, size, pitch, hres, hz, hfb, read⟩
    exact ⟨bus, size, pitch, hres, hz, hfb, fun hout hpending hin =>
      read (outstanding_eq_zero.mpr ⟨hout, hpending, hin⟩)⟩

end Sys2Proof.Machine
end

section
/-! SUPPORT. The text rasterizer's obligation (spec/43_text_raster.md R162, R163): FB_DRAW_CHAR of one character after
another paints one run of pixels, which is FB_DRAW_STRING's. -/

namespace Sys2Proof.Machine

variable {s : State}

/-- On a region that holds every pixel FB_DRAW_CHAR returns, with its cells painted (R143, R161, R201). -/
theorem exec_drawChar_fits (hd : s.Drawable) (hf : s.fb.desc.Fits) (hs : s.sched = []) (x y : Int) (ch : Byte)
    (fg bg : Color) :
    exec (.fbDrawChar x y ch fg bg) s = .next ((s.withMem
      (painted s.fb.desc (charPixels (glyphOf s.cfg ch) x y fg bg) s.mem).1).returned .none) :=
  paint_fits hd hf hs _

/-- On a region that holds every pixel FB_DRAW_STRING returns, with its text painted (R143, R162, R201). -/
theorem exec_drawString_fits (hd : s.Drawable) (hf : s.fb.desc.Fits) (hs : s.sched = []) (x y : Int) {text : List Byte}
    (hn : 0#8 ∉ text) (fg bg : Color) :
    exec (.fbDrawString x y text fg bg) s = .next ((s.withMem
      (painted s.fb.desc (textPixels s.cfg (newlineX s.cfg x) fg bg text x y) s.mem).1).returned .none) :=
  (execFbDrawString_alone hd hs x y hn fg bg).trans
    (congrArg _ (State.drew_none (painted_no_fault _ fun _ _ h => hf.inside hd.2 h)))

/-- On a region that holds every pixel FB_DRAW_CHAR of one character after another leaves the memory of the pixel loop over
all their cells (R161). -/
theorem execAll_drawChars (fg bg : Color) (gs : List (Int × Int × Byte)) (hd : s.Drawable) (hf : s.fb.desc.Fits)
    (hs : s.sched = []) (hu : s.Unmarked) :
    ∃ u, execAll (gs.map fun g => .fbDrawChar g.1 g.2.1 g.2.2 fg bg) s = some u ∧
      u.mem = (painted s.fb.desc (gs.flatMap fun g => charPixels (glyphOf s.cfg g.2.2) g.1 g.2.1 fg bg) s.mem).1 := by
  induction gs generalizing s with
  | nil => exact ⟨s, rfl, rfl⟩
  | cons g gs ih =>
    have first := exec_drawChar_fits hd hf hs g.1 g.2.1 g.2.2 fg bg
    have noFault := painted_no_fault (ps := charPixels (glyphOf s.cfg g.2.2) g.1 g.2.1 fg bg) s.mem
      fun _ _ h => hf.inside hd.2 h
    rw [List.map_cons, execAll_cons _ first hu, List.flatMap_cons, painted_append, if_pos noFault]
    exact ih (s := (s.withMem _).returned .none) hd hf hs hu

/-- FB_DRAW_STRING returns, with the memory FB_DRAW_CHAR of its characters at R162's positions leaves. -/
theorem drawString_drawsChars (hd : s.Drawable) (hf : s.fb.desc.Fits) (hs : s.sched = []) (hu : s.Unmarked) (x y : Int)
    {text : List Byte} (hn : 0#8 ∉ text) (fg bg : Color) :
    ∃ t u, exec (.fbDrawString x y text fg bg) s = .next t ∧
      t = { s with mem := t.mem, cpu := [], pos := s.pos + 1, results := s.results ++ [.none] } ∧
      execAll ((textLayout (newlineX s.cfg x) text x y).map fun g => .fbDrawChar g.1 g.2.1 g.2.2 fg bg) s = some u ∧
      t.mem = u.mem := by
  obtain ⟨u, chars, hmem⟩ := execAll_drawChars fg bg (textLayout (newlineX s.cfg x) text x y) hd hf hs hu
  exact ⟨_, u, exec_drawString_fits hd hf hs x y hn fg bg, rfl, chars, hmem.symm⟩

/-- At column 0 a newline leads back to column 0 for both values of NL_RESET (R162, R163). -/
theorem newlineX_zero (p : Config.Params) : newlineX p 0 = 0 := by
  unfold newlineX
  split <;> rfl

/-- The source's text case (R163): 'A' at the origin and, a newline further, 'B' at (0, 10). -/
theorem textLayout_A_newline_B : textLayout 0 [0x41#8, 0x0A#8, 0x42#8] 0 0 = [(0, 0, 0x41#8), (0, 10, 0x42#8)] := rfl

/-- Settles O43: the string and its characters paint the same run of pixels (`drawString_drawsChars`), and the
source's text is laid out as R163 says (`newlineX_zero`, `textLayout_A_newline_B`). -/
theorem drawStringDrawsEachCharacter : Obligations.DrawStringDrawsEachCharacter := by
  intro s x y text fg bg hd hf hs hu hn
  refine ⟨drawString_drawsChars hd hf hs hu x y hn fg bg, ?_⟩
  obtain ⟨t, u, string, -, chars, hmem⟩ :=
    drawString_drawsChars hd hf hs hu 0 0 (text := [0x41#8, 0x0A#8, 0x42#8]) (by decide) fg bg
  rw [newlineX_zero, textLayout_A_newline_B] at chars
  exact ⟨t, u, string, chars, hmem⟩

end Sys2Proof.Machine
end

section
/-! SUPPORT. Whose step it is, and the obligation of the stop (spec/60_exceptions.md R176): the coprocessor's turn, and the
CPU's turn once a fault or a refusal is recorded. -/

namespace Sys2Proof.Machine

variable {s : State}

/-- On the coprocessor's turn the step is the coprocessor's, with the turn taken from the schedule, whatever is recorded
for the CPU (R106, R176). -/
theorem step_copTurn {e : CopStep} {rest : List Turn} (h : s.sched = .cop e :: rest) :
    step s = .next (copStep e (s.withSched rest)) := by
  simp only [step, h]

/-- The CPU's step answers a recorded fault. -/
theorem cpuStep_of_fault {f : Fault} (hf : s.fault = some f) : cpuStep s = .fault f := by
  simp only [cpuStep, hf]

/-- The CPU's step answers a recorded refusal. -/
theorem cpuStep_of_refused {r : Refusal} (hf : s.fault = none) (hr : s.refused = some r) : cpuStep s = .refused r := by
  simp only [cpuStep, hf, hr]

/-- Settles O47: the head of the schedule says whose step it is (`step_copTurn`, `step_cpuTurn`); the coprocessor's keeps
what is the CPU's, and the CPU's is its recorded stop. -/
theorem stepFollowsTheSchedule : Obligations.StepFollowsTheSchedule := by
  refine fun s => ⟨fun e rest h => ?_, fun turn => ⟨fun f hf => ?_, fun r hf hr => ?_⟩⟩
  · exact ⟨_, step_copTurn h, rfl, copStep_fault e _, copStep_refused e _, copStep_pos e _, copStep_cpu e _⟩
  · exact (step_cpuTurn turn).trans (cpuStep_of_fault hf)
  · exact (step_cpuTurn turn).trans (cpuStep_of_refused hf hr)

end Sys2Proof.Machine
end

section
/-! SUPPORT. The state after reset (spec/70_reset_and_hazards.md R190, R191): what every launch gives, and that the
parameters and INITIAL_IN of `State.reset` are ones the rules admit. -/

namespace Sys2Proof.Machine

variable {p : Config.Params} {inq : List Word} {ops : List Issue} {sched : List Turn}

/-- R8's defaults, with the values that stand in for the OPEN parameters, meet the constraints on the parameters. -/
theorem defaults_wf : Config.defaults.Wf where
  fifo := by decide
  capacity := by decide
  aligned := by decide
  inSpace := by decide
  apart r := by cases r <;> decide
  regAligned r := by cases r <;> decide
  regInSpace r := by cases r <;> decide
  regApart := by decide

/-- A machine launched with admitted parameters and an INITIAL_IN that fits `dev.IN` (R24) meets the invariant. -/
theorem State.launch_inv (hp : p.Wf) (hin : inq.length ≤ p.fifoDepth) : (State.launch p inq ops sched).Inv where
  params   := hp
  memory   := ⟨.nil, nofun⟩
  outBound := Nat.zero_le _
  inBound  := hin
  outWords := nofun
  requests := nofun
  cursor   := fun building => absurd rfl building
  buffer   := nofun
  oneMark  := .inl rfl
  position := nofun

/-- R191: with an empty INITIAL_IN the reset values are LAUNCH_CLEAN. -/
theorem State.launch_clean : (State.launch p [] ops sched).LaunchClean := ⟨rfl, rfl, rfl, rfl, rfl, rfl, rfl⟩

/-- FULL is 0 after a launch: `dev.OUT` is empty, and a queue holds at least one word (R8, R190). -/
theorem State.launch_not_full (hp : p.Wf) : (State.launch p inq ops sched).full = false := by
  have depth : 1 ≤ p.fifoDepth := hp.fifo
  rw [State.full_eq]
  exact decide_eq_false (Nat.ne_of_lt depth)

/-- EMPTY is 1 after a launch with an empty INITIAL_IN (R190). -/
theorem State.launch_empty : (State.launch p [] ops sched).empty = true := rfl

/-- Settles O56: reset is a launch with admitted parameters (`defaults_wf`) and an empty INITIAL_IN. -/
theorem resetMeetsTheInvariant : Obligations.ResetMeetsTheInvariant :=
  State.launch_inv defaults_wf (Nat.zero_le _)

/-- Settles O57: reset is a clean launch, and bits 31 and 30 of STATUS are FULL and EMPTY. -/
theorem resetValues : Obligations.ResetValues := by
  refine ⟨State.launch_clean, rfl, rfl, ?_, ?_⟩
  · exact (statusWord_bit31 _).trans (State.launch_not_full defaults_wf)
  · exact (statusWord_bit30 _).trans State.launch_empty

end Sys2Proof.Machine
end
